-- ==== Sys2Proof/Word.lean ====
section
/-! DEFINITION. The byte and the 32-bit word of 00_scope.md R8 and R9. -/

namespace Sys2Proof

/-- A byte of memory (00_scope.md R8). -/
abbrev Byte := BitVec 8

/-- A 32-bit word: a register, an xxHash32 lane, a hash-table entry (00_scope.md R9). -/
abbrev Word := BitVec 32

end Sys2Proof
end

