-- ==== Sys2Proof/Machine/BlockFormat.lean ====
section
/-! DEFINITION. The LZ4 block format (30_encoding.md R40 to R46): token, length extension, offset, sequence, block. -/

namespace Sys2Proof
namespace Machine

/-- A sequence with a match (R40): its literals, its offset and its match length. -/
structure Sequence where
  literals : List Byte
  offset   : Nat
  matchLen : Nat
  deriving DecidableEq, Repr

/-- A block (R40, R45): the sequences with a match, then the literals of the last sequence. -/
structure Block where
  sequences : List Sequence
  final     : List Byte
  deriving DecidableEq, Repr

/-- The 4-bit field of a length: `min(n, 15)` (R41). -/
def lengthNibble (n : Nat) : BitVec 4 := BitVec.ofNat 4 (min n 15)

/-- The token (R41): literal-length field in bits 7:4, match-length field in bits 3:0. -/
def token (ll ml : BitVec 4) : Byte := ll ++ ml

/-- `token[7:4]` (R41). -/
def tokenLiteral (t : Byte) : BitVec 4 := t.extractLsb' 4 4

/-- `token[3:0]` (R41). -/
def tokenMatch (t : Byte) : BitVec 4 := t.extractLsb' 0 4

/-- The extension bytes of a length (R42): none below 15; else `floor((n - 15) / 255)` bytes 255 and the remainder.
R42 contradicts itself: its pseudocode and its count give 269 the one byte FE and 270 the bytes FF 00, its examples say
FF 00 and FF 01. DEDUCED: the pseudocode holds, since R43 inverts it and not the examples (log entry 24). -/
def lengthExt (n : Nat) : List Byte :=
  if n < 15 then []
  else List.replicate ((n - 15) / 255) 255 ++ [BitVec.ofNat 8 ((n - 15) % 255)]

/-- Reads extension bytes up to and including the first that is not 255 and adds them to `n` (R43); `none` when the
input ends first. -/
def readExt : List Byte → Nat → Option (Nat × List Byte)
  | [], _ => none
  | b :: rest, n => if b = 255 then readExt rest (n + 255) else some (n + b.toNat, rest)

/-- The length of a field and the input after its extension (R43). -/
def readLength (field : BitVec 4) (input : List Byte) : Option (Nat × List Byte) :=
  if field = 15 then readExt input 15 else some (field.toNat, input)

/-- The offset, least significant byte first (R44). -/
def offsetBytes (d : Nat) : List Byte := [BitVec.ofNat 8 d, BitVec.ofNat 8 (d / 256)]

/-- The offset of two bytes (R44). -/
def offsetOf (b0 b1 : Byte) : Nat := b0.toNat + 256 * b1.toNat

/-- The bytes of a sequence with a match (R40, 42_block_compressor.md R83). -/
def Sequence.bytes (q : Sequence) : List Byte :=
  token (lengthNibble q.literals.length) (lengthNibble (q.matchLen - 4)) ::
    (lengthExt q.literals.length ++ q.literals ++ offsetBytes q.offset ++ lengthExt (q.matchLen - 4))

/-- The bytes of the last sequence (R45, 42_block_compressor.md R84). -/
def finalBytes (lits : List Byte) : List Byte :=
  token (lengthNibble lits.length) 0 :: (lengthExt lits.length ++ lits)

/-- The bytes of a block (R40). -/
def Block.bytes (b : Block) : List Byte := b.sequences.flatMap Sequence.bytes ++ finalBytes b.final

end Machine
end Sys2Proof
end

