-- ==== Sys2Proof/Config.lean ====
section
/-! DEFINITION. The implementation parameters of 00_scope.md R6 and the free values of 93_implementation_defined.md. -/

namespace Sys2Proof
namespace Config

/-- The byte addresses `base .. base + len - 1` (20_memory.md R30). -/
structure Span where
  base : Nat
  len  : Nat
  deriving DecidableEq, Repr

/-- The two compressor parameters of R6: `MFLIMIT` (default 12) and `SEARCH_INIT` (default 64; any value ≥ 64). -/
structure SearchParams where
  mflimit    : Nat
  searchInit : Nat
  deriving DecidableEq, Repr

/-- The values the compressor parameters may have: `SEARCH_INIT` ≥ 64 (R6), and an `MFLIMIT` that keeps the four bytes read
at a scan position inside the view (42_block_compressor.md R80, R85). R6 gives `MFLIMIT` no range: DEDUCED, log entry 5. -/
abbrev SearchParams.Legal (p : SearchParams) : Prop := 3 ≤ p.mflimit ∧ 64 ≤ p.searchInit

/-- The parameters of R6 a model takes as arguments, as plain data. `holes` are the spans where `MemOk` is false (every
predicate on 32-bit addresses is such a finite list); `devices` are the spans that are not ordinary memory (20_memory.md
R31). -/
structure Platform where
  csrBase : Word
  holes   : List Span
  devices : List Span
  search  : SearchParams
  deriving DecidableEq, Repr

/-- `HT_SIZE` (R6). -/
def htSize : Nat := 16384

/-- `MAX_OFFSET` (R6). -/
def maxOffset : Nat := 65535

/-- `LASTLITERALS` (R6). -/
def lastLiterals : Nat := 5

/-- `DICT_WINDOW` (R6). -/
def dictWindow : Nat := 65536

/-- `SKIP_TRIGGER` (R6). -/
def skipTrigger : Nat := 6

/-- `MFLIMIT` and `SEARCH_INIT` at the defaults R6 states. -/
def defaultSearch : SearchParams := ⟨12, 64⟩

/-- `POS_LIMIT` (R6). -/
def posLimit : Nat := 2147483647

/-- `2 ^ ADDR_W` (R6). -/
def addrSpace : Nat := 4294967296

/-- The size of one table snapshot in bytes (41_match_finder.md R73). -/
def snapshotSize : Nat := 65536

/-- The size of the register window in bytes (10_state.md R15). -/
def windowSize : Nat := 64

/-- A free value: the byte at an address whose contents the spec leaves unspecified (U2, U4, U5), by draw and address. -/
opaque freeByte : Nat → Nat → Byte

/-- A free value: a hash-table entry the spec leaves unspecified (U1, U3), by draw and index. -/
opaque freeEntry : Nat → Nat → Word

end Config
end Sys2Proof
end

