-- ==== Sys2Proof/Syntax.lean ====
section
/-! DEFINITION. The twelve commands of 30_encoding.md R37. -/

namespace Sys2Proof

/-- One constructor per row of the opcode table (R37). A command has no operand field: its operands are full
32-bit operand registers, and immediates do not exist (R39). -/
inductive Instr where
  | xxh32Oneshot
  | xxh32Reset
  | xxh32Update
  | xxh32Digest
  | htClear
  | htShift
  | htWarm
  | htSave
  | htLoad
  | compressBlock
  | compressBlockExt
  | decompressBlock
  deriving DecidableEq, Repr

end Sys2Proof
end

