-- ==== Sys2Proof/WellFormed.lean ====
section
/-! DEFINITION. Which command words and which register accesses are well formed (30_encoding.md R37, R38; 20_memory.md R29).
An `Instr` has no operand field, so every term of it is well formed; what can be ill formed is the word or the access. -/

namespace Sys2Proof

/-- `w[7:0]`, the OPCODE field (R37). -/
def opcodeField (w : Word) : Byte := w.extractLsb' 0 8

/-- `w[31:8]`, the RSVD field (R37). -/
def rsvdField (w : Word) : BitVec 24 := w.extractLsb' 8 24

/-- The opcodes of R37; every other opcode is undefined (R38). -/
def definedOpcodes : List Byte :=
  [0x30, 0x31, 0x32, 0x33, 0x01, 0x02, 0x03, 0x04, 0x05, 0x10, 0x11, 0x20]

/-- R37: a word selects a command when RSVD is 0 and OPCODE is defined. -/
def wellFormedCommand (w : Word) : Bool :=
  rsvdField w == 0 && definedOpcodes.contains (opcodeField w)

/-- R29: a register access is an aligned 32-bit word access at an offset 0x00 .. 0x3C. -/
def wellFormedAccess (off width : Nat) : Bool :=
  width == 4 && off % 4 == 0 && decide (off < Config.windowSize)

end Sys2Proof
end

