-- ==== Sys2Proof/Decode.lean ====
section
/-! DEFINITION. The decoder of command words (30_encoding.md R37, R38), total and rejecting by name, and the encoder. -/

namespace Sys2Proof

/-- Why a word is no command (R38). -/
inductive DecodeError where
  /-- A bit of `w[31:8]` is 1. -/
  | reservedBitsSet (rsvd : BitVec 24)
  /-- `w[31:8]` is 0 and `w[7:0]` is not in the table of R37. -/
  | undefinedOpcode (opcode : Byte)
  deriving DecidableEq, Repr

/-- The table of R37: OPCODE and command. -/
def opcodeTable : List (Byte × Instr) :=
  [(0x30, .xxh32Oneshot), (0x31, .xxh32Reset), (0x32, .xxh32Update), (0x33, .xxh32Digest),
   (0x01, .htClear), (0x02, .htShift), (0x03, .htWarm), (0x04, .htSave), (0x05, .htLoad),
   (0x10, .compressBlock), (0x11, .compressBlockExt), (0x20, .decompressBlock)]

/-- R37 and R38: RSVD must be 0 and OPCODE a row of the table. -/
def decode (w : Word) : Except DecodeError Instr :=
  if rsvdField w = 0 then
    match opcodeTable.lookup (opcodeField w) with
    | some i => .ok i
    | none => .error (.undefinedOpcode (opcodeField w))
  else .error (.reservedBitsSet (rsvdField w))

/-- The `CMD` word of a command (R37). -/
def encode : Instr → Word
  | .xxh32Oneshot => 0x00000030
  | .xxh32Reset => 0x00000031
  | .xxh32Update => 0x00000032
  | .xxh32Digest => 0x00000033
  | .htClear => 0x00000001
  | .htShift => 0x00000002
  | .htWarm => 0x00000003
  | .htSave => 0x00000004
  | .htLoad => 0x00000005
  | .compressBlock => 0x00000010
  | .compressBlockExt => 0x00000011
  | .decompressBlock => 0x00000020

/-- The command of the `CMD` word whose bits are `w`. A command is one 32-bit register write, so the table's bits
are the word's own bits and no byte order arises (20_memory.md R28). -/
def decodeTableWord (nbits w : Nat) : Option Instr :=
  if nbits ≤ 32 ∧ w < 2 ^ nbits then (decode (BitVec.ofNat 32 w)).toOption else none

end Sys2Proof
end

