-- ==== Sys2Proof/Machine/State.lean ====
section
/-! DEFINITION. The state of the engine, its memory and its host (10_state.md), as plain data, and the state after reset
(70_reset_and_hazards.md R136). -/

namespace Sys2Proof
namespace Machine

/-- The host's protocol violations (70_reset_and_hazards.md R141): after one the engine's behaviour is not specified and
the run ends. -/
inductive Fault where
  /-- Raised by a host write to `CMD` while BUSY (R141, U7). Safe: hardware may go on. -/
  | cmdWriteWhileBusy
  /-- Raised by a host write to an operand register while BUSY (R141, U7). Safe. -/
  | operandWriteWhileBusy
  /-- Raised by an access to the register window that is not an aligned 32-bit word access (R141, U8). Safe. -/
  | badRegisterAccess
  /-- Raised by a memory write to a byte of the running command's regions (R141, U9). Safe. -/
  | regionWriteWhileBusy
  /-- Raised by a command one of whose regions meets a device or the register window (R31, R141, U10). Safe. -/
  | regionNotOrdinary
  deriving DecidableEq, Repr

/-- What the model gives no meaning to. -/
inductive Refusal where
  /-- Raised by an instruction that has no meaning yet: none here. Safe. -/
  | notModelled (mnemonic : String)
  /-- Raised by a register access at or beyond offset 0x40: the platform's (10_state.md R23, U11). Safe. -/
  | outsideWindow
  /-- Raised by a host memory access to an address that is a device, is not backed by memory or is no 32-bit address:
  the platform's (20_memory.md R36). Safe. -/
  | platformAddress
  deriving DecidableEq, Repr

/-- The error codes of 60_exceptions.md R116; no other value is ever in `ERRCODE`. -/
inductive ErrorCode where
  | noError
  | outputBufferTooSmall
  | malformedInput
  | invalidOffset
  | dictionaryOutOfBounds
  | illegalCommand
  | invalidOperand
  | busError
  deriving DecidableEq, Repr

/-- `STATUS` (10_state.md R18). Bits 31:3 read as zero and hold nothing. -/
structure Status where
  busy  : Bool
  done  : Bool
  error : Bool
  deriving DecidableEq, Repr

/-- The operand registers (10_state.md R21). -/
structure OperandRegs where
  srcAddr  : Word
  srcStart : Word
  srcLen   : Word
  dstAddr  : Word
  dstCap   : Word
  dstOff   : Word
  dictAddr : Word
  dictLen  : Word
  param    : Word
  deriving DecidableEq, Repr

/-- The hash table (10_state.md R24). `cells` lists entries by rising index. An entry that is not listed holds 0 when
`fill` is `none`, and the free value `Config.freeEntry d` when `fill` is `some d` (an unspecified table, U1, U3). -/
structure HashTable where
  cells : List (Nat × Word)
  fill  : Option Nat
  deriving DecidableEq, Repr

/-- The incremental xxHash32 context (10_state.md R25). -/
structure XxhContext where
  seed  : Word
  v1    : Word
  v2    : Word
  v3    : Word
  v4    : Word
  total : Word
  large : Bool
  mem   : List Byte
  deriving DecidableEq, Repr

/-- Bytes the spec leaves unspecified (U2, U4): those of `span`, free values of draw `draw`. -/
structure FreeSpan where
  draw : Nat
  span : Config.Span
  deriving DecidableEq, Repr

/-- System memory (20_memory.md R27). `cells` lists bytes by rising address. An address that is not listed reads the
free value of the newest free span that holds it, else 0. -/
structure Memory where
  cells : List Host.Cell
  free  : List FreeSpan
  deriving DecidableEq, Repr

/-- What the outside world can do (10_state.md R13, 70_reset_and_hazards.md R139, R141, R147). -/
inductive HostAction where
  /-- A register read of `width` bytes at `CSR_BASE + off`. -/
  | regRead (off width : Nat)
  /-- A register write of `width` bytes of `v` at `CSR_BASE + off`. -/
  | regWrite (off width : Nat) (v : Word)
  /-- A read of `n` memory bytes from address `a`. -/
  | memRead (a n : Nat)
  /-- A write of memory bytes from address `a`, by the host or another bus master. -/
  | memWrite (a : Nat) (bytes : List Byte)
  /-- A look at the `irq` output (60_exceptions.md R124). -/
  | sampleIrq
  /-- Reset is asserted (R132). -/
  | assertReset
  deriving DecidableEq, Repr

/-- Who moves next. The duration of a command is unspecified (R146): the agenda says between which host actions it
completes. -/
inductive Turn where
  | engine
  | host (a : HostAction)
  deriving DecidableEq, Repr

/-- What the host has observed (R147). -/
inductive Observation where
  | reg (off : Nat) (v : Word)
  | bytes (a : Nat) (bs : List Byte)
  | irq (level : Bool)
  deriving DecidableEq, Repr

/-- The whole machine: the window's registers (R15), the hash table (R24), the xxHash32 context (R25), system memory
(R27), the parameters (R6), and the model's own `agenda`, `seen` and `draws`. -/
structure State where
  cmd     : Word
  status  : Status
  errcode : ErrorCode
  result  : Word
  opr     : OperandRegs
  irqEn   : Bool
  ht      : HashTable
  xs      : XxhContext
  mem     : Memory
  plat    : Config.Platform
  agenda  : List Turn
  seen    : List Observation
  draws   : Nat
  deriving DecidableEq, Repr

/-- R136. The table is unspecified (R134): draw 0. The context is that of seed 0 (R135).
DESIGN CHOICE: the platform (log entry 4), no pending turn (1), unwritten memory (9), the draw counter (8). -/
def State.reset : State where
  cmd     := 0#32
  status  := ⟨false, false, false⟩
  errcode := .noError
  result  := 0#32
  opr     := ⟨0#32, 0#32, 0#32, 0#32, 0#32, 0#32, 0#32, 0#32, 0#32⟩
  irqEn   := false
  ht      := ⟨[], some 0⟩
  xs      := ⟨0#32, 0x24234428#32, 0x85EBCA77#32, 0#32, 0x61C8864F#32, 0#32, false, []⟩
  mem     := ⟨[], []⟩
  plat    := ⟨0xFFFFFFC0#32, [], [], Config.defaultSearch⟩
  agenda  := []
  seen    := []
  draws   := 1

end Machine
end Sys2Proof
end

