-- ==== Sys2Proof/Machine/Ops.lean ====
section
/-! DEFINITION. The shared operations: byte spans, cells, memory, the hash table, the two completions of a command
(60_exceptions.md R117, R118) and the free draws. -/

namespace Sys2Proof

/-- `a` is one of the span's addresses (20_memory.md R30). -/
def Config.Span.contains (sp : Config.Span) (a : Nat) : Bool :=
  decide (sp.base ≤ a) && decide (a < sp.base + sp.len)

/-- R30: both spans are non-empty and they share an address. -/
def Config.Span.overlaps (x y : Config.Span) : Bool :=
  decide (0 < x.len) && decide (0 < y.len) && decide (x.base < y.base + y.len) && decide (y.base < x.base + x.len)

/-- The first address after the span, a mathematical integer (R30). -/
def Config.Span.stop (sp : Config.Span) : Nat := sp.base + sp.len

/-- `MemOk(a)` (00_scope.md R6). -/
def Config.Platform.memOk (p : Config.Platform) (a : Nat) : Bool :=
  decide (a < Config.addrSpace) && !p.holes.any (·.contains a)

/-- The register window as addresses (10_state.md R15). -/
def Config.Platform.window (p : Config.Platform) : Config.Span := ⟨p.csrBase.toNat, Config.windowSize⟩

/-- Some address of the span has `MemOk` false (60_exceptions.md R122). -/
def Config.Platform.unbacked (p : Config.Platform) (sp : Config.Span) : Bool :=
  p.holes.any (·.overlaps sp)

/-- Some address of the span is a device's or the register window's (20_memory.md R31). -/
def Config.Platform.notOrdinary (p : Config.Platform) (sp : Config.Span) : Bool :=
  p.window.overlaps sp || p.devices.any (·.overlaps sp)

/-- `a` is ordinary memory: neither the register window's nor a device's (R31). -/
def Config.Platform.ordinary (p : Config.Platform) (a : Nat) : Bool :=
  !p.window.contains a && !p.devices.any (·.contains a)

namespace Machine

/-! ### Cells: key and value pairs by rising key -/

/-- The value listed for `k`, if any. -/
def cellGet {α : Type} : List (Nat × α) → Nat → Option α
  | [], _ => none
  | c :: rest, k => if k = c.1 then some c.2 else cellGet rest k

/-- Lists `v` for `k`, in its place. -/
def cellPut {α : Type} : List (Nat × α) → Nat → α → List (Nat × α)
  | [], k, v => [(k, v)]
  | c :: rest, k, v =>
    if k < c.1 then (k, v) :: c :: rest
    else if k = c.1 then (k, v) :: rest
    else c :: cellPut rest k v

/-- Unlists `k`. -/
def cellDel {α : Type} : List (Nat × α) → Nat → List (Nat × α)
  | [], _ => []
  | c :: rest, k => if k = c.1 then cellDel rest k else c :: cellDel rest k

/-- The keys rise strictly. -/
def cellsRising {α : Type} (cells : List (Nat × α)) : Bool :=
  decide ((cells.map Prod.fst).Pairwise (· < ·))

/-! ### System memory (20_memory.md R27) -/

/-- `a` lies in a span of unspecified bytes. -/
def Memory.isFree (m : Memory) (a : Nat) : Bool := m.free.any (·.span.contains a)

/-- What an address that is not listed reads as: a free value in an unspecified span (U2, U4), else 0
(DESIGN CHOICE, log entry 9). -/
def Memory.unlisted (m : Memory) (a : Nat) : Byte :=
  match m.free.find? (·.span.contains a) with
  | some f => Config.freeByte f.draw a
  | none => 0#8

/-- `Mem8(a)` (00_scope.md R10). -/
def Memory.read (m : Memory) (a : Nat) : Byte :=
  match cellGet m.cells a with
  | some v => v
  | none => m.unlisted a

/-- The bytes at `a .. a + n - 1`. -/
def Memory.readBytes (m : Memory) (a : Nat) : Nat → List Byte
  | 0 => []
  | n + 1 => m.read a :: m.readBytes (a + 1) n

/-- The bytes of a run from address `a` that are listed: those that differ from what their address reads as unlisted,
and every byte in an unspecified span. -/
def Memory.listed (m : Memory) (a : Nat) : List Byte → List Host.Cell
  | [] => []
  | b :: bs => if m.isFree a || b != 0#8 then (a, b) :: m.listed (a + 1) bs else m.listed (a + 1) bs

/-- Stores a run of bytes from address `a` on: the cells below it, its own, and the cells after it. -/
def Memory.writeBytes (m : Memory) (a : Nat) (bs : List Byte) : Memory :=
  { m with cells := (m.cells.filter fun c => decide (c.1 < a)) ++ m.listed a bs ++
      (m.cells.filter fun c => decide (a + bs.length ≤ c.1)) }

/-- Every byte of the span becomes unspecified (60_exceptions.md R121): a free value of draw `d`. -/
def Memory.scramble (m : Memory) (sp : Config.Span) (d : Nat) : Memory :=
  if sp.len = 0 then m
  else ⟨m.cells.filter fun c => !sp.contains c.1, ⟨d, sp⟩ :: m.free⟩

/-- The canonical form: addresses rise strictly and are 32-bit addresses, and no entry outside the unspecified spans
is 0, which is what an unlisted address reads as there. -/
def Memory.wf (m : Memory) : Bool :=
  cellsRising m.cells &&
    m.cells.all fun c => decide (c.1 < Config.addrSpace) && (c.2 != 0#8 || m.isFree c.1)

/-! ### Little-endian values (20_memory.md R28) -/

/-- The little-endian word of four bytes, least significant first. -/
def le32 (b0 b1 b2 b3 : Byte) : Word := b3 ++ b2 ++ b1 ++ b0

/-- The four bytes of a word, least significant first. -/
def le32Bytes (w : Word) : List Byte :=
  [w.extractLsb' 0 8, w.extractLsb' 8 8, w.extractLsb' 16 8, w.extractLsb' 24 8]

/-- `view[i]` (00_scope.md R11); the rules bound every index, so the default is never read. -/
def viewAt (view : List Byte) (i : Nat) : Byte := view.getD i 0

/-- `rd32LE(view, i)` (R10). -/
def rd32LE (view : List Byte) (i : Nat) : Word :=
  le32 (viewAt view i) (viewAt view (i + 1)) (viewAt view (i + 2)) (viewAt view (i + 3))

/-! ### The hash table (10_state.md R24) -/

/-- What an entry that is not listed holds. -/
def HashTable.unlisted (t : HashTable) (i : Nat) : Word :=
  match t.fill with
  | some d => Config.freeEntry d i
  | none => 0#32

/-- `HT[i]` (00_scope.md R10). -/
def HashTable.read (t : HashTable) (i : Nat) : Word :=
  match cellGet t.cells i with
  | some v => v
  | none => t.unlisted i

/-- `HT[i] <- v` (R10). In a table that is not unspecified a zero entry is unlisted. -/
def HashTable.write (t : HashTable) (i : Nat) (v : Word) : HashTable :=
  if t.fill.isNone && v == 0#32 then { t with cells := cellDel t.cells i }
  else { t with cells := cellPut t.cells i v }

/-- Every entry 0. -/
def HashTable.zero : HashTable := ⟨[], none⟩

/-- Every entry unspecified (U1, U3): the free values of draw `d`. -/
def HashTable.unspecified (d : Nat) : HashTable := ⟨[], some d⟩

/-- The table whose entry `i` is `f i`. -/
def HashTable.ofEntries (f : Nat → Word) : HashTable :=
  ⟨(List.range Config.htSize).filterMap fun i => if f i = 0#32 then none else some (i, f i), none⟩

/-- Applies `f`, which keeps 0, to every entry. -/
def HashTable.map (f : Word → Word) (t : HashTable) : HashTable :=
  match t.fill with
  | none => ⟨t.cells.filterMap fun c => if f c.2 = 0#32 then none else some (c.1, f c.2), none⟩
  | some _ => HashTable.ofEntries fun i => f (t.read i)

/-- The canonical form: indices rise strictly and are table indices, and an entry is 0 only in an unspecified table. -/
def HashTable.wf (t : HashTable) : Bool :=
  cellsRising t.cells &&
    t.cells.all fun c => decide (c.1 < Config.htSize) && (c.2 != 0#32 || t.fill.isSome)

/-! ### Completion and error completion -/

/-- Successful completion `complete(r)` (60_exceptions.md R117). -/
def complete (r : Word) (s : State) : State :=
  { s with result := r, errcode := .noError, status := ⟨false, true, false⟩ }

/-- Error completion `raise E` (R118), the engine's whole trap entry: nothing is saved, no mode changes, there is no
vector. There is no return operation and nothing to restore (R125): the host acknowledges by W1C
(`Status.writeOneToClear`) or starts the next command. -/
def raise (e : ErrorCode) (s : State) : State :=
  { s with result := 0#32, errcode := e, status := ⟨false, true, true⟩ }

/-- The start of a command (10_state.md R17): the word is latched, BUSY set, DONE, ERROR and ERRCODE cleared. -/
def latchCommand (w : Word) (s : State) : State :=
  { s with cmd := w, status := ⟨true, false, false⟩, errcode := .noError }

/-- The bytes of a span become unspecified (R121, R136); one draw. -/
def scrambleRegion (sp : Config.Span) (s : State) : State :=
  { s with mem := s.mem.scramble sp s.draws, draws := s.draws + 1 }

/-- The hash table becomes unspecified (R121, R134); one draw. -/
def scrambleTable (s : State) : State :=
  { s with ht := .unspecified s.draws, draws := s.draws + 1 }

/-- The host observes something (70_reset_and_hazards.md R147). -/
def observe (o : Observation) (s : State) : State :=
  { s with seen := o :: s.seen }

end Machine
end Sys2Proof
end

