-- ==== Sys2Proof/Machine/Operands.lean ====
section
/-! DEFINITION. Operand forms: the regions of each command (20_memory.md R30), the checks made at its start
(60_exceptions.md R119, R122, R123) and the byte views it reads (R59, R78, R97). -/

namespace Sys2Proof
namespace Machine

/-- `W = min(DICT_LEN, 65536)` (R30). -/
def OperandRegs.dictWindowLen (o : OperandRegs) : Nat := min o.dictLen.toNat Config.dictWindow

/-- `[SRC_ADDR + SRC_START, SRC_ADDR + SRC_START + SRC_LEN)` (R30). -/
def OperandRegs.srcSpan (o : OperandRegs) : Config.Span := ⟨o.srcAddr.toNat + o.srcStart.toNat, o.srcLen.toNat⟩

/-- `[SRC_ADDR, SRC_ADDR + SRC_START + SRC_LEN)`, the source with its history (R30). -/
def OperandRegs.srcHistorySpan (o : OperandRegs) : Config.Span :=
  ⟨o.srcAddr.toNat, o.srcStart.toNat + o.srcLen.toNat⟩

/-- `[SRC_ADDR + SRC_START, SRC_ADDR + SRC_START + 65536)`, a table snapshot to load (R30). -/
def OperandRegs.loadSpan (o : OperandRegs) : Config.Span :=
  ⟨o.srcAddr.toNat + o.srcStart.toNat, Config.snapshotSize⟩

/-- `[DST_ADDR + DST_OFF, DST_ADDR + DST_CAP)` (R30), empty when `DST_OFF > DST_CAP`. -/
def OperandRegs.dstSpan (o : OperandRegs) : Config.Span :=
  ⟨o.dstAddr.toNat + o.dstOff.toNat, o.dstCap.toNat - o.dstOff.toNat⟩

/-- `[DST_ADDR, DST_ADDR + DST_OFF)`, the output history (R30). -/
def OperandRegs.historySpan (o : OperandRegs) : Config.Span := ⟨o.dstAddr.toNat, o.dstOff.toNat⟩

/-- `[DST_ADDR + DST_OFF, DST_ADDR + DST_OFF + 65536)`, a table snapshot to save (R30). -/
def OperandRegs.saveSpan (o : OperandRegs) : Config.Span :=
  ⟨o.dstAddr.toNat + o.dstOff.toNat, Config.snapshotSize⟩

/-- `[DICT_ADDR, DICT_ADDR + DICT_LEN)` (R30). -/
def OperandRegs.dictSpan (o : OperandRegs) : Config.Span := ⟨o.dictAddr.toNat, o.dictLen.toNat⟩

/-- `[DICT_ADDR + DICT_LEN - W, DICT_ADDR + DICT_LEN)`, the last `W` dictionary bytes (R30). -/
def OperandRegs.dictWindowSpan (o : OperandRegs) : Config.Span :=
  ⟨o.dictAddr.toNat + o.dictLen.toNat - o.dictWindowLen, o.dictWindowLen⟩

/-- The read regions of a command (R30). -/
def readRegions (i : Instr) (o : OperandRegs) : List Config.Span :=
  match i with
  | .compressBlock => [o.srcHistorySpan]
  | .compressBlockExt => [o.srcSpan, o.dictWindowSpan]
  | .decompressBlock => [o.srcSpan, o.dictSpan, o.historySpan]
  | .htWarm => [o.dictWindowSpan]
  | .htLoad => [o.loadSpan]
  | .xxh32Oneshot => [o.srcSpan]
  | .xxh32Update => [o.srcSpan]
  | .htSave => []
  | .htClear => []
  | .htShift => []
  | .xxh32Reset => []
  | .xxh32Digest => []

/-- The write region of a command, if it has one (R30). -/
def writeRegion (i : Instr) (o : OperandRegs) : Option Config.Span :=
  match i with
  | .compressBlock => some o.dstSpan
  | .compressBlockExt => some o.dstSpan
  | .decompressBlock => some o.dstSpan
  | .htSave => some o.saveSpan
  | .htWarm => none
  | .htLoad => none
  | .xxh32Oneshot => none
  | .xxh32Update => none
  | .htClear => none
  | .htShift => none
  | .xxh32Reset => none
  | .xxh32Digest => none

/-- All regions of a command (R122). -/
def regions (i : Instr) (o : OperandRegs) : List Config.Span :=
  readRegions i o ++ (writeRegion i o).toList

/-- `SRC_ADDR + SRC_START + SRC_LEN > 2^32` (R119). -/
def OperandRegs.srcTooFar (o : OperandRegs) : Bool :=
  decide (Config.addrSpace < o.srcAddr.toNat + o.srcStart.toNat + o.srcLen.toNat)

/-- `DICT_ADDR + DICT_LEN > 2^32` (R119). -/
def OperandRegs.dictTooFar (o : OperandRegs) : Bool :=
  decide (Config.addrSpace < o.dictAddr.toNat + o.dictLen.toNat)

/-- `DST_OFF > DST_CAP` or `DST_ADDR + DST_CAP > 2^32` (R119). -/
def OperandRegs.dstInvalid (o : OperandRegs) : Bool :=
  decide (o.dstCap.toNat < o.dstOff.toNat) || decide (Config.addrSpace < o.dstAddr.toNat + o.dstCap.toNat)

/-- The table of operand checks (R119). -/
def tableCheckFails (i : Instr) (o : OperandRegs) : Bool :=
  match i with
  | .xxh32Oneshot => o.srcTooFar
  | .xxh32Update => o.srcTooFar
  | .htLoad => o.srcTooFar
  | .htWarm => o.dictTooFar
  | .htSave => o.dstInvalid
  | .compressBlock =>
    o.srcTooFar || o.dstInvalid || decide (Config.posLimit < o.srcStart.toNat + o.srcLen.toNat) ||
      o.dstSpan.overlaps o.srcHistorySpan
  | .compressBlockExt =>
    o.srcTooFar || o.dictTooFar || o.dstInvalid || decide (Config.posLimit < o.dictWindowLen + o.srcLen.toNat) ||
      o.dstSpan.overlaps o.srcSpan || o.dstSpan.overlaps o.dictWindowSpan
  | .decompressBlock =>
    o.srcTooFar || o.dictTooFar || o.dstInvalid || o.dstSpan.overlaps o.srcSpan || o.dstSpan.overlaps o.dictSpan
  | .htClear => false
  | .htShift => false
  | .xxh32Reset => false
  | .xxh32Digest => false

/-- Some region of the command ends above 2^32 (20_memory.md R30, last sentence). -/
def regionTooFar (i : Instr) (o : OperandRegs) : Bool :=
  (regions i o).any fun sp => decide (Config.addrSpace < sp.stop)

/-- `INVALID_OPERAND`: an operand check of R119 fails, or a region ends above 2^32 (R30). The second condition adds to the
first for `HT_SAVE` and `HT_LOAD` only, whose regions are 65536 bytes whatever buffer the host gave. That it counts among
the checks of R119, which R123 places before the size checks, is DEDUCED (log entry 23). -/
def operandInvalid (i : Instr) (o : OperandRegs) : Bool := tableCheckFails i o || regionTooFar i o

/-- The size checks of `HT_SAVE` (41_match_finder.md R73) and `HT_LOAD` (R74). -/
def sizeError (i : Instr) (o : OperandRegs) : Option ErrorCode :=
  match i with
  | .htSave => if o.dstCap.toNat - o.dstOff.toNat < Config.snapshotSize then some .outputBufferTooSmall else none
  | .htLoad => if o.srcLen.toNat < Config.snapshotSize then some .malformedInput else none
  | .xxh32Oneshot => none
  | .xxh32Reset => none
  | .xxh32Update => none
  | .xxh32Digest => none
  | .htClear => none
  | .htShift => none
  | .htWarm => none
  | .compressBlock => none
  | .compressBlockExt => none
  | .decompressBlock => none

/-- The error found at the start of a command, in the priority of R123 (`ILLEGAL_COMMAND` is the decoder's). -/
def startError (i : Instr) (s : State) : Option ErrorCode :=
  if operandInvalid i s.opr then some .invalidOperand
  else match sizeError i s.opr with
    | some e => some e
    | none => if (regions i s.opr).any s.plat.unbacked then some .busError else none

/-- A command whose operands and sizes pass and one of whose regions meets a device or the register window: a
protocol violation (R31, R141). Its place before `BUS_ERROR` is a DESIGN CHOICE (log entry 10). -/
def regionViolation (i : Instr) (s : State) : Bool :=
  !operandInvalid i s.opr && (sizeError i s.opr).isNone && (regions i s.opr).any s.plat.notOrdinary

/-- The start of every command: the checks of R123, then its body on the unchanged state. -/
def checked (i : Instr) (s : State) (body : State → Host.Outcome State Fault Refusal) :
    Host.Outcome State Fault Refusal :=
  if regionViolation i s then .fault .regionNotOrdinary
  else match startError i s with
    | some e => .next (raise e s)
    | none => body s

/-! ### Byte views -/

/-- The source bytes `Mem8(SRC_ADDR + SRC_START + i)`, `i < SRC_LEN` (R59, R97). -/
def srcBytes (s : State) : List Byte := s.mem.readBytes s.opr.srcSpan.base s.opr.srcSpan.len

/-- The last `W` bytes of the dictionary (R72, R78). -/
def dictWindowBytes (s : State) : List Byte := s.mem.readBytes s.opr.dictWindowSpan.base s.opr.dictWindowSpan.len

/-- The whole dictionary (R97). -/
def dictBytes (s : State) : List Byte := s.mem.readBytes s.opr.dictSpan.base s.opr.dictSpan.len

/-- The output history `O[0 .. DST_OFF)` (R97, R98). -/
def historyBytes (s : State) : List Byte := s.mem.readBytes s.opr.historySpan.base s.opr.historySpan.len

/-- The view of `COMPRESS_BLOCK` (R78): the source with its history; `base = SRC_START`. -/
def compressView (s : State) : List Byte := s.mem.readBytes s.opr.srcHistorySpan.base s.opr.srcHistorySpan.len

/-- The view of `COMPRESS_BLOCK_EXT` (R78): dictionary window, then source; `base = W`. -/
def compressExtView (s : State) : List Byte := dictWindowBytes s ++ srcBytes s

end Machine
end Sys2Proof
end

