-- ==== Sys2Proof/Machine/MatchFinder.lean ====
section
/-! DEFINITION. The match finder (41_match_finder.md): the sequence hash (R67) and the five table commands (R70 to R74). -/

namespace Sys2Proof
namespace Machine

/-- `hashU32(seq)` (R67): the top 14 bits of the 32-bit product, a table index. -/
def hashU32 (seq : Word) : Nat := ((seq * 0x9E3779B1) >>> 18).toNat

/-- The entry that stands for a position: `position + 1` (R68). -/
def entryOf (position : Nat) : Word := BitVec.ofNat 32 (position + 1)

/-- Inserts a position under the hash of its four bytes (R69, R79). -/
def HashTable.insert (t : HashTable) (seq : Word) (position : Nat) : HashTable :=
  t.write (hashU32 seq) (entryOf position)

/-- R71 on one entry: subtract without wrap, 0 where the difference is negative. -/
def shiftEntry (k v : Word) : Word :=
  let t : Int := v.toInt - k.toNat
  if t < 0 then 0#32 else BitVec.ofInt 32 t

/-- Inserts every position of a window that starts a 4-byte sequence, in ascending order, the first byte being
position `p` (R72). -/
def HashTable.warm : HashTable → List Byte → Nat → HashTable
  | t, b0 :: b1 :: b2 :: b3 :: rest, p => HashTable.warm (t.insert (le32 b0 b1 b2 b3) p) (b1 :: b2 :: b3 :: rest) (p + 1)
  | t, _, _ => t

/-- The snapshot of a table: 16384 little-endian words in index order (R73). -/
def HashTable.snapshot (t : HashTable) : List Byte :=
  (List.range Config.htSize).flatMap fun i => le32Bytes (t.read i)

/-- The little-endian word at `a`: `MemRead(a, 4)` (00_scope.md R10). -/
def Memory.readWord (m : Memory) (a : Nat) : Word :=
  le32 (m.read a) (m.read (a + 1)) (m.read (a + 2)) (m.read (a + 3))

/-- The table a snapshot at `a` holds (R74). -/
def HashTable.load (m : Memory) (a : Nat) : HashTable :=
  .ofEntries fun i => m.readWord (a + 4 * i)

/-- `HT_CLEAR` (R70). -/
def execHtClear (s : State) : Host.Outcome State Fault Refusal :=
  checked .htClear s fun s => .next (complete 0 { s with ht := .zero })

/-- `HT_SHIFT` (R71). -/
def execHtShift (s : State) : Host.Outcome State Fault Refusal :=
  checked .htShift s fun s => .next (complete 0 { s with ht := s.ht.map (shiftEntry s.opr.param) })

/-- `HT_WARM` (R72): RESULT is the number of positions inserted. -/
def execHtWarm (s : State) : Host.Outcome State Fault Refusal :=
  checked .htWarm s fun s =>
    .next (complete (BitVec.ofNat 32 (s.opr.dictWindowLen - 3)) { s with ht := s.ht.warm (dictWindowBytes s) 0 })

/-- `HT_SAVE` (R73). -/
def execHtSave (s : State) : Host.Outcome State Fault Refusal :=
  checked .htSave s fun s =>
    .next (complete 65536 { s with mem := s.mem.writeBytes s.opr.saveSpan.base s.ht.snapshot })

/-- `HT_LOAD` (R74). -/
def execHtLoad (s : State) : Host.Outcome State Fault Refusal :=
  checked .htLoad s fun s => .next (complete 65536 { s with ht := .load s.mem s.opr.loadSpan.base })

end Machine
end Sys2Proof
end

