-- ==== Sys2Proof/Machine/Compressor.lean ====
section
/-! DEFINITION. The block compressor (42_block_compressor.md): the core (R77 to R85) and its two commands (R86, R87). -/

namespace Sys2Proof
namespace Machine

/-- How many of the next bytes agree, at most `limit` (R82). -/
def agreeing : Nat → List Byte → List Byte → Nat
  | limit + 1, x :: xs, y :: ys => if x = y then agreeing limit xs ys + 1 else 0
  | _, _, _ => 0

/-- `cand = old - 1` (R79), read where the entry is at least 1. -/
def candidateOf (old : Word) : Nat := (old.toInt - 1).toNat

/-- Candidate acceptance (R80): the entry is not empty, the candidate lies before `s`, at most 65535 back, and its four
bytes are those at `s`. -/
def accepts (view : List Byte) (s : Nat) (seq old : Word) : Bool :=
  decide (1 ≤ old.toInt) && decide (old.toInt - 1 < s) && decide ((s : Int) - (old.toInt - 1) ≤ Config.maxOffset) &&
    rd32LE view (candidateOf old) == seq

/-- The length of the match of `s` against `cand` (R82): four bytes, extended forward below `matchLimit = end - 5`. -/
def matchLength (view : List Byte) (s cand : Nat) : Nat :=
  4 + agreeing (view.length - Config.lastLiterals - (s + 4)) (view.drop (s + 4)) (view.drop (cand + 4))

/-- `view[a .. b)` (00_scope.md R11). -/
def slice (view : List Byte) (a b : Nat) : List Byte := (view.drop a).take (b - a)

/-- The scan (R79 to R85) from position `s` with pending literals from `anchor`, the search counter and the table; `end`
is the view's length and `p` holds `MFLIMIT` and `SEARCH_INIT` (00_scope.md R6). Each iteration advances `s` by at least 1
(R94), so `end - base` iterations are enough fuel. DEDUCED (log entry 5): after a match the counter is `SEARCH_INIT` again, for
every value of it, where R81 and R85 write the default 64. -/
def scan (p : Config.SearchParams) (view : List Byte) : Nat → Nat → Nat → Nat → HashTable → Block × HashTable
  | 0, _, anchor, _, t => (⟨[], view.drop anchor⟩, t)
  | fuel + 1, s, anchor, counter, t =>
    if s + p.mflimit < view.length then
      let seq := rd32LE view s
      let old := t.read (hashU32 seq)
      let t' := t.insert seq s
      if accepts view s seq old then
        let len := matchLength view s (candidateOf old)
        let rest := scan p view fuel (s + len) (s + len) p.searchInit t'
        (⟨⟨slice view anchor s, s - candidateOf old, len⟩ :: rest.1.sequences, rest.1.final⟩, rest.2)
      else scan p view fuel (s + counter / 2 ^ Config.skipTrigger) anchor (counter + 1) t'
    else (⟨[], view.drop anchor⟩, t)

/-- `COMPRESS_CORE(V, base, end)` (R85) under the parameters `p`: the block and the table after it. -/
def compressCore (p : Config.SearchParams) (view : List Byte) (base : Nat) (t : HashTable) : Block × HashTable :=
  scan p view (view.length - base) base base p.searchInit t

/-- The end of a compress command (R86, R87, R88): the block and the table when the block fits the write region, else
`OUTPUT_BUFFER_TOO_SMALL` with write region and table unspecified (60_exceptions.md R121). -/
def finishCompress (r : Block × HashTable) (s : State) : Host.Outcome State Fault Refusal :=
  if s.opr.dstSpan.len < r.1.bytes.length then
    .next (raise .outputBufferTooSmall (scrambleTable (scrambleRegion s.opr.dstSpan s)))
  else
    .next (complete (BitVec.ofNat 32 r.1.bytes.length)
      { s with ht := r.2, mem := s.mem.writeBytes s.opr.dstSpan.base r.1.bytes })

/-- `COMPRESS_BLOCK` (R86). -/
def execCompressBlock (s : State) : Host.Outcome State Fault Refusal :=
  checked .compressBlock s fun s =>
    finishCompress (compressCore s.plat.search (compressView s) s.opr.srcStart.toNat s.ht) s

/-- `COMPRESS_BLOCK_EXT` (R87). It does not warm the table. -/
def execCompressBlockExt (s : State) : Host.Outcome State Fault Refusal :=
  checked .compressBlockExt s fun s =>
    finishCompress (compressCore s.plat.search (compressExtView s) s.opr.dictWindowLen s.ht) s

end Machine
end Sys2Proof
end

