-- ==== Sys2Proof/Machine/Decompressor.lean ====
section
/-! DEFINITION. The block decompressor (43_block_decompressor.md): the parse (R99 to R110) and its command (R101). -/

namespace Sys2Proof
namespace Machine

/-- Where the parse stands (R101): the input still to read, the bytes before the output cursor, nearest first (the
output buffer below `op`, then the dictionary from its end: R98), and `op`. A back-reference of offset `d` starts at
`past[d - 1]`. -/
structure Cursor where
  input : List Byte
  past  : List Byte
  op    : Nat
  deriving DecidableEq, Repr

/-- The match copy (R106): `m` times, the byte `d` positions before the cursor is appended, each read seeing every byte
written before it. -/
def copyMatch (d : Nat) : Nat → List Byte → List Byte
  | 0, past => past
  | m + 1, past => copyMatch d m (viewAt past (d - 1) :: past)

/-- The literals of a sequence (R99, R100): the token and the cursor after the literals, or the first failing check of
R109. -/
def readLiterals (oend : Nat) (c : Cursor) (t : Byte) (input : List Byte) : Except ErrorCode Cursor :=
  match readLength (tokenLiteral t) input with
  | none => .error .malformedInput
  | some (len, input) =>
    if oend < c.op + len then .error .outputBufferTooSmall
    else if input.length < len then .error .malformedInput
    else .ok ⟨input.drop len, (input.take len).reverse ++ c.past, c.op + len⟩

/-- The match of a sequence (R101, R103 to R107): offset, match length, checks in the order of R109, copy. -/
def readMatch (oend : Nat) (c : Cursor) (t : Byte) : Except ErrorCode Cursor :=
  match c.input with
  | b0 :: b1 :: input =>
    let d := offsetOf b0 b1
    if d = 0 then .error .invalidOffset
    else
      match readLength (tokenMatch t) input with
      | none => .error .malformedInput
      | some (len, input) =>
        if oend < c.op + (len + 4) then .error .outputBufferTooSmall
        else if c.past.length < d then .error .dictionaryOutOfBounds
        else .ok ⟨input, copyMatch d (len + 4) c.past, c.op + (len + 4)⟩
  | _ => .error .malformedInput

/-- The parse (R101): it ends when the input is exhausted, after literals or after a match (R102). Each sequence consumes
at least its token (R111), so the input's length is enough fuel. -/
def parse (oend : Nat) : Nat → Cursor → Except ErrorCode Cursor
  | 0, c => .ok c
  | fuel + 1, c =>
    match c.input with
    | [] => .ok c
    | t :: input =>
      match readLiterals oend c t input with
      | .error e => .error e
      | .ok c1 =>
        if c1.input = [] then .ok c1
        else match readMatch oend c1 t with
          | .error e => .error e
          | .ok c2 => parse oend fuel c2

/-- Decoding a block (R101): the bytes written from `op0` on, with the history and the dictionary before it. -/
def decodeBlock (block history dict : List Byte) (oend : Nat) : Except ErrorCode (List Byte) :=
  match parse oend block.length ⟨block, (dict ++ history).reverse, history.length⟩ with
  | .error e => .error e
  | .ok c => .ok (c.past.take (c.op - history.length)).reverse

/-- `DECOMPRESS_BLOCK` (R101). A parse error leaves the write region unspecified (R112, 60_exceptions.md R121). -/
def execDecompressBlock (s : State) : Host.Outcome State Fault Refusal :=
  checked .decompressBlock s fun s =>
    match decodeBlock (srcBytes s) (historyBytes s) (dictBytes s) s.opr.dstCap.toNat with
    | .error e => .next (raise e (scrambleRegion s.opr.dstSpan s))
    | .ok out =>
      .next (complete (BitVec.ofNat 32 out.length) { s with mem := s.mem.writeBytes s.opr.dstSpan.base out })

end Machine
end Sys2Proof
end

