-- ==== Sys2Proof/Machine/Xxhash.lean ====
section
/-! DEFINITION. The xxHash32 unit (40_xxhash32.md): the function (R50 to R58) and its four commands (R59 to R62). -/

namespace Sys2Proof
namespace Machine

/-- The constants of R51. -/
def prime1 : Word := 0x9E3779B1
def prime2 : Word := 0x85EBCA77
def prime3 : Word := 0xC2B2AE3D
def prime4 : Word := 0x27D4EB2F
def prime5 : Word := 0x165667B1

/-- `rotl32(x, r)` for `0 < r < 32` (00_scope.md R9). -/
def rotl32 (x : Word) (r : Nat) : Word := (x <<< r) ||| (x >>> (32 - r))

/-- The four stripe accumulators. -/
structure Accumulators where
  v1 : Word
  v2 : Word
  v3 : Word
  v4 : Word
  deriving DecidableEq, Repr

/-- The stripe round (R52). -/
def xxhRound (acc lane : Word) : Word := rotl32 (acc + lane * prime2) 13 * prime1

/-- Accumulator initialisation for a seed (R53). -/
def xxhInit (s : Word) : Accumulators := ⟨s + prime1 + prime2, s + prime2, s, s - prime1⟩

/-- One stripe: the first 16 bytes of `d` (R58). -/
def xxhStripe (a : Accumulators) (d : List Byte) : Accumulators :=
  ⟨xxhRound a.v1 (rd32LE d 0), xxhRound a.v2 (rd32LE d 4), xxhRound a.v3 (rd32LE d 8), xxhRound a.v4 (rd32LE d 12)⟩

/-- The first `n` stripes of `d`, in order (R58). -/
def xxhStripes : Nat → Accumulators → List Byte → Accumulators
  | 0, a, _ => a
  | n + 1, a, d => xxhStripes n (xxhStripe a d) (d.drop 16)

/-- The merge of the accumulators (R54). -/
def xxhMerge (a : Accumulators) : Word :=
  rotl32 a.v1 1 + rotl32 a.v2 7 + rotl32 a.v3 12 + rotl32 a.v4 18

/-- Tail processing (R56): groups of four bytes, then single bytes. -/
def xxhTail : Word → List Byte → Word
  | h, b0 :: b1 :: b2 :: b3 :: rest => xxhTail (rotl32 (h + le32 b0 b1 b2 b3 * prime3) 17 * prime4) rest
  | h, b :: rest => xxhTail (rotl32 (h + b.setWidth 32 * prime5) 11 * prime1) rest
  | h, [] => h

/-- The final avalanche (R57). -/
def xxhAvalanche (h0 : Word) : Word :=
  let h1 := (h0 ^^^ (h0 >>> 15)) * prime2
  let h2 := (h1 ^^^ (h1 >>> 13)) * prime3
  h2 ^^^ (h2 >>> 16)

/-- `XXH32(d, s)` (R58): the path choice uses the true length (R66). -/
def xxh32 (d : List Byte) (s : Word) : Word :=
  let stripes := d.length / 16
  let h := if 16 ≤ d.length then xxhMerge (xxhStripes stripes (xxhInit s) d) else s + prime5
  xxhAvalanche (xxhTail (h + BitVec.ofNat 32 d.length) (d.drop (16 * stripes)))

/-- The context `XXH32_RESET` gives for a seed (R60). -/
def XxhContext.init (s : Word) : XxhContext :=
  let a := xxhInit s
  ⟨s, a.v1, a.v2, a.v3, a.v4, 0, false, []⟩

/-- The accumulators of a context. -/
def XxhContext.accumulators (x : XxhContext) : Accumulators := ⟨x.v1, x.v2, x.v3, x.v4⟩

/-- The context after absorbing `d` (R61). -/
def XxhContext.update (x : XxhContext) (d : List Byte) : XxhContext :=
  let total := x.total + BitVec.ofNat 32 d.length
  let buf := x.mem ++ d
  let stripes := buf.length / 16
  let a := xxhStripes stripes x.accumulators buf
  { seed := x.seed, v1 := a.v1, v2 := a.v2, v3 := a.v3, v4 := a.v4, total := total
    large := x.large || decide (16 ≤ d.length) || decide (16 ≤ total.toNat)
    mem := buf.drop (16 * stripes) }

/-- The digest of a context (R62). -/
def XxhContext.digest (x : XxhContext) : Word :=
  let h := if x.large then xxhMerge x.accumulators else x.seed + prime5
  xxhAvalanche (xxhTail (h + x.total) x.mem)

/-- The context holds fewer than 16 pending bytes, as many as the total leaves over whole stripes; before the long path
it holds every byte and `v3` is still the seed (10_state.md R25, R62). -/
def XxhContext.wf (x : XxhContext) : Bool :=
  x.mem.length == x.total.toNat % 16 &&
    (x.large || (decide (x.total.toNat < 16) && x.accumulators == xxhInit x.seed))

/-- `XXH32_ONESHOT` (R59). -/
def execXxh32Oneshot (s : State) : Host.Outcome State Fault Refusal :=
  checked .xxh32Oneshot s fun s => .next (complete (xxh32 (srcBytes s) s.opr.param) s)

/-- `XXH32_RESET` (R60). -/
def execXxh32Reset (s : State) : Host.Outcome State Fault Refusal :=
  checked .xxh32Reset s fun s => .next (complete 0 { s with xs := .init s.opr.param })

/-- `XXH32_UPDATE` (R61). -/
def execXxh32Update (s : State) : Host.Outcome State Fault Refusal :=
  checked .xxh32Update s fun s => .next (complete 0 { s with xs := s.xs.update (srcBytes s) })

/-- `XXH32_DIGEST` (R62): the context is not changed. -/
def execXxh32Digest (s : State) : Host.Outcome State Fault Refusal :=
  checked .xxh32Digest s fun s => .next (complete s.xs.digest s)

end Machine
end Sys2Proof
end

