-- ==== Sys2Proof/Machine/Dispatch.lean ====
section
/-! DEFINITION. The meaning of each command (30_encoding.md R37), one arm per constructor. -/

namespace Sys2Proof
namespace Machine

/-- Runs one command to its completion (10_state.md R17). -/
def exec (i : Instr) (s : State) : Host.Outcome State Fault Refusal :=
  match i with
  | .xxh32Oneshot => Sys2Proof.Machine.execXxh32Oneshot s
  | .xxh32Reset => Sys2Proof.Machine.execXxh32Reset s
  | .xxh32Update => Sys2Proof.Machine.execXxh32Update s
  | .xxh32Digest => Sys2Proof.Machine.execXxh32Digest s
  | .htClear => Sys2Proof.Machine.execHtClear s
  | .htShift => Sys2Proof.Machine.execHtShift s
  | .htWarm => Sys2Proof.Machine.execHtWarm s
  | .htSave => Sys2Proof.Machine.execHtSave s
  | .htLoad => Sys2Proof.Machine.execHtLoad s
  | .compressBlock => Sys2Proof.Machine.execCompressBlock s
  | .compressBlockExt => Sys2Proof.Machine.execCompressBlockExt s
  | .decompressBlock => Sys2Proof.Machine.execDecompressBlock s

end Machine
end Sys2Proof
end

