-- ==== Sys2Proof/Machine/Flags.lean ====
section
/-! DEFINITION. The status word, its write-1-to-clear bits, the error numbers and the interrupt output. -/

namespace Sys2Proof
namespace Machine

/-- A Bool as one bit. -/
def bit (b : Bool) : BitVec 1 := if b then 1 else 0

/-- What `STATUS` reads as (10_state.md R18): BUSY, DONE, ERROR in bits 0, 1, 2; bits 31:3 zero. -/
def Status.word (st : Status) : Word := (0 : BitVec 29) ++ bit st.error ++ bit st.done ++ bit st.busy

/-- A host write to `STATUS` (R18): 1 in bit 1 clears DONE, 1 in bit 2 clears ERROR, nothing else changes. This is
also the acknowledgement of 60_exceptions.md R125. -/
def Status.writeOneToClear (st : Status) (v : Word) : Status :=
  { st with done := st.done && !v.getLsbD 1, error := st.error && !v.getLsbD 2 }

/-- `ERRCODE[7:0]` of each error (60_exceptions.md R116). -/
def ErrorCode.code : ErrorCode → Byte
  | .noError => 0x00
  | .outputBufferTooSmall => 0x01
  | .malformedInput => 0x02
  | .invalidOffset => 0x03
  | .dictionaryOutOfBounds => 0x04
  | .illegalCommand => 0x10
  | .invalidOperand => 0x11
  | .busError => 0x12

/-- The `irq` output (R124): `IRQ_EN.EN & STATUS.DONE`. -/
def irq (s : State) : Bool := s.irqEn && s.status.done

end Machine
end Sys2Proof
end

