-- ==== Sys2Proof/Machine/HostPort.lean ====
section
/-! DEFINITION. What the host can do: register accesses (10_state.md R15 to R23), memory accesses, reset
(70_reset_and_hazards.md R132 to R136), and the protocol violations of R141. -/

namespace Sys2Proof
namespace Machine

/-- The sixteen words of the register window (R15). -/
inductive Reg where
  | id
  | cmd
  | status
  | errcode
  | result
  | srcAddr
  | srcStart
  | srcLen
  | dstAddr
  | dstCap
  | dstOff
  | dictAddr
  | dictLen
  | param
  | irqEn
  | reserved
  deriving DecidableEq, Repr

/-- The map of R15. -/
def windowMap : List (Nat × Reg) :=
  [(0x00, .id), (0x04, .cmd), (0x08, .status), (0x0C, .errcode), (0x10, .result), (0x14, .srcAddr),
   (0x18, .srcStart), (0x1C, .srcLen), (0x20, .dstAddr), (0x24, .dstCap), (0x28, .dstOff), (0x2C, .dictAddr),
   (0x30, .dictLen), (0x34, .param), (0x38, .irqEn), (0x3C, .reserved)]

/-- The register an access reaches. At or beyond offset 0x40 the access is the platform's (R23, U11); inside the window
it must be an aligned word access (20_memory.md R29, R141). -/
def regAt (off width : Nat) : Host.Outcome Reg Fault Refusal :=
  if Config.windowSize ≤ off then .refused .outsideWindow
  else if wellFormedAccess off width then
    match windowMap.lookup off with
    | some r => .next r
    | none => .fault .badRegisterAccess
  else .fault .badRegisterAccess

/-- A register read (R16 to R23); it has no side effect (R140). -/
def readReg (r : Reg) (s : State) : Word :=
  match r with
  | .id => 0x00345A4C
  | .cmd => s.cmd
  | .status => s.status.word
  | .errcode => s.errcode.code.setWidth 32
  | .result => s.result
  | .srcAddr => s.opr.srcAddr
  | .srcStart => s.opr.srcStart
  | .srcLen => s.opr.srcLen
  | .dstAddr => s.opr.dstAddr
  | .dstCap => s.opr.dstCap
  | .dstOff => s.opr.dstOff
  | .dictAddr => s.opr.dictAddr
  | .dictLen => s.opr.dictLen
  | .param => s.opr.param
  | .irqEn => (bit s.irqEn).setWidth 32
  | .reserved => 0

/-- The start of a command by a write to `CMD` while idle (R17). An illegal word completes at once with
`ILLEGAL_COMMAND` (30_encoding.md R38, log entry 3). -/
def startCommand (w : Word) (s : State) : State :=
  match decode w with
  | .ok _ => latchCommand w s
  | .error _ => raise .illegalCommand (latchCommand w s)

/-- A write of an operand register: stored while idle (R21), a protocol violation while BUSY (R141). -/
def writeOperand (o : OperandRegs) (s : State) : Host.Outcome State Fault Refusal :=
  if s.status.busy then .fault .operandWriteWhileBusy else .next { s with opr := o }

/-- A register write (R16 to R23, R140): read-only registers and reserved fields ignore it. -/
def writeReg (r : Reg) (v : Word) (s : State) : Host.Outcome State Fault Refusal :=
  match r with
  | .id => .next s
  | .cmd => if s.status.busy then .fault .cmdWriteWhileBusy else .next (startCommand v s)
  | .status => .next { s with status := s.status.writeOneToClear v }
  | .errcode => .next s
  | .result => .next s
  | .srcAddr => writeOperand { s.opr with srcAddr := v } s
  | .srcStart => writeOperand { s.opr with srcStart := v } s
  | .srcLen => writeOperand { s.opr with srcLen := v } s
  | .dstAddr => writeOperand { s.opr with dstAddr := v } s
  | .dstCap => writeOperand { s.opr with dstCap := v } s
  | .dstOff => writeOperand { s.opr with dstOff := v } s
  | .dictAddr => writeOperand { s.opr with dictAddr := v } s
  | .dictLen => writeOperand { s.opr with dictLen := v } s
  | .param => writeOperand { s.opr with param := v } s
  | .irqEn => .next { s with irqEn := v.getLsbD 0 }
  | .reserved => .next s

/-- The command that is running, if any (R17). -/
def runningCommand (s : State) : Option Instr :=
  if s.status.busy then (decode s.cmd).toOption else none

/-- The regions of the running command (20_memory.md R30). -/
def runningRegions (s : State) : List Config.Span :=
  match runningCommand s with
  | some i => regions i s.opr
  | none => []

/-- The write region of the running command. -/
def runningWriteRegion (s : State) : Option Config.Span :=
  match runningCommand s with
  | some i => writeRegion i s.opr
  | none => none

/-- A host memory access the platform, not this spec, gives a meaning to (R36). -/
def platformAccess (p : Config.Platform) (sp : Config.Span) : Bool :=
  decide (Config.addrSpace < sp.stop) || p.unbacked sp || p.devices.any (·.overlaps sp)

/-- What a host read of a byte returns: unspecified in the write region of a running command (R141, U5), else the byte. A
byte of a running command's read region is answered too: R139 does not list that read and R141 does not forbid it (DEDUCED,
log entry 18). -/
def hostReadByte (s : State) (a : Nat) : Byte :=
  if (runningWriteRegion s).any (·.contains a) then Config.freeByte s.draws a else s.mem.read a

/-- A host read of `n` bytes from `a`. Only a read that returns a free value makes a draw. -/
def hostRead (a n : Nat) (s : State) : Host.Outcome State Fault Refusal :=
  if s.plat.window.overlaps ⟨a, n⟩ then .fault .badRegisterAccess
  else if platformAccess s.plat ⟨a, n⟩ then .refused .platformAddress
  else
    let s' := observe (.bytes a ((List.range n).map fun i => hostReadByte s (a + i))) s
    if (runningWriteRegion s).any (·.overlaps ⟨a, n⟩) then .next { s' with draws := s.draws + 1 } else .next s'

/-- A write of memory bytes by the host or another master: a protocol violation in a running command's regions (R141). -/
def hostWrite (a : Nat) (bytes : List Byte) (s : State) : Host.Outcome State Fault Refusal :=
  if s.plat.window.overlaps ⟨a, bytes.length⟩ then .fault .badRegisterAccess
  else if (runningRegions s).any (·.overlaps ⟨a, bytes.length⟩) then .fault .regionWriteWhileBusy
  else if platformAccess s.plat ⟨a, bytes.length⟩ then .refused .platformAddress
  else .next { s with mem := s.mem.writeBytes a bytes }

/-- Memory as reset leaves it (R136): unchanged, but for the write region of a running command, which is unspecified. -/
def memoryAfterReset (s : State) : Memory :=
  match runningWriteRegion s with
  | some sp => s.mem.scramble sp s.draws
  | none => s.mem

/-- Reset (R132, R136). The platform, the host's agenda and what it has seen are no state of the engine. -/
def assertReset (s : State) : State :=
  { State.reset with
    ht := .unspecified s.draws
    mem := memoryAfterReset s
    plat := s.plat
    agenda := s.agenda
    seen := s.seen
    draws := s.draws + 1 }

/-- One host action. -/
def hostAction (a : HostAction) (s : State) : Host.Outcome State Fault Refusal :=
  match a with
  | .regRead off width =>
    match regAt off width with
    | .next r => .next (observe (.reg off (readReg r s)) s)
    | .fault f => .fault f
    | .refused r => .refused r
  | .regWrite off width v =>
    match regAt off width with
    | .next r => writeReg r v s
    | .fault f => .fault f
    | .refused r => .refused r
  | .memRead addr n => hostRead addr n s
  | .memWrite addr bytes => hostWrite addr bytes s
  | .sampleIrq => .next (observe (.irq (irq s)) s)
  | .assertReset => .next (assertReset s)

end Machine
end Sys2Proof
end

