-- ==== Sys2Proof/Machine/Engine.lean ====
section
/-! DEFINITION. A turn of the engine: it completes the running command (10_state.md R17, 20_memory.md R33). -/

namespace Sys2Proof
namespace Machine

/-- Decodes `CMD` and runs the command to completion (R17, R33). A word that is no command completes with
`ILLEGAL_COMMAND` (60_exceptions.md R120). -/
def runCommand (s : State) : Host.Outcome State Fault Refusal :=
  match decode s.cmd with
  | .ok i => exec i s
  | .error _ => .next (raise .illegalCommand s)

/-- The engine's turn: with no command running it is idle (70_reset_and_hazards.md R137). -/
def engineTurn (s : State) : Host.Outcome State Fault Refusal :=
  if s.status.busy then runCommand s else .next s

/-- One turn: the first of the agenda, or the engine's when the host has none left (R145: a command always completes). -/
def takeTurn (s : State) : Host.Outcome State Fault Refusal :=
  match s.agenda with
  | [] => engineTurn s
  | .engine :: rest => engineTurn { s with agenda := rest }
  | .host a :: rest => hostAction a { s with agenda := rest }

/-- The state in which `w` has just been written to `CMD` and the engine moves next. -/
def withCommandWord (w : Word) (s : State) : State :=
  { latchCommand w s with agenda := .engine :: s.agenda }

end Machine
end Sys2Proof
end

