-- ==== Sys2Proof/Machine/Step.lean ====
section
/-! DEFINITION. One step of the machine, and how a command word comes to be the next thing that runs. -/

namespace Sys2Proof
namespace Machine

/-- One step: one turn of the host or the engine (70_reset_and_hazards.md R147). -/
def step (s : State) : Host.Outcome State Fault Refusal := takeTurn s

/-- `s` with the command word `w` just written to `CMD`, so that the very next step decodes and runs it. There is no
instruction fetch (10_state.md R13): this stands for the host's `CMD` write (log entry 15). -/
def State.withFetchWord (s : State) (_nbits w : Nat) : State := withCommandWord (BitVec.ofNat 32 w) s

end Machine
end Sys2Proof
end

