-- ==== Sys2Proof/Safety.lean ====
section
/-! DEFINITION. What counts as a safe run: the invariant of the state and the steps that do not stop. -/

namespace Sys2Proof
namespace Machine

/-- What every step keeps: memory and the hash table are in canonical form, the xxHash32 context is consistent
(10_state.md R24, R25), the draw of every unspecified byte or table lies in the past, and the compressor's parameters are
legal (00_scope.md R6). -/
def State.Inv (s : State) : Prop :=
  s.mem.wf = true ∧ s.ht.wf = true ∧ s.xs.wf = true ∧
    (∀ d, s.ht.fill = some d → d < s.draws) ∧ (∀ f ∈ s.mem.free, f.draw < s.draws) ∧ s.plat.search.Legal

/-- The outcome is a next state. -/
def Answers (o : Host.Outcome State Fault Refusal) : Prop := ∃ t, o = .next t

/-- `n` steps are taken without a fault or a refusal. -/
def SafeFor : Nat → State → Prop
  | 0, _ => True
  | n + 1, s => ∃ t, step s = .next t ∧ SafeFor n t

end Machine
end Sys2Proof
end

