-- ==== Sys2Proof/Certificates/Slice0/Obligations.lean ====
section
/-! DEFINITION. The statements about the LZ4 block codec engine, each a proposition over all states, words or bytes. -/

namespace Sys2Proof
namespace Machine

/-! ### Words the statements share -/

/-- The bytes `Mem8(a) .. Mem8(a + n - 1)` (00_scope.md R10, R11). -/
def bytesAt (m : Memory) (a n : Nat) : List Byte := (List.range n).map fun k => m.read (a + k)

/-- The operand and size checks of the command pass, and every byte of its regions is backed by ordinary memory
(60_exceptions.md R119, R122; 20_memory.md R31): the conditions, on operands and platform alone, under which it runs. -/
def StartPasses (i : Instr) (s : State) : Prop :=
  operandInvalid i s.opr = false ∧ sizeError i s.opr = none ∧
    ∀ sp ∈ regions i s.opr, ∀ a, sp.contains a = true → s.plat.memOk a = true ∧ s.plat.ordinary a = true

/-- The byte addresses `lo .. hi - 1` and `lo' .. hi' - 1` share an address (20_memory.md R30). -/
def ShareAddress (lo hi lo' hi' : Nat) : Prop := ∃ a, (lo ≤ a ∧ a < hi) ∧ (lo' ≤ a ∧ a < hi')

/-- When the operand checks of a command fail: the table of 60_exceptions.md R119, and 20_memory.md R30, last sentence, for
the 65536-byte regions of `HT_SAVE` and `HT_LOAD` (in every other row R119 already keeps each region's end at or below
2^32). -/
def RefusedOperands (i : Instr) (o : OperandRegs) : Prop :=
  let src := o.srcAddr.toNat + o.srcStart.toNat
  let srcEnd := src + o.srcLen.toNat
  let dict := o.dictAddr.toNat
  let dictEnd := dict + o.dictLen.toNat
  let dst := o.dstAddr.toNat + o.dstOff.toNat
  let dstEnd := o.dstAddr.toNat + o.dstCap.toNat
  let w := min o.dictLen.toNat 65536
  match i with
  | .xxh32Oneshot => srcEnd > 2 ^ 32
  | .xxh32Update => srcEnd > 2 ^ 32
  | .htLoad => srcEnd > 2 ^ 32 ∨ src + 65536 > 2 ^ 32
  | .htWarm => dictEnd > 2 ^ 32
  | .htSave => o.dstOff.toNat > o.dstCap.toNat ∨ dstEnd > 2 ^ 32 ∨ dst + 65536 > 2 ^ 32
  | .compressBlock =>
    srcEnd > 2 ^ 32 ∨ dstEnd > 2 ^ 32 ∨ o.dstOff.toNat > o.dstCap.toNat ∨
      o.srcStart.toNat + o.srcLen.toNat > 2 ^ 31 - 1 ∨ ShareAddress dst dstEnd o.srcAddr.toNat srcEnd
  | .compressBlockExt =>
    srcEnd > 2 ^ 32 ∨ dictEnd > 2 ^ 32 ∨ dstEnd > 2 ^ 32 ∨ o.dstOff.toNat > o.dstCap.toNat ∨
      w + o.srcLen.toNat > 2 ^ 31 - 1 ∨ ShareAddress dst dstEnd src srcEnd ∨
      ShareAddress dst dstEnd (dictEnd - w) dictEnd
  | .decompressBlock =>
    srcEnd > 2 ^ 32 ∨ dictEnd > 2 ^ 32 ∨ dstEnd > 2 ^ 32 ∨ o.dstOff.toNat > o.dstCap.toNat ∨
      ShareAddress dst dstEnd src srcEnd ∨ ShareAddress dst dstEnd dict dictEnd
  | .htClear => False
  | .htShift => False
  | .xxh32Reset => False
  | .xxh32Digest => False

/-- The error codes a command may report (60_exceptions.md R116). -/
def reportable : Instr → List ErrorCode
  | .xxh32Oneshot => [.noError, .invalidOperand, .busError]
  | .xxh32Update => [.noError, .invalidOperand, .busError]
  | .htWarm => [.noError, .invalidOperand, .busError]
  | .htSave => [.noError, .outputBufferTooSmall, .invalidOperand, .busError]
  | .htLoad => [.noError, .malformedInput, .invalidOperand, .busError]
  | .compressBlock => [.noError, .outputBufferTooSmall, .invalidOperand, .busError]
  | .compressBlockExt => [.noError, .outputBufferTooSmall, .invalidOperand, .busError]
  | .decompressBlock => [.noError, .outputBufferTooSmall, .malformedInput, .invalidOffset, .dictionaryOutOfBounds,
      .invalidOperand, .busError]
  | .htClear => [.noError]
  | .htShift => [.noError]
  | .xxh32Reset => [.noError]
  | .xxh32Digest => [.noError]

/-- The host writes `w` to `CMD` on the next step (10_state.md R15, R17). -/
def writesCmd (w : Word) (rest : List Turn) : List Turn := .host (.regWrite 0x04 4 w) :: rest

/-- The engine moves next: its turn is first, or the host has none left. -/
def EngineNext (agenda rest : List Turn) : Prop := agenda = .engine :: rest ∨ (agenda = [] ∧ rest = [])

/-- The operand registers with their offsets (10_state.md R15, R21). -/
def operandMap : List (Nat × Reg) :=
  [(0x14, .srcAddr), (0x18, .srcStart), (0x1C, .srcLen), (0x20, .dstAddr), (0x24, .dstCap), (0x28, .dstOff),
   (0x2C, .dictAddr), (0x30, .dictLen), (0x34, .param)]

/-- The number of an error code (60_exceptions.md R116). -/
def codeNumber : ErrorCode → Word
  | .noError => 0x00
  | .outputBufferTooSmall => 0x01
  | .malformedInput => 0x02
  | .invalidOffset => 0x03
  | .dictionaryOutOfBounds => 0x04
  | .illegalCommand => 0x10
  | .invalidOperand => 0x11
  | .busError => 0x12

/-- The register window: each offset, the register there, and what a read of it observes (10_state.md R15 to R23). -/
def windowShows (s : State) : List (Nat × Reg × Word) :=
  [(0x00, .id, 0x00345A4C), (0x04, .cmd, s.cmd),
   (0x08, .status, BitVec.ofNat 32 (s.status.busy.toNat + 2 * s.status.done.toNat + 4 * s.status.error.toNat)),
   (0x0C, .errcode, codeNumber s.errcode), (0x10, .result, s.result), (0x14, .srcAddr, s.opr.srcAddr),
   (0x18, .srcStart, s.opr.srcStart), (0x1C, .srcLen, s.opr.srcLen), (0x20, .dstAddr, s.opr.dstAddr),
   (0x24, .dstCap, s.opr.dstCap), (0x28, .dstOff, s.opr.dstOff), (0x2C, .dictAddr, s.opr.dictAddr),
   (0x30, .dictLen, s.opr.dictLen), (0x34, .param, s.opr.param), (0x38, .irqEn, BitVec.ofNat 32 s.irqEn.toNat),
   (0x3C, .reserved, 0)]

/-- The operand registers after a write of `v` at an offset of the window (10_state.md R15, R21). -/
def operandsAfterWrite (off : Nat) (v : Word) (o : OperandRegs) : OperandRegs :=
  match off with
  | 0x14 => { o with srcAddr := v }
  | 0x18 => { o with srcStart := v }
  | 0x1C => { o with srcLen := v }
  | 0x20 => { o with dstAddr := v }
  | 0x24 => { o with dstCap := v }
  | 0x28 => { o with dstOff := v }
  | 0x2C => { o with dictAddr := v }
  | 0x30 => { o with dictLen := v }
  | 0x34 => { o with param := v }
  | _ => o

/-! xxHash32, written out with the spec's decimal constants (40_xxhash32.md R51 to R58). -/

/-- The little-endian number of the four bytes at index `i` (R50; 42_block_compressor.md R79). -/
def laneAt (d : List Byte) (i : Nat) : Word :=
  BitVec.ofNat 32 ((viewAt d i).toNat + 256 * (viewAt d (i + 1)).toNat + 65536 * (viewAt d (i + 2)).toNat +
    16777216 * (viewAt d (i + 3)).toNat)

/-- R52. -/
def stripeRound (acc lane : Word) : Word := (acc + lane * 2246822519).rotateLeft 13 * 2654435761

/-- The accumulator that starts at `v` after every full stripe of `d`, its lane at byte `j` of each stripe (R58). -/
def accumulate (d : List Byte) (j : Nat) (v : Word) : Word :=
  (List.range (d.length / 16)).foldl (fun acc k => stripeRound acc (laneAt d (16 * k + j))) v

/-- R54. -/
def mergeOf (v1 v2 v3 v4 : Word) : Word :=
  v1.rotateLeft 1 + v2.rotateLeft 7 + v3.rotateLeft 12 + v4.rotateLeft 18

/-- R56: the groups of four bytes of the tail `d`, then its single bytes. -/
def tailOf (h : Word) (d : List Byte) : Word :=
  (List.range (d.length % 4)).foldl
    (fun h k => (h + (viewAt d (4 * (d.length / 4) + k)).setWidth 32 * 374761393).rotateLeft 11 * 2654435761)
    ((List.range (d.length / 4)).foldl (fun h k => (h + laneAt d (4 * k) * 3266489917).rotateLeft 17 * 668265263) h)

/-- R57. -/
def avalancheOf (h : Word) : Word :=
  let h := (h ^^^ (h >>> 15)) * 2246822519
  let h := (h ^^^ (h >>> 13)) * 3266489917
  h ^^^ (h >>> 16)

/-- `XXH32(d, s)` (R58). -/
def hashOf (d : List Byte) (s : Word) : Word :=
  let h := if 16 ≤ d.length then
      mergeOf (accumulate d 0 (s + 2654435761 + 2246822519)) (accumulate d 4 (s + 2246822519)) (accumulate d 8 s)
        (accumulate d 12 (s - 2654435761))
    else s + 374761393
  avalancheOf (tailOf (h + BitVec.ofNat 32 d.length) (d.drop (16 * (d.length / 16))))

/-- The context `x` becomes `y` through successful `XXH32_UPDATE` commands run in the states `us`, in order; between two
of them the host may change everything but the context. -/
def HashedInTurn : XxhContext → List State → XxhContext → Prop
  | x, [], y => x = y
  | x, u :: us, y =>
    u.xs = x ∧ ∃ t, exec .xxh32Update u = .next t ∧ t.errcode = .noError ∧ HashedInTurn t.xs us y

/-- The source bytes of a state's operand registers, address by address (40_xxhash32.md R59). -/
def sourceOf (s : State) : List Byte :=
  bytesAt s.mem (s.opr.srcAddr.toNat + s.opr.srcStart.toNat) s.opr.srcLen.toNat

/-- `W` (20_memory.md R30). -/
def windowLen (o : OperandRegs) : Nat := min o.dictLen.toNat 65536

/-- The last `W` bytes of the dictionary, address by address (42_block_compressor.md R78). -/
def windowOf (s : State) : List Byte :=
  bytesAt s.mem (s.opr.dictAddr.toNat + s.opr.dictLen.toNat - windowLen s.opr) (windowLen s.opr)

/-- The view of `COMPRESS_BLOCK`, address by address (R78). -/
def historyAndSourceOf (s : State) : List Byte :=
  bytesAt s.mem s.opr.srcAddr.toNat (s.opr.srcStart.toNat + s.opr.srcLen.toNat)

/-- The block and the table `COMPRESS_BLOCK` makes (R86). -/
def blockOf (s : State) : Block × HashTable :=
  compressCore s.plat.search (historyAndSourceOf s) s.opr.srcStart.toNat s.ht

/-- The block and the table `COMPRESS_BLOCK_EXT` makes (R87). -/
def extBlockOf (s : State) : Block × HashTable :=
  compressCore s.plat.search (windowOf s ++ sourceOf s) (windowLen s.opr) s.ht

/-- The first address of the write region (20_memory.md R30). -/
def dstStart (o : OperandRegs) : Nat := o.dstAddr.toNat + o.dstOff.toNat

/-- The capacity of the write region: `DST_CAP - DST_OFF`. -/
def dstRoom (o : OperandRegs) : Nat := o.dstCap.toNat - o.dstOff.toNat

/-- `t` is `s` after a successful command that stored `out` from address `a` on, reported `r` and left the table `ht`:
nothing else has changed (60_exceptions.md R117, 20_memory.md R32). -/
def Stored (s t : State) (r : Word) (a : Nat) (out : List Byte) (ht : HashTable) : Prop :=
  t = { s with result := r, errcode := .noError, status := ⟨false, true, false⟩, ht := ht, mem := t.mem } ∧
    (∀ k, k < out.length → t.mem.read (a + k) = viewAt out k) ∧
    ∀ b, ¬(a ≤ b ∧ b < a + out.length) → t.mem.read b = s.mem.read b

/-- Where the matches of a block stand: from view position `p` on, each match has an offset 1 .. 65535 that stays inside
the view, a length of at least 4, a start more than `mflimit` before `stop` and an end at least 5 before it. -/
def MatchesWithin (mflimit stop : Nat) : Nat → List Sequence → Prop
  | _, [] => True
  | p, q :: rest =>
    let start := p + q.literals.length
    1 ≤ q.offset ∧ q.offset ≤ 65535 ∧ q.offset ≤ start ∧ 4 ≤ q.matchLen ∧ start + mflimit < stop ∧
      start + q.matchLen + 5 ≤ stop ∧ MatchesWithin mflimit stop (start + q.matchLen) rest

/-- The view position after a list of sequences that starts at `p`. -/
def positionAfter (p : Nat) (qs : List Sequence) : Nat :=
  qs.foldl (fun p q => p + q.literals.length + q.matchLen) p

/-- The block fits the write region: its length is at most the room, or the room is the one that always suffices
(42_block_compressor.md R88). -/
def Fits (s : State) (b : Block) : Prop :=
  b.bytes.length ≤ dstRoom s.opr ∨
    (s.plat.search.Legal ∧ s.opr.srcLen.toNat + s.opr.srcLen.toNat / 255 + 2 ≤ dstRoom s.opr)

/-! The scan of the compressor, as the derivations the rules allow (42_block_compressor.md R79 to R82). -/

/-- `hashU32` of the four bytes at position `s`. -/
def hashAt (view : List Byte) (s : Nat) : Nat := hashU32 (laneAt view s)

/-- R79: `t'` is `t` with `s + 1` in the entry of the sequence at `s`. -/
def InsertsAt (view : List Byte) (s : Nat) (t t' : HashTable) : Prop :=
  ∀ k, t'.read k = if k = hashAt view s then BitVec.ofNat 32 (s + 1) else t.read k

/-- R80: the entry `old` gives `cand` as an accepted candidate for position `s`. -/
def AcceptedAt (view : List Byte) (s : Nat) (old : Word) (cand : Nat) : Prop :=
  old.toInt = cand + 1 ∧ cand < s ∧ s - cand ≤ 65535 ∧ ∀ j, j < 4 → viewAt view (cand + j) = viewAt view (s + j)

/-- R82: `m` is the length of the match of `s` against `cand`: at least 4, extended while the bytes agree, up to 5 bytes
before the end. -/
def LongestMatch (view : List Byte) (s cand m : Nat) : Prop :=
  4 ≤ m ∧ (∀ j, j < m → viewAt view (cand + j) = viewAt view (s + j)) ∧
    (4 < m → s + m + 5 ≤ view.length) ∧ (s + m + 5 < view.length → viewAt view (cand + m) ≠ viewAt view (s + m))

/-- `Scanned p view s anchor counter t ps qs a u`: the scan from `s` looks up the positions `ps` in order, emits the
sequences `qs`, leaves the literals from `a` on pending, and turns the table `t` into `u`. -/
inductive Scanned (p : Config.SearchParams) (view : List Byte) :
    Nat → Nat → Nat → HashTable → List Nat → List Sequence → Nat → HashTable → Prop
  /-- R77, R84: the scan ends at `end - MFLIMIT`. -/
  | ends {s anchor counter : Nat} {t : HashTable} (h : view.length ≤ s + p.mflimit) :
    Scanned p view s anchor counter t [] [] anchor t
  /-- R81: on a miss the position advances by `counter >> 6` and the counter by 1. -/
  | misses {s anchor counter a : Nat} {t t' u : HashTable} {ps : List Nat} {qs : List Sequence}
    (h : s + p.mflimit < view.length) (insertion : InsertsAt view s t t')
    (rejected : ∀ cand, ¬ AcceptedAt view s (t.read (hashAt view s)) cand)
    (rest : Scanned p view (s + counter / 64) anchor (counter + 1) t' ps qs a u) :
    Scanned p view s anchor counter t (s :: ps) qs a u
  /-- R82, R83: on a match the sequence is emitted, the scan goes on after it and the counter starts anew, at `SEARCH_INIT`
  (log entry 5: R81 writes its default, 64). -/
  | hits {s anchor counter a cand m : Nat} {t t' u : HashTable} {ps : List Nat} {qs : List Sequence}
    (h : s + p.mflimit < view.length) (insertion : InsertsAt view s t t')
    (accepted : AcceptedAt view s (t.read (hashAt view s)) cand) (longest : LongestMatch view s cand m)
    (rest : Scanned p view (s + m) (s + m) p.searchInit t' ps qs a u) :
    Scanned p view s anchor counter t (s :: ps) (⟨(view.drop anchor).take (s - anchor), s - cand, m⟩ :: qs) a u

/-! The parse of the decompressor over the input `I`, the dictionary `D` and the output buffer `O`, in the spec's indices, one
constructor per check in the order of 43_block_decompressor.md R109. -/

/-- 30_encoding.md R43: the length of field `f` whose extension starts at index `ip`, and the index after it; `none` when
the chain reaches the end of the input. -/
inductive LengthReads (I : List Byte) : Nat → Nat → Option (Nat × Nat) → Prop
  | field {f ip : Nat} (h : f < 15) : LengthReads I f ip (some (f, ip))
  | extended {ip k : Nat} (chain : ∀ j, j < k → viewAt I (ip + j) = 255) (h : ip + k < I.length)
    (last : viewAt I (ip + k) ≠ 255) :
    LengthReads I 15 ip (some (15 + 255 * k + (viewAt I (ip + k)).toNat, ip + k + 1))
  | runsOff {ip : Nat} (h : ∀ j, ip ≤ j → j < I.length → viewAt I j = 255) : LengthReads I 15 ip none

/-- R98: the byte `d` before output index `q`: of the output buffer, or of the dictionary where `q - d` is negative. -/
def backByte (D O : List Byte) (q d : Nat) : Byte :=
  if d ≤ q then viewAt O (q - d) else viewAt D (D.length - (d - q))

/-- R44: the offset whose first byte is at index `k`. -/
def offsetAt (I : List Byte) (k : Nat) : Nat := (viewAt I k).toNat + 256 * (viewAt I (k + 1)).toNat

/-- R99: the token at `ip` has literal length `n`, and its literals start at index `q`. -/
def LiteralsFrom (I : List Byte) (ip n q : Nat) : Prop :=
  ip < I.length ∧ LengthReads I ((viewAt I ip).toNat / 16) (ip + 1) (some (n, q))

/-- R100, R101: the literals pass their checks, and the offset after them is there and is not 0. -/
def OffsetFrom (I : List Byte) (oend ip op n q : Nat) : Prop :=
  LiteralsFrom I ip n q ∧ op + n ≤ oend ∧ q + n + 2 ≤ I.length ∧ offsetAt I (q + n) ≠ 0

/-- R101: the match length field of that token is `m` (before 4 is added) and the next sequence starts at `r`. -/
def MatchFrom (I : List Byte) (oend ip op n q m r : Nat) : Prop :=
  OffsetFrom I oend ip op n q ∧ LengthReads I ((viewAt I ip).toNat % 16) (q + n + 2) (some (m, r))

/-- `ParsesTo I D oend ip O r`: from input index `ip`, with the output buffer `O` filled so far, the parse ends in `r`: the
output buffer, or the error of the first failing check. -/
inductive ParsesTo (I D : List Byte) (oend : Nat) : Nat → List Byte → Except ErrorCode (List Byte) → Prop
  /-- R102: the input is exhausted. -/
  | ends {ip : Nat} {O : List Byte} (h : ip = I.length) : ParsesTo I D oend ip O (.ok O)
  /-- R99, R103. -/
  | literalLengthRunsOff {ip : Nat} {O : List Byte} (h : ip < I.length)
    (len : LengthReads I ((viewAt I ip).toNat / 16) (ip + 1) none) : ParsesTo I D oend ip O (.error .malformedInput)
  /-- R100, R105. -/
  | literalsTooLong {ip n q : Nat} {O : List Byte} (lits : LiteralsFrom I ip n q) (h : oend < O.length + n) :
    ParsesTo I D oend ip O (.error .outputBufferTooSmall)
  /-- R100, R103. -/
  | literalsRunOff {ip n q : Nat} {O : List Byte} (lits : LiteralsFrom I ip n q) (room : O.length + n ≤ oend)
    (h : I.length < q + n) : ParsesTo I D oend ip O (.error .malformedInput)
  /-- R102: the last sequence. -/
  | lastLiterals {ip n q : Nat} {O : List Byte} (lits : LiteralsFrom I ip n q) (room : O.length + n ≤ oend)
    (h : q + n = I.length) : ParsesTo I D oend ip O (.ok (O ++ I.drop q))
  /-- R103: one byte is left for the offset. -/
  | offsetRunsOff {ip n q : Nat} {O : List Byte} (lits : LiteralsFrom I ip n q) (room : O.length + n ≤ oend)
    (h : q + n + 1 = I.length) : ParsesTo I D oend ip O (.error .malformedInput)
  /-- R104. -/
  | zeroOffset {ip n q : Nat} {O : List Byte} (lits : LiteralsFrom I ip n q) (room : O.length + n ≤ oend)
    (h : q + n + 2 ≤ I.length) (zero : offsetAt I (q + n) = 0) : ParsesTo I D oend ip O (.error .invalidOffset)
  /-- R101, R103. -/
  | matchLengthRunsOff {ip n q : Nat} {O : List Byte} (off : OffsetFrom I oend ip O.length n q)
    (len : LengthReads I ((viewAt I ip).toNat % 16) (q + n + 2) none) :
    ParsesTo I D oend ip O (.error .malformedInput)
  /-- R101, R105. -/
  | matchTooLong {ip n q m r : Nat} {O : List Byte} (mat : MatchFrom I oend ip O.length n q m r)
    (h : oend < O.length + n + (m + 4)) : ParsesTo I D oend ip O (.error .outputBufferTooSmall)
  /-- R107. -/
  | outOfBounds {ip n q m r : Nat} {O : List Byte} (mat : MatchFrom I oend ip O.length n q m r)
    (room : O.length + n + (m + 4) ≤ oend) (h : D.length + (O.length + n) < offsetAt I (q + n)) :
    ParsesTo I D oend ip O (.error .dictionaryOutOfBounds)
  /-- R100, R106: literals and match are appended, and the parse goes on. -/
  | sequence {ip n q m r : Nat} {O M : List Byte} {res : Except ErrorCode (List Byte)}
    (mat : MatchFrom I oend ip O.length n q m r) (room : O.length + n + (m + 4) ≤ oend)
    (back : offsetAt I (q + n) ≤ D.length + (O.length + n)) (len : M.length = m + 4)
    (copied : ∀ k, k < m + 4 →
      viewAt M k = backByte D (O ++ (I.drop q).take n ++ M) (O.length + n + k) (offsetAt I (q + n)))
    (rest : ParsesTo I D oend r (O ++ (I.drop q).take n ++ M) res) : ParsesTo I D oend ip O res

/-- The `n` bytes from address `a` on are 32-bit addresses of ordinary memory that is backed (20_memory.md R27, R31). -/
def OrdinaryBytes (s : State) (a n : Nat) : Prop :=
  a + n ≤ 2 ^ 32 ∧ ∀ b, a ≤ b → b < a + n → s.plat.memOk b = true ∧ s.plat.ordinary b = true

/-- Address `b` lies in the write region of the running command (70_reset_and_hazards.md R141, U5). -/
def InRunningWriteRegion (s : State) (b : Nat) : Prop :=
  s.status.busy = true ∧ ∃ i sp, decode s.cmd = .ok i ∧ writeRegion i s.opr = some sp ∧ sp.contains b = true

/-- A turn that only looks: the engine's, or an aligned read of a window register. -/
def OnlyReads (turn : Turn) : Prop :=
  turn = .engine ∨ ∃ off r, turn = .host (.regRead off 4) ∧ (off, r) ∈ windowMap

end Machine
end Sys2Proof

open Sys2Proof Sys2Proof.Machine

/-! ### Encoding and starting a command -/

/-- 30_encoding.md R37: the words of the table, written out; and a word selects a command exactly when its OPCODE is the
command's and its RSVD field is 0. -/
def Obligations.CommandWordsOfTheTable : Prop :=
  (decode 0x00000030 = .ok .xxh32Oneshot ∧ decode 0x00000031 = .ok .xxh32Reset ∧
    decode 0x00000032 = .ok .xxh32Update ∧ decode 0x00000033 = .ok .xxh32Digest ∧
    decode 0x00000001 = .ok .htClear ∧ decode 0x00000002 = .ok .htShift ∧ decode 0x00000003 = .ok .htWarm ∧
    decode 0x00000004 = .ok .htSave ∧ decode 0x00000005 = .ok .htLoad ∧
    decode 0x00000010 = .ok .compressBlock ∧ decode 0x00000011 = .ok .compressBlockExt ∧
    decode 0x00000020 = .ok .decompressBlock) ∧
  ∀ (w : Word) (i : Instr), decode w = .ok i ↔ opcodeField w = opcodeField (encode i) ∧ rsvdField w = 0

/-- Decode and encode agree on every command, and every word that decodes is the word its command encodes to. -/
def Obligations.DecodeInvertsEncode : Prop :=
  (∀ i : Instr, decode (encode i) = .ok i) ∧ ∀ (w : Word) (i : Instr), decode w = .ok i → encode i = w

/-- 30_encoding.md R38, 60_exceptions.md R120: starting an illegal word completes it at once with `ILLEGAL_COMMAND` and
changes nothing but `CMD`, `STATUS`, `ERRCODE` and `RESULT`. That this is the very step of the `CMD` write, BUSY never being
seen, is the model's reading of "at once" (log entry 3). -/
def Obligations.IllegalWordCompletesAtOnce : Prop :=
  ∀ (s : State) (w : Word) (rest : List Turn), s.agenda = writesCmd w rest → s.status.busy = false →
    (rsvdField w ≠ 0 ∨
      opcodeField w ∉ ([0x30, 0x31, 0x32, 0x33, 0x01, 0x02, 0x03, 0x04, 0x05, 0x10, 0x11, 0x20] : List Byte)) →
    step s = .next { s with
      agenda := rest, cmd := w, status := ⟨false, true, true⟩, errcode := .illegalCommand, result := 0 }

/-- 10_state.md R17: a `CMD` write while idle latches the word, sets BUSY, clears DONE, ERROR and ERRCODE and keeps the
rest; `CMD` then reads as written; the engine's turn executes the command; while BUSY the write is a violation. -/
def Obligations.CmdWriteStartsCommand : Prop :=
  ∀ (s : State) (w : Word) (i : Instr) (rest : List Turn), s.agenda = writesCmd w rest → decode w = .ok i →
    (s.status.busy = false → ∃ t, step s = .next t ∧
      t = { s with agenda := rest, cmd := w, status := ⟨true, false, false⟩, errcode := .noError } ∧
      readReg .cmd t = w ∧
      ∀ rest', EngineNext rest rest' → step t = exec i { t with agenda := rest' }) ∧
    (s.status.busy = true → step s = .fault .cmdWriteWhileBusy)

/-- A step runs the decoded command: while BUSY, the engine's turn is `exec` of the command in `CMD`, on the state whose
agenda has lost that turn. 70_reset_and_hazards.md R137: with no command running its turn changes nothing. -/
def Obligations.StepRunsDecodedCommand : Prop :=
  ∀ (s : State) (rest : List Turn), EngineNext s.agenda rest →
    (∀ i : Instr, s.status.busy = true → decode s.cmd = .ok i → step s = exec i { s with agenda := rest }) ∧
    (s.status.busy = false → step s = .next { s with agenda := rest })

/-! ### Registers -/

/-- 10_state.md R15 to R23, 70_reset_and_hazards.md R140: the sixteen registers of the window, their offsets and what a read
of each observes; an aligned read has no side effect, the host sees that value. That reads of `CMD` and of the word at 0x3C
are answered also while BUSY, which R139 does not list, is the model's choice (log entry 18). -/
def Obligations.RegisterReadHasNoSideEffect : Prop :=
  ∀ s : State, windowMap = (windowShows s).map (fun e => (e.1, e.2.1)) ∧
    ∀ (off : Nat) (r : Reg) (v : Word), (off, r, v) ∈ windowShows s → readReg r s = v ∧
      ∀ rest : List Turn, s.agenda = .host (.regRead off 4) :: rest →
        step s = .next { s with agenda := rest, seen := .reg off v :: s.seen }

/-- 10_state.md R16, R19, R20, R23, 70_reset_and_hazards.md R140: `ID` reads 0x00345A4C and the word at 0x3C reads 0, and
writes to `ID`, `ERRCODE`, `RESULT` and the word at 0x3C are ignored. That such a write is
allowed while BUSY is the model's choice (log entry 18). -/
def Obligations.ReadOnlyRegistersIgnoreWrites : Prop :=
  ∀ s : State, readReg .id s = 0x00345A4C ∧ readReg .reserved s = 0 ∧
    ∀ (off : Nat) (v : Word) (rest : List Turn), off ∈ [0x00, 0x0C, 0x10, 0x3C] →
      s.agenda = .host (.regWrite off 4 v) :: rest → step s = .next { s with agenda := rest }

/-- 10_state.md R21: an operand register written while idle stores every value, in the register of its offset, and reads it
back, and no other register or state changes; no command ever writes an operand register. -/
def Obligations.OperandRegistersStoreEveryValue : Prop :=
  (∀ (s : State) (off : Nat) (r : Reg) (v : Word) (rest : List Turn), (off, r) ∈ operandMap →
    s.status.busy = false → s.agenda = .host (.regWrite off 4 v) :: rest →
    ∃ t, step s = .next t ∧ readReg r t = v ∧ (∀ r', r' ≠ r → readReg r' t = readReg r' s) ∧
      t = { s with agenda := rest, opr := operandsAfterWrite off v s.opr }) ∧
  ∀ (i : Instr) (s t : State), exec i s = .next t → t.opr = s.opr

/-- 10_state.md R18: a write to `STATUS` clears DONE where bit 1 is 1 and ERROR where bit 2 is 1 and changes nothing else,
also while BUSY; bits 31:3 read as zero. -/
def Obligations.StatusWriteClearsOnlyOnes : Prop :=
  ∀ (s : State) (v : Word) (rest : List Turn), s.agenda = .host (.regWrite 0x08 4 v) :: rest →
    ∃ t, step s = .next t ∧ t = { s with agenda := rest, status := t.status } ∧
      (readReg .status t).getLsbD 0 = (readReg .status s).getLsbD 0 ∧
      (readReg .status t).getLsbD 1 = ((readReg .status s).getLsbD 1 && !v.getLsbD 1) ∧
      (readReg .status t).getLsbD 2 = ((readReg .status s).getLsbD 2 && !v.getLsbD 2) ∧
      ∀ k, 3 ≤ k → (readReg .status t).getLsbD k = false

/-- 10_state.md R18: BUSY is set only by a `CMD` write that starts a command, and cleared only by the completion of the
running command, which sets DONE, or by reset. That a word that does not decode never sets BUSY is the model's choice
(log entry 3). -/
def Obligations.BusyChangesOnlyAtStartCompletionReset : Prop :=
  ∀ s t : State, step s = .next t →
    (s.status.busy = false → t.status.busy = true →
      ∃ w rest i, s.agenda = writesCmd w rest ∧ decode w = .ok i ∧ t.cmd = w) ∧
    (s.status.busy = true → t.status.busy = false →
      ((∃ rest, EngineNext s.agenda rest) ∧ t.status.done = true) ∨
      ∃ rest, s.agenda = .host .assertReset :: rest)

/-- 10_state.md R18: on every step but a host write to `STATUS`, ERROR = 1 goes on implying DONE = 1. -/
def Obligations.ErrorImpliesDone : Prop :=
  ∀ s t : State, (s.status.error = true → s.status.done = true) → step s = .next t →
    (∀ v rest, s.agenda ≠ .host (.regWrite 0x08 4 v) :: rest) → t.status.error = true → t.status.done = true

/-- 10_state.md R22: `irq` is at every moment `IRQ_EN[0] & STATUS[1]`; a write to `IRQ_EN` keeps bit 0 and changes nothing
else; bits 31:1 read 0. 60_exceptions.md R124, 70_reset_and_hazards.md R147: a look at `irq` observes its level and changes
nothing else. That the write is allowed while BUSY is the model's choice (log entry 18). -/
def Obligations.IrqIsEnableAndDone : Prop :=
  (∀ s : State, irq s = ((readReg .irqEn s).getLsbD 0 && (readReg .status s).getLsbD 1)) ∧
  (∀ (s : State) (v : Word) (rest : List Turn), s.agenda = .host (.regWrite 0x38 4 v) :: rest →
    ∃ t, step s = .next t ∧ readReg .irqEn t = v &&& 1 ∧ t = { s with agenda := rest, irqEn := t.irqEn }) ∧
  ∀ (s : State) (rest : List Turn), s.agenda = .host .sampleIrq :: rest →
    step s = .next { s with agenda := rest, seen := .irq (irq s) :: s.seen }

/-- 60_exceptions.md R124: `irq` is `IRQ_EN[0] & STATUS[1]`; it is asserted at every completion while enabled, and
deasserted by clearing DONE, by the start of a command and by clearing EN. That an illegal word completes in the step
of its write (third clause) is the model's choice (log entry 3). -/
def Obligations.IrqFollowsCompletion : Prop :=
  (∀ s : State, irq s = ((readReg .irqEn s).getLsbD 0 && (readReg .status s).getLsbD 1)) ∧
  (∀ (i : Instr) (s t : State), exec i s = .next t → irq t = s.irqEn) ∧
  (∀ (s t : State) (w : Word) (rest : List Turn), s.agenda = writesCmd w rest → step s = .next t →
    irq t = (s.irqEn && !wellFormedCommand w)) ∧
  (∀ (s t : State) (v : Word) (rest : List Turn), s.agenda = .host (.regWrite 0x08 4 v) :: rest →
    v.getLsbD 1 = true → step s = .next t → irq t = false) ∧
  ∀ (s t : State) (v : Word) (rest : List Turn), s.agenda = .host (.regWrite 0x38 4 v) :: rest →
    v.getLsbD 0 = false → step s = .next t → irq t = false

/-- 70_reset_and_hazards.md R141: the host's protocol violations fault; a host read of a running command's write region is
none. A host read of bytes of ordinary backed memory answers: the bytes of a running command's write region are free values
(U5), the others those of memory, and nothing changes but what the host has seen and the draw counter. The model's choices:
a read of a running command's read region is answered with its bytes, which R139 does not list (log entry 18); the running
command's regions are nominal, also for a command its start checks would refuse (log entry 20); accesses to addresses that
are the platform's are refused (log entry 11). A region that is no ordinary memory: `OnlyNonOrdinaryRegionsStop`. -/
def Obligations.ProtocolViolationsFault : Prop :=
  (∀ (s : State) (off : Nat) (v : Word) (rest : List Turn), s.status.busy = true →
    s.agenda = .host (.regWrite off 4 v) :: rest →
    (off = 0x04 → step s = .fault .cmdWriteWhileBusy) ∧
    (∀ r, (off, r) ∈ operandMap → step s = .fault .operandWriteWhileBusy)) ∧
  (∀ (s : State) (off width : Nat) (v : Word) (rest : List Turn), off < 0x40 → (width ≠ 4 ∨ off % 4 ≠ 0) →
    (s.agenda = .host (.regRead off width) :: rest ∨ s.agenda = .host (.regWrite off width v) :: rest) →
    step s = .fault .badRegisterAccess) ∧
  (∀ (s : State) (i : Instr) (a b : Nat) (bytes : List Byte) (rest : List Turn) (sp : Config.Span),
    s.status.busy = true → decode s.cmd = .ok i → sp ∈ regions i s.opr → sp.contains b = true → a ≤ b →
    b < a + bytes.length → s.agenda = .host (.memWrite a bytes) :: rest → ∃ f, step s = .fault f) ∧
  (∀ (s t : State) (a n : Nat) (rest : List Turn), s.agenda = .host (.memRead a n) :: rest → step s = .next t →
    t = { s with agenda := rest, seen := t.seen, draws := t.draws }) ∧
  ∀ (s : State) (a n : Nat) (rest : List Turn), s.agenda = .host (.memRead a n) :: rest → OrdinaryBytes s a n →
    ∃ t bs, step s = .next t ∧ t = { s with agenda := rest, seen := .bytes a bs :: s.seen, draws := t.draws } ∧
      bs.length = n ∧ ∀ k, k < n →
        (InRunningWriteRegion s (a + k) → viewAt bs k = Config.freeByte s.draws (a + k)) ∧
        (¬ InRunningWriteRegion s (a + k) → viewAt bs k = s.mem.read (a + k))

/-- 20_memory.md R27, R33, 70_reset_and_hazards.md R139: a host write of bytes of ordinary backed memory, outside the regions
of a running command, stores its bytes and changes nothing else. (One step for several bytes: log entry 22.) -/
def Obligations.HostWriteStoresBytes : Prop :=
  ∀ (s : State) (a : Nat) (bytes : List Byte) (rest : List Turn), s.agenda = .host (.memWrite a bytes) :: rest →
    OrdinaryBytes s a bytes.length →
    (∀ i sp b, s.status.busy = true → decode s.cmd = .ok i → sp ∈ regions i s.opr → sp.contains b = true →
      ¬(a ≤ b ∧ b < a + bytes.length)) →
    ∃ t, step s = .next t ∧ t = { s with agenda := rest, mem := t.mem } ∧
      (∀ k, k < bytes.length → t.mem.read (a + k) = viewAt bytes k) ∧
      ∀ b, ¬(a ≤ b ∧ b < a + bytes.length) → t.mem.read b = s.mem.read b

/-! ### Reset -/

/-- 70_reset_and_hazards.md R133: after reset `ID` reads 0x00345A4C, every other register 0, and `irq` is deasserted. -/
def Obligations.ResetRegisterValues : Prop :=
  (∀ r : Reg, readReg r State.reset = if r = .id then 0x00345A4C else 0) ∧ irq State.reset = false

/-- 70_reset_and_hazards.md R135: the context after reset is that of `XXH32_RESET` with seed 0, and `XXH32_DIGEST` straight
after reset gives 0x02CC5D05. -/
def Obligations.ResetContextIsSeedZero : Prop :=
  State.reset.xs = ⟨0, 0x24234428, 0x85EBCA77, 0, 0x61C8864F, 0, false, []⟩ ∧
  (∀ s t : State, s.opr.param = 0 → exec .xxh32Reset s = .next t → t.xs = State.reset.xs) ∧
  ∀ s : State, s.xs = State.reset.xs → exec .xxh32Digest s =
    .next { s with result := 0x02CC5D05, errcode := .noError, status := ⟨false, true, false⟩ }

/-- 70_reset_and_hazards.md R136: reset from any state. The registers and the context take their reset values, every table
entry is free, a running command does not complete, memory is unchanged but for the write region of a running command,
whose bytes are free. That platform, remaining turns and observations are kept (log entry 13), and that the region of a
running command its start checks would refuse is freed too (log entry 20), are the model's choices. -/
def Obligations.AssertedResetGivesResetState : Prop :=
  ∀ (s : State) (rest : List Turn), s.agenda = .host .assertReset :: rest →
    ∃ t, step s = .next t ∧ (∀ r, readReg r t = readReg r State.reset) ∧ irq t = false ∧ t.xs = State.reset.xs ∧
      (∀ k, t.ht.read k = Config.freeEntry s.draws k) ∧ t.plat = s.plat ∧ t.agenda = rest ∧ t.seen = s.seen ∧
      (∀ i sp a, s.status.busy = true → decode s.cmd = .ok i → writeRegion i s.opr = some sp →
        t.mem.read a = if sp.contains a then Config.freeByte s.draws a else s.mem.read a) ∧
      ((s.status.busy = false ∨ ∀ i, decode s.cmd = .ok i → writeRegion i s.opr = none) → t.mem = s.mem)

/-! ### Completion and errors -/

/-- 60_exceptions.md R113, R117, R118: every command ends in a successful or an error completion; BUSY is 0, DONE is 1,
ERROR tells which, RESULT is 0 on error, and no register but RESULT, ERRCODE and STATUS changes. -/
def Obligations.CompletionSetsStatus : Prop :=
  ∀ (i : Instr) (s t : State), exec i s = .next t →
    t.status = ⟨false, true, decide (t.errcode ≠ .noError)⟩ ∧ (t.errcode ≠ .noError → t.result = 0) ∧
    t = { s with
      result := t.result, errcode := t.errcode, status := t.status, ht := t.ht, xs := t.xs, mem := t.mem,
      draws := t.draws }

/-- 20_memory.md R31, 70_reset_and_hazards.md R141, R145, with the model's choice of log entry 10: a command whose operand
and size checks pass and one of whose regions is not ordinary memory faults; every other command completes, for every
operand and memory content. -/
def Obligations.OnlyNonOrdinaryRegionsStop : Prop :=
  ∀ (i : Instr) (s : State),
    (operandInvalid i s.opr = false ∧ sizeError i s.opr = none ∧
        (∃ sp ∈ regions i s.opr, ∃ a, sp.contains a = true ∧ s.plat.ordinary a = false) →
      exec i s = .fault .regionNotOrdinary) ∧
    (¬(operandInvalid i s.opr = false ∧ sizeError i s.opr = none ∧
        ∃ sp ∈ regions i s.opr, ∃ a, sp.contains a = true ∧ s.plat.ordinary a = false) →
      Answers (exec i s))

/-- 60_exceptions.md R119, 20_memory.md R30: the operand checks, made before any memory access or state change. That they
come before the violation of a region that is not ordinary memory (log entry 10), and that R30's refusal of a region that
ends above 2^32 stands among them, before the size checks of `HT_SAVE` and `HT_LOAD` (log entry 23), are the model's
choices. -/
def Obligations.InvalidOperandRule : Prop :=
  ∀ (i : Instr) (s : State),
    (RefusedOperands i s.opr → exec i s =
      .next { s with result := 0, errcode := .invalidOperand, status := ⟨false, true, true⟩ }) ∧
    (¬ RefusedOperands i s.opr → ∀ t, exec i s = .next t → t.errcode ≠ .invalidOperand)

/-- 60_exceptions.md R122: with operand and size checks passed, `BUS_ERROR` exactly when some byte of a region has `MemOk`
false, before any other effect. -/
def Obligations.BusErrorRule : Prop :=
  ∀ (i : Instr) (s : State), operandInvalid i s.opr = false → sizeError i s.opr = none →
    (∀ sp ∈ regions i s.opr, ∀ a, sp.contains a = true → s.plat.ordinary a = true) →
    ((∃ sp ∈ regions i s.opr, ∃ a, sp.contains a = true ∧ s.plat.memOk a = false) → exec i s =
      .next { s with result := 0, errcode := .busError, status := ⟨false, true, true⟩ }) ∧
    ((∀ sp ∈ regions i s.opr, ∀ a, sp.contains a = true → s.plat.memOk a = true) →
      ∀ t, exec i s = .next t → t.errcode ≠ .busError)

/-- 41_match_finder.md R73, R74, 60_exceptions.md R123: the size checks of `HT_SAVE` and `HT_LOAD` come after the operand
checks and before `BUS_ERROR`, and have no other effect. That they come before the violation of a region that is not
ordinary memory (log entry 10), and after R30's refusal of a region that ends above 2^32 (log entry 23), are the model's
choices. -/
def Obligations.SnapshotSizeChecks : Prop :=
  ∀ s : State,
    (operandInvalid .htSave s.opr = false → s.opr.dstCap.toNat - s.opr.dstOff.toNat < 65536 → exec .htSave s =
      .next { s with result := 0, errcode := .outputBufferTooSmall, status := ⟨false, true, true⟩ }) ∧
    (operandInvalid .htLoad s.opr = false → s.opr.srcLen.toNat < 65536 → exec .htLoad s =
      .next { s with result := 0, errcode := .malformedInput, status := ⟨false, true, true⟩ })

/-- 60_exceptions.md R116: which codes each command reports, and the numbers `ERRCODE` shows. -/
def Obligations.ReportedErrorCodes : Prop :=
  (∀ (i : Instr) (s t : State), exec i s = .next t → t.errcode ∈ reportable i) ∧
  ∀ s : State, readReg .errcode s = match s.errcode with
    | .noError => 0x00
    | .outputBufferTooSmall => 0x01
    | .malformedInput => 0x02
    | .invalidOffset => 0x03
    | .dictionaryOutOfBounds => 0x04
    | .illegalCommand => 0x10
    | .invalidOperand => 0x11
    | .busError => 0x12

/-- 60_exceptions.md R121: what an error completion leaves, of memory, hash table and context. -/
def Obligations.ErrorLeavesState : Prop :=
  (∀ (s t : State) (w : Word) (rest : List Turn), s.agenda = writesCmd w rest → wellFormedCommand w = false →
    step s = .next t → t.mem = s.mem ∧ t.ht = s.ht ∧ t.xs = s.xs) ∧
  ∀ (i : Instr) (s t : State), exec i s = .next t → t.errcode ≠ .noError →
    t.xs = s.xs ∧
    (t.errcode = .invalidOperand ∨ t.errcode = .busError ∨ i = .htSave ∨ i = .htLoad →
      t.mem = s.mem ∧ t.ht = s.ht) ∧
    (i = .compressBlock ∨ i = .compressBlockExt → t.errcode = .outputBufferTooSmall →
      ∀ k, t.ht.read k = Config.freeEntry (s.draws + 1) k) ∧
    (i = .decompressBlock → t.ht = s.ht) ∧
    (i = .compressBlock ∨ i = .compressBlockExt ∨ i = .decompressBlock →
      t.errcode ≠ .invalidOperand → t.errcode ≠ .busError →
      ∀ a, dstStart s.opr ≤ a → a < s.opr.dstAddr.toNat + s.opr.dstCap.toNat →
        t.mem.read a = Config.freeByte s.draws a) ∧
    ∀ a, ¬(dstStart s.opr ≤ a ∧ a < s.opr.dstAddr.toNat + s.opr.dstCap.toNat) → t.mem.read a = s.mem.read a

/-- 20_memory.md R32: no byte outside the write region changes; after success the bytes of the write region beyond the
reported ones are as before; after an error found at the start no byte has changed; after an error found during execution
every byte of the write region is free. -/
def Obligations.WritesStayInWriteRegion : Prop :=
  (∀ (s t : State) (w : Word) (rest : List Turn), s.agenda = writesCmd w rest → wellFormedCommand w = false →
    step s = .next t → t.mem = s.mem) ∧
  ∀ (i : Instr) (s t : State), exec i s = .next t →
    (∀ a, (∀ sp, writeRegion i s.opr = some sp → sp.contains a = false) → t.mem.read a = s.mem.read a) ∧
    (t.errcode = .noError → ∀ a, dstStart s.opr + t.result.toNat ≤ a → t.mem.read a = s.mem.read a) ∧
    (startError i s ≠ none → t.mem = s.mem) ∧
    (t.errcode ≠ .noError → startError i s = none → ∀ sp, writeRegion i s.opr = some sp →
      ∀ a, sp.contains a = true → t.mem.read a = Config.freeByte s.draws a)

/-! ### xxHash32 -/

/-- 40_xxhash32.md R59, R58: the hash of the source bytes with the seed in `PARAM`, written out with the constants of the
rules; nothing else changes. R64: the source's test vector. -/
def Obligations.OneshotHashesSource : Prop :=
  (∀ s : State, StartPasses .xxh32Oneshot s → exec .xxh32Oneshot s = .next { s with
    result := hashOf (sourceOf s) s.opr.param, errcode := .noError, status := ⟨false, true, false⟩ }) ∧
  hashOf [0x74, 0x65, 0x73, 0x74] 0 = 1042293711

/-- 40_xxhash32.md R60: the context a seed gives; its digest for seed 7 is 0xD7ADAFF8. -/
def Obligations.ContextResetFromSeed : Prop :=
  (∀ s : State, exec .xxh32Reset s = .next { s with
    xs := ⟨s.opr.param, s.opr.param + 2654435761 + 2246822519, s.opr.param + 2246822519, s.opr.param,
      s.opr.param - 2654435761, 0, false, []⟩
    result := 0, errcode := .noError, status := ⟨false, true, false⟩ }) ∧
  ∀ s t u : State, s.opr.param = 7 → exec .xxh32Reset s = .next t → exec .xxh32Digest t = .next u →
    u.result = 0xD7ADAFF8

/-- 40_xxhash32.md R61: an update, lane by lane over `XS.mem ++ d`; only the context and the completion registers
change. -/
def Obligations.UpdateAbsorbsSource : Prop :=
  ∀ s : State, StartPasses .xxh32Update s → ∃ t, exec .xxh32Update s = .next t ∧
    t = { s with xs := t.xs, result := 0, errcode := .noError, status := ⟨false, true, false⟩ } ∧
    (let buf := s.xs.mem ++ sourceOf s
     t.xs = {
       seed := s.xs.seed, v1 := accumulate buf 0 s.xs.v1, v2 := accumulate buf 4 s.xs.v2
       v3 := accumulate buf 8 s.xs.v3, v4 := accumulate buf 12 s.xs.v4
       total := s.xs.total + s.opr.srcLen
       large := s.xs.large || decide (16 ≤ s.opr.srcLen.toNat) || decide (16 ≤ (s.xs.total + s.opr.srcLen).toNat)
       mem := buf.drop (16 * (buf.length / 16)) })

/-- 40_xxhash32.md R62: the digest of the context, which it does not change: a second digest gives the same value. -/
def Obligations.DigestKeepsContext : Prop :=
  ∀ s : State,
    (let h := if s.xs.large then mergeOf s.xs.v1 s.xs.v2 s.xs.v3 s.xs.v4 else s.xs.seed + 374761393
     exec .xxh32Digest s = .next { s with
      result := avalancheOf (tailOf (h + s.xs.total) s.xs.mem), errcode := .noError
      status := ⟨false, true, false⟩ }) ∧
    ∀ t, exec .xxh32Digest s = .next t → exec .xxh32Digest t = .next t

/-- 40_xxhash32.md R63: for every seed and every split into pieces, reset, updates and digest give the one-shot hash of
the concatenation, provided the total length is below 2^32. -/
def Obligations.IncrementalHashEqualsOneshot : Prop :=
  ∀ (r t0 d : State) (us : List State), exec .xxh32Reset r = .next t0 → HashedInTurn t0.xs us d.xs →
    (us.flatMap sourceOf).length < 2 ^ 32 →
    exec .xxh32Digest d = .next { d with
      result := xxh32 (us.flatMap sourceOf) r.opr.param, errcode := .noError, status := ⟨false, true, false⟩ }

/-! ### Hash table -/

/-- 41_match_finder.md R67: the sequence hash as arithmetic on numbers, a table index, and the rule's examples. -/
def Obligations.SequenceHashRule : Prop :=
  (∀ seq : Word, hashU32 seq = seq.toNat * 2654435761 % 2 ^ 32 / 2 ^ 18 ∧ hashU32 seq < 16384) ∧
  hashU32 0 = 0 ∧ hashU32 1 = 10125 ∧ hashU32 (rd32LE [0x74, 0x65, 0x73, 0x74] 0) = 7338

/-- 41_match_finder.md R70: `HT_CLEAR` makes every entry 0 and changes nothing else; the snapshot of the cleared table is
65536 zero bytes. -/
def Obligations.ClearEmptiesTable : Prop :=
  ∀ s : State, ∃ t, exec .htClear s = .next t ∧
    t = { s with ht := t.ht, result := 0, errcode := .noError, status := ⟨false, true, false⟩ } ∧
    (∀ k, t.ht.read k = 0) ∧ t.ht.snapshot = List.replicate 65536 0

/-- 41_match_finder.md R71: `HT_SHIFT` subtracts `PARAM` from every entry without wrap, 0 where the difference is negative,
and changes nothing else. The premise is the canonical form of the table, which every step keeps. -/
def Obligations.ShiftSubtractsAndZeroes : Prop :=
  ∀ s : State, s.ht.wf = true → ∃ t, exec .htShift s = .next t ∧
    t = { s with ht := t.ht, result := 0, errcode := .noError, status := ⟨false, true, false⟩ } ∧
    ∀ k, k < 16384 → (t.ht.read k).toInt =
      if (s.ht.read k).toInt - s.opr.param.toNat < 0 then 0 else (s.ht.read k).toInt - s.opr.param.toNat

/-- 41_match_finder.md R72: `HT_WARM` inserts every position of the dictionary window that starts four bytes; the last
position of each hash remains, every other entry is kept, RESULT counts them, and nothing else changes. -/
def Obligations.WarmInsertsEveryPosition : Prop :=
  ∀ s : State, StartPasses .htWarm s → ∃ t, exec .htWarm s = .next t ∧
    t = { s with
      ht := t.ht, result := t.result, errcode := .noError, status := ⟨false, true, false⟩ } ∧
    t.result.toNat = windowLen s.opr - 3 ∧
    (∀ p, p + 4 ≤ windowLen s.opr →
      (∀ q, p < q → q + 4 ≤ windowLen s.opr →
        hashU32 (rd32LE (windowOf s) q) ≠ hashU32 (rd32LE (windowOf s) p)) →
      t.ht.read (hashU32 (rd32LE (windowOf s) p)) = BitVec.ofNat 32 (p + 1)) ∧
    ∀ k, (∀ p, p + 4 ≤ windowLen s.opr → hashU32 (rd32LE (windowOf s) p) ≠ k) → t.ht.read k = s.ht.read k

/-- 41_match_finder.md R73: `HT_SAVE` stores entry `k` as a little-endian word at `DST_ADDR + DST_OFF + 4 k`, no byte
outside the 65536 changes, and the table is kept. -/
def Obligations.SaveStoresTable : Prop :=
  ∀ s : State, StartPasses .htSave s → ∃ t, exec .htSave s = .next t ∧
    t = { s with mem := t.mem, result := 65536, errcode := .noError, status := ⟨false, true, false⟩ } ∧
    (∀ k, k < 16384 →
      le32 (t.mem.read (dstStart s.opr + 4 * k)) (t.mem.read (dstStart s.opr + 4 * k + 1))
        (t.mem.read (dstStart s.opr + 4 * k + 2)) (t.mem.read (dstStart s.opr + 4 * k + 3)) = s.ht.read k) ∧
    ∀ a, ¬(dstStart s.opr ≤ a ∧ a < dstStart s.opr + 65536) → t.mem.read a = s.mem.read a

/-- 41_match_finder.md R74: `HT_LOAD` reads entry `k` from the little-endian word at `SRC_ADDR + SRC_START + 4 k`, and
changes nothing else. -/
def Obligations.LoadReadsTable : Prop :=
  ∀ s : State, StartPasses .htLoad s → ∃ t, exec .htLoad s = .next t ∧
    t = { s with ht := t.ht, result := 65536, errcode := .noError, status := ⟨false, true, false⟩ } ∧
    ∀ k, k < 16384 → t.ht.read k =
      (let a := s.opr.srcAddr.toNat + s.opr.srcStart.toNat + 4 * k
       le32 (s.mem.read a) (s.mem.read (a + 1)) (s.mem.read (a + 2)) (s.mem.read (a + 3)))

/-- 41_match_finder.md R74: loading the bytes `HT_SAVE` wrote restores every entry, whatever table is there before. -/
def Obligations.SaveThenLoadRestoresTable : Prop :=
  ∀ s t u v : State, exec .htSave s = .next t → t.errcode = .noError →
    u.opr.srcAddr.toNat + u.opr.srcStart.toNat = dstStart s.opr →
    (∀ a, dstStart s.opr ≤ a → a < dstStart s.opr + 65536 → u.mem.read a = t.mem.read a) →
    exec .htLoad u = .next v → v.errcode = .noError → ∀ k, k < 16384 → v.ht.read k = s.ht.read k

/-- 10_state.md R24, R25: only reset and the completion of `HT_CLEAR`, `HT_SHIFT`, `HT_WARM`, `HT_LOAD`, `COMPRESS_BLOCK`
or `COMPRESS_BLOCK_EXT` change the hash table, and only reset and the completion of `XXH32_RESET` or `XXH32_UPDATE` change
the context. -/
def Obligations.SharedStateChangedOnlyByItsCommands : Prop :=
  ∀ s t : State, step s = .next t →
    (t.ht ≠ s.ht → (∃ rest, s.agenda = .host .assertReset :: rest) ∨
      (s.status.busy = true ∧ (∃ rest, EngineNext s.agenda rest) ∧ ∃ i, decode s.cmd = .ok i ∧
        i ∈ [Instr.htClear, .htShift, .htWarm, .htLoad, .compressBlock, .compressBlockExt])) ∧
    (t.xs ≠ s.xs → (∃ rest, s.agenda = .host .assertReset :: rest) ∨
      (s.status.busy = true ∧ (∃ rest, EngineNext s.agenda rest) ∧ ∃ i, decode s.cmd = .ok i ∧
        i ∈ [Instr.xxh32Reset, .xxh32Update]))

/-! ### Block format -/

/-- 30_encoding.md R42, its pseudocode and its count: no extension below 15; one byte 255 for each 255 of `n - 15`, then the
remainder. R42's own examples for 269 and 270 contradict this; the model follows the pseudocode, which R43 inverts (log
entry 24). -/
def Obligations.LengthExtensionEncoding : Prop :=
  (∀ n, n < 15 → lengthExt n = []) ∧
  (∀ n, 15 ≤ n → n - 15 < 255 → lengthExt n = [BitVec.ofNat 8 (n - 15)]) ∧
  (∀ n, 255 ≤ n - 15 → lengthExt n = 0xFF :: lengthExt (n - 255)) ∧
  (∀ n, 15 ≤ n → (lengthExt n).length = (n - 15) / 255 + 1) ∧
  lengthExt 15 = [0x00] ∧ lengthExt 269 = [0xFE] ∧ lengthExt 270 = [0xFF, 0x00] ∧ lengthExt 271 = [0xFF, 0x01]

/-- 30_encoding.md R43: decoding a length: the field below 15; else 15 plus the bytes up to and including the first that is
not 255; a chain that reaches the end of the input is malformed; and it inverts the encoding for every length. -/
def Obligations.LengthDecodingInvertsEncoding : Prop :=
  (∀ (f : BitVec 4) (input : List Byte), f ≠ 15 → readLength f input = some (f.toNat, input)) ∧
  (∀ (k : Nat) (b : Byte) (rest : List Byte), b ≠ 255 →
    readLength 15 (List.replicate k 255 ++ b :: rest) = some (15 + 255 * k + b.toNat, rest)) ∧
  (∀ k : Nat, readLength 15 (List.replicate k 255) = none) ∧
  ∀ (n : Nat) (rest : List Byte), readLength (lengthNibble n) (lengthExt n ++ rest) = some (n, rest)

/-- 30_encoding.md R41, R44: the token's two fields, and the offset's two bytes least significant first, read back. R40, R45,
42_block_compressor.md R83, R84: the bytes of a sequence and of the last sequence, in their order, and of a block. -/
def Obligations.TokenAndOffsetReadBack : Prop :=
  (∀ ll ml : BitVec 4, tokenLiteral (token ll ml) = ll ∧ tokenMatch (token ll ml) = ml ∧
    (token ll ml).toNat = 16 * ll.toNat + ml.toNat) ∧
  (∀ d, d ≤ 65535 → ∃ b0 b1, offsetBytes d = [b0, b1] ∧ b0.toNat = d % 256 ∧ b1.toNat = d / 256 ∧
    offsetOf b0 b1 = d) ∧
  (∀ q : Sequence, q.bytes =
    BitVec.ofNat 8 (16 * min q.literals.length 15 + min (q.matchLen - 4) 15) ::
      (lengthExt q.literals.length ++ q.literals ++
        [BitVec.ofNat 8 (q.offset % 256), BitVec.ofNat 8 (q.offset / 256)] ++ lengthExt (q.matchLen - 4))) ∧
  ∀ b : Block, b.bytes = b.sequences.flatMap Sequence.bytes ++
    BitVec.ofNat 8 (16 * min b.final.length 15) :: (lengthExt b.final.length ++ b.final)

/-! ### Block compressor -/

/-- 42_block_compressor.md R86, R88: where its block fits the write region, `COMPRESS_BLOCK` stores the block of the core at
`DST_ADDR + DST_OFF`, reports its length, leaves the core's table, and changes nothing else. -/
def Obligations.CompressStoresBlock : Prop :=
  ∀ s : State, StartPasses .compressBlock s → Fits s (blockOf s).1 →
    ∃ t, exec .compressBlock s = .next t ∧ t.result.toNat = (blockOf s).1.bytes.length ∧
      Stored s t t.result (dstStart s.opr) (blockOf s).1.bytes (blockOf s).2

/-- 42_block_compressor.md R87, R88: the same for `COMPRESS_BLOCK_EXT` over dictionary window and source. -/
def Obligations.CompressExtStoresBlock : Prop :=
  ∀ s : State, StartPasses .compressBlockExt s → Fits s (extBlockOf s).1 →
    ∃ t, exec .compressBlockExt s = .next t ∧ t.result.toNat = (extBlockOf s).1.bytes.length ∧
      Stored s t t.result (dstStart s.opr) (extBlockOf s).1.bytes (extBlockOf s).2

/-- 42_block_compressor.md R88: a compress command that passes its start checks ends in `OUTPUT_BUFFER_TOO_SMALL` exactly
when its block is longer than `DST_CAP - DST_OFF`, and in success otherwise. -/
def Obligations.CompressTooSmallExactly : Prop :=
  ∀ s : State,
    (StartPasses .compressBlock s → ∃ t, exec .compressBlock s = .next t ∧
      t.errcode = if dstRoom s.opr < (blockOf s).1.bytes.length then .outputBufferTooSmall else .noError) ∧
    (StartPasses .compressBlockExt s → ∃ t, exec .compressBlockExt s = .next t ∧
      t.errcode = if dstRoom s.opr < (extBlockOf s).1.bytes.length then .outputBufferTooSmall else .noError)

/-- 42_block_compressor.md R91: the block for `n` source bytes is at most `n + floor(n / 255) + 2` bytes long, for every
view and table and all legal parameters; and that bound is reached. -/
def Obligations.BlockLengthBound : Prop :=
  (∀ (p : Config.SearchParams) (view : List Byte) (base : Nat) (table : HashTable), p.Legal → base ≤ view.length →
    (compressCore p view base table).1.bytes.length ≤ (view.length - base) + (view.length - base) / 255 + 2) ∧
  ∃ (view : List Byte) (table : HashTable), 0 < view.length ∧
    (compressCore ⟨12, 64⟩ view 0 table).1.bytes.length = view.length + view.length / 255 + 2

/-- 42_block_compressor.md R93, R80: every match has an offset 1 .. 65535 inside the view and a length of at least 4, starts
before `end - MFLIMIT` and ends at or before `end - 5`; the block covers the source exactly; a source of at most `MFLIMIT`
bytes gives no match and leaves the table. R93 is the case `MFLIMIT` = 12; the premise lets a match of 4 bytes end 5 bytes
before the end. -/
def Obligations.BlockEndShape : Prop :=
  ∀ (p : Config.SearchParams) (view : List Byte) (base : Nat) (table : HashTable), p.Legal → 8 ≤ p.mflimit →
    base ≤ view.length →
    MatchesWithin p.mflimit view.length base (compressCore p view base table).1.sequences ∧
    positionAfter base (compressCore p view base table).1.sequences + (compressCore p view base table).1.final.length =
      view.length ∧
    ((compressCore p view base table).1.sequences ≠ [] → 5 ≤ (compressCore p view base table).1.final.length) ∧
    (view.length - base ≤ p.mflimit → compressCore p view base table = (⟨[], view.drop base⟩, table))

/-- 42_block_compressor.md R95, R79: the core looks up positions of the source in rising order and inserts every one of them:
the last one of each hash is in its entry as `position + 1`, and every other entry is the one found. -/
def Obligations.TableAfterCompression : Prop :=
  ∀ (p : Config.SearchParams) (view : List Byte) (base : Nat) (table : HashTable), p.Legal →
    ∃ ps a, Scanned p view base base p.searchInit table ps (compressCore p view base table).1.sequences a
        (compressCore p view base table).2 ∧
      ps.Pairwise (· < ·) ∧ (∀ q ∈ ps, base ≤ q ∧ q + p.mflimit < view.length) ∧
      (∀ q ∈ ps, (∀ r ∈ ps, q < r → hashAt view r ≠ hashAt view q) →
        (compressCore p view base table).2.read (hashAt view q) = BitVec.ofNat 32 (q + 1)) ∧
      ∀ k, (∀ q ∈ ps, hashAt view q ≠ k) → (compressCore p view base table).2.read k = table.read k

/-- 42_block_compressor.md R79, R80, R81, R82, R84, R85: the core is the scan of the rules: each position below
`end - MFLIMIT` it comes to is looked up and inserted, its candidate accepted or not, a miss skips by the counter, a match is
extended as far as it goes; what is pending at the end is the final literals. R94: the scan advances at every iteration, so
more iterations than source bytes change nothing: the model's fuel never ends a scan. -/
def Obligations.ScanFollowsItsRules : Prop :=
  ∀ (p : Config.SearchParams) (view : List Byte) (base : Nat) (table : HashTable), p.Legal →
    (∃ ps a, Scanned p view base base p.searchInit table ps (compressCore p view base table).1.sequences a
        (compressCore p view base table).2 ∧
      (compressCore p view base table).1.final = view.drop a) ∧
    ∀ extra, scan p view (view.length - base + extra) base base p.searchInit table = compressCore p view base table

/-- 42_block_compressor.md R90, R92, 43_block_decompressor.md R108: for every view, base and table contents and all legal
parameters the block decodes to the source, with the bytes before the source at the end of dictionary and output history, and
room for it. -/
def Obligations.BlockRoundTrip : Prop :=
  ∀ (p : Config.SearchParams) (view : List Byte) (base : Nat) (table : HashTable) (pre history dict : List Byte)
    (oend : Nat), p.Legal → base ≤ view.length → dict ++ history = pre ++ view.take base →
    history.length + (view.length - base) ≤ oend →
    decodeBlock (compressCore p view base table).1.bytes history dict oend = .ok (view.drop base)

/-- 42_block_compressor.md R90: the round trip of the commands. A block that `COMPRESS_BLOCK` or `COMPRESS_BLOCK_EXT` wrote,
decompressed with the bytes before the source as dictionary or output history and room for it, stores the source. -/
def Obligations.CompressThenDecompress : Prop :=
  ∀ (c t d : State) (before pre : List Byte),
    (exec .compressBlock c = .next t ∧ before = bytesAt c.mem c.opr.srcAddr.toNat c.opr.srcStart.toNat ∨
      exec .compressBlockExt c = .next t ∧ before = windowOf c) →
    c.plat.search.Legal → t.errcode = .noError → StartPasses .decompressBlock d →
    sourceOf d = bytesAt t.mem (dstStart c.opr) t.result.toNat →
    bytesAt d.mem d.opr.dictAddr.toNat d.opr.dictLen.toNat ++ bytesAt d.mem d.opr.dstAddr.toNat d.opr.dstOff.toNat =
      pre ++ before →
    c.opr.srcLen.toNat ≤ dstRoom d.opr →
    ∃ u, exec .decompressBlock d = .next u ∧ Stored d u c.opr.srcLen (dstStart d.opr) (sourceOf c) d.ht

/-! ### Block decompressor -/

/-- 43_block_decompressor.md R101: a block that decodes with the history and the dictionary in memory is stored at
`DST_ADDR + DST_OFF`, its length reported, nothing else changed; one that does not ends with the decoder's error, the
write region free, everything outside it kept. -/
def Obligations.DecompressStoresDecoded : Prop :=
  ∀ s : State, StartPasses .decompressBlock s →
    (let decoded := decodeBlock (sourceOf s) (bytesAt s.mem s.opr.dstAddr.toNat s.opr.dstOff.toNat)
      (bytesAt s.mem s.opr.dictAddr.toNat s.opr.dictLen.toNat) s.opr.dstCap.toNat
     (∀ out, decoded = .ok out → ∃ t, exec .decompressBlock s = .next t ∧
      t.result.toNat = out.length ∧ out.length ≤ dstRoom s.opr ∧ Stored s t t.result (dstStart s.opr) out s.ht) ∧
     ∀ e, decoded = .error e → ∃ t, exec .decompressBlock s = .next t ∧
      t = { s with result := 0, errcode := e, status := ⟨false, true, true⟩, mem := t.mem, draws := s.draws + 1 } ∧
      ∀ a, t.mem.read a = if dstStart s.opr ≤ a ∧ a < s.opr.dstAddr.toNat + s.opr.dstCap.toNat
        then Config.freeByte s.draws a else s.mem.read a)

/-- 43_block_decompressor.md R106: the match copy, in output order: byte `k` of the copy is the byte `d` before it, also
where that byte is one the copy itself has written. R98, R107: the byte `d` before the cursor in the spec's coordinates is
output index `op - d`, or dictionary index `dlen + (op - d)` where that is negative. -/
def Obligations.MatchCopyIsForward : Prop :=
  (∀ (d m : Nat) (past : List Byte), 1 ≤ d → d ≤ past.length →
    (copyMatch d m past).length = past.length + m ∧
    (copyMatch d m past).reverse.take past.length = past.reverse ∧
    ∀ k, k < m → viewAt (copyMatch d m past).reverse (past.length + k) =
      viewAt (copyMatch d m past).reverse (past.length + k - d)) ∧
  ∀ (output dict : List Byte) (d : Nat), 1 ≤ d → d ≤ dict.length + output.length →
    viewAt (dict ++ output).reverse (d - 1) =
      if d ≤ output.length then viewAt output (output.length - d)
      else viewAt dict (dict.length - (d - output.length))

/-- 43_block_decompressor.md R104: an offset of 0 is `INVALID_OFFSET`, whatever follows it and whatever room is left. -/
def Obligations.ZeroOffsetIsInvalid : Prop :=
  ∀ (oend op : Nat) (past rest : List Byte) (t : Byte),
    readMatch oend ⟨0 :: 0 :: rest, past, op⟩ t = .error .invalidOffset

/-- 43_block_decompressor.md R99 to R107, R109: the decoder makes the checks of the rules in their order and reports the
first that fails, or gives the output buffer. R111: for any input it succeeds within the buffer or reports one of the four
decode errors; and more iterations than input bytes change nothing. -/
def Obligations.DecoderFollowsParseRules : Prop :=
  (∀ (block history dict : List Byte) (oend : Nat), ParsesTo block dict oend 0 history
    (match decodeBlock block history dict oend with
      | .ok out => .ok (history ++ out)
      | .error e => .error e)) ∧
  ∀ (block history dict : List Byte) (oend extra : Nat), history.length ≤ oend →
    ((∃ out, decodeBlock block history dict oend = .ok out ∧ history.length + out.length ≤ oend) ∨
      ∃ e ∈ [ErrorCode.malformedInput, .outputBufferTooSmall, .invalidOffset, .dictionaryOutOfBounds],
        decodeBlock block history dict oend = .error e) ∧
    parse oend (block.length + extra) ⟨block, (dict ++ history).reverse, history.length⟩ =
      parse oend block.length ⟨block, (dict ++ history).reverse, history.length⟩

/-- 43_block_decompressor.md R105: nothing is silently truncated: a block that decodes to some bytes decodes to the same
bytes in every larger buffer and reports `OUTPUT_BUFFER_TOO_SMALL` in every smaller one. -/
def Obligations.SmallerOutputIsTooSmall : Prop :=
  ∀ (block history dict out : List Byte) (oend oend' : Nat), decodeBlock block history dict oend = .ok out →
    (history.length + out.length ≤ oend' → decodeBlock block history dict oend' = .ok out) ∧
    (history.length ≤ oend' → oend' < history.length + out.length →
      decodeBlock block history dict oend' = .error .outputBufferTooSmall)

/-! ### The whole machine -/

/-- The invariant holds after reset. -/
def Obligations.ResetMeetsInvariant : Prop := State.reset.Inv

/-- Every step keeps the invariant: canonical memory and table, a consistent context, past draws, legal parameters. -/
def Obligations.EveryStepKeepsInvariant : Prop := ∀ s t : State, s.Inv → step s = .next t → t.Inv

/-- 20_memory.md R30: the engine reads only bytes of its read regions: with any other memory that agrees on them, the
command ends the same way, with the same registers, table and context, and bytes that were equal stay equal. -/
def Obligations.EngineReadsOnlyItsRegions : Prop :=
  ∀ (i : Instr) (s t : State) (m : Memory),
    (∀ sp ∈ readRegions i s.opr, ∀ a, sp.contains a = true → m.read a = s.mem.read a) → exec i s = .next t →
    ∃ t', exec i { s with mem := m } = .next t' ∧ t = { t' with mem := t.mem } ∧
      ∀ a, m.read a = s.mem.read a → t'.mem.read a = t.mem.read a

/-- 70_reset_and_hazards.md R139, R145: a host that only reads window registers while a command runs never makes the run
stop, however long, where the running command's regions are ordinary memory. That reads of `CMD` and of the word at 0x3C are
allowed while BUSY, which R139 does not list and R141 does not forbid, is the model's choice (log entry 18). -/
def Obligations.ReadingHostNeverStops : Prop :=
  ∀ (n : Nat) (s : State), (∀ turn ∈ s.agenda, OnlyReads turn) →
    (∀ i, s.status.busy = true → decode s.cmd = .ok i →
      ∀ sp ∈ regions i s.opr, ∀ a, sp.contains a = true → s.plat.ordinary a = true) → SafeFor n s
end

