-- ==== Sys2Proof/Laws/Blocks.lean ====
section
/-! SUPPORT. Laws of the pieces of the two block engines: four-byte reads, candidate acceptance, match extension, length
reading. -/

namespace Sys2Proof
namespace Machine

/-! ### Four-byte reads -/

/-- The number of four bytes, least significant first. -/
theorem le32_toNat (b0 b1 b2 b3 : Byte) :
    (le32 b0 b1 b2 b3).toNat = b0.toNat + 256 * b1.toNat + 65536 * b2.toNat + 16777216 * b3.toNat := by
  have h0 := b0.isLt
  have h1 := b1.isLt
  have h2 := b2.isLt
  have h3 := b3.isLt
  simp only [le32, BitVec.toNat_append]
  rw [← Nat.shiftLeft_add_eq_or_of_lt (by omega), ← Nat.shiftLeft_add_eq_or_of_lt (by omega),
    ← Nat.shiftLeft_add_eq_or_of_lt (by omega)]
  simp only [Nat.shiftLeft_eq]
  omega

/-- Two words are equal exactly when their bytes are. -/
theorem le32_inj {a b c d a' b' c' d' : Byte} :
    le32 a b c d = le32 a' b' c' d' ↔ a = a' ∧ b = b' ∧ c = c' ∧ d = d' := by
  constructor
  · intro h
    have h' := congrArg BitVec.toNat h
    rw [le32_toNat, le32_toNat] at h'
    have := a.isLt
    have := b.isLt
    have := c.isLt
    have := a'.isLt
    have := b'.isLt
    have := c'.isLt
    refine ⟨?_, ?_, ?_, ?_⟩ <;> apply BitVec.eq_of_toNat_eq <;> omega
  · rintro ⟨rfl, rfl, rfl, rfl⟩
    rfl

/-- Two four-byte reads agree exactly when the four bytes do. -/
theorem rd32LE_eq_iff (view : List Byte) (a b : Nat) :
    rd32LE view a = rd32LE view b ↔ ∀ j, j < 4 → viewAt view (a + j) = viewAt view (b + j) := by
  rw [rd32LE, rd32LE, le32_inj]
  constructor
  · rintro ⟨h0, h1, h2, h3⟩ j hj
    match j, hj with
    | 0, _ => exact h0
    | 1, _ => exact h1
    | 2, _ => exact h2
    | 3, _ => exact h3
  · intro h
    exact ⟨h 0 (by omega), h 1 (by omega), h 2 (by omega), h 3 (by omega)⟩

theorem viewAt_drop (view : List Byte) (n i : Nat) : viewAt (view.drop n) i = viewAt view (n + i) := by
  simp [viewAt, List.getD]

/-! ### Candidates and matches (42_block_compressor.md R80, R82) -/

/-- A candidate is accepted exactly under the conditions of R80. -/
theorem accepts_iff (view : List Byte) (s : Nat) (old : Word) :
    accepts view s (rd32LE view s) old = true ↔
      old.toInt = candidateOf old + 1 ∧ candidateOf old < s ∧ s - candidateOf old ≤ Config.maxOffset ∧
        ∀ j, j < 4 → viewAt view (candidateOf old + j) = viewAt view (s + j) := by
  simp only [accepts, Bool.and_eq_true, decide_eq_true_eq, beq_iff_eq, rd32LE_eq_iff]
  obtain ⟨c, hc⟩ : ∃ c, c = candidateOf old := ⟨_, rfl⟩
  rw [← hc]
  simp only [candidateOf] at hc
  constructor
  · rintro ⟨⟨⟨h1, h2⟩, h3⟩, h4⟩
    exact ⟨by omega, by omega, by omega, h4⟩
  · rintro ⟨h1, h2, h3, h4⟩
    exact ⟨⟨⟨by omega, by omega⟩, by omega⟩, h4⟩

theorem agreeing_le (l : Nat) (xs ys : List Byte) :
    agreeing l xs ys ≤ l ∧ agreeing l xs ys ≤ xs.length ∧ agreeing l xs ys ≤ ys.length := by
  induction l generalizing xs ys with
  | zero => simp [agreeing]
  | succ l ih =>
    match xs, ys with
    | [], _ => simp [agreeing]
    | _ :: _, [] => simp [agreeing]
    | x :: xs, y :: ys =>
      have := ih xs ys
      simp only [agreeing, List.length_cons]
      split <;> omega

/-- The bytes counted agree. -/
theorem agreeing_agrees {l : Nat} {xs ys : List Byte} {j : Nat} (h : j < agreeing l xs ys) :
    viewAt xs j = viewAt ys j := by
  induction l generalizing xs ys j with
  | zero => simp [agreeing] at h
  | succ l ih =>
    match xs, ys with
    | [], _ => simp [agreeing] at h
    | _ :: _, [] => simp [agreeing] at h
    | x :: xs, y :: ys =>
      simp only [agreeing] at h
      split at h
      · rename_i e
        subst e
        match j with
        | 0 => rfl
        | j + 1 => exact ih (xs := xs) (ys := ys) (j := j) (by omega)
      · simp at h

/-- The byte after those counted differs, where the limit allowed one more. -/
theorem agreeing_maximal {l : Nat} {xs ys : List Byte} (h : agreeing l xs ys < l) (hx : agreeing l xs ys < xs.length)
    (hy : agreeing l xs ys < ys.length) : viewAt xs (agreeing l xs ys) ≠ viewAt ys (agreeing l xs ys) := by
  induction l generalizing xs ys with
  | zero => simp at h
  | succ l ih =>
    match xs, ys with
    | [], _ => simp at hx
    | _ :: _, [] => simp at hy
    | x :: xs, y :: ys =>
      simp only [agreeing] at h hx hy ⊢
      split
      · rename_i e
        rw [if_pos e] at h hx hy
        exact ih (by omega) (by simpa using hx) (by simpa using hy)
      · rename_i e
        simpa [viewAt] using e

/-- A match has at least four bytes and, once extended, ends at or before `end - 5`. -/
theorem matchLength_bounds (view : List Byte) (s cand : Nat) :
    4 ≤ matchLength view s cand ∧ (4 < matchLength view s cand → s + matchLength view s cand + 5 ≤ view.length) := by
  have := agreeing_le (view.length - 5 - (s + 4)) (view.drop (s + 4)) (view.drop (cand + 4))
  simp only [matchLength, Config.lastLiterals]
  omega

/-! ### Reading a length (30_encoding.md R43) -/

/-- Reading an extension: every byte left is 255, or some bytes 255 and the first that is not are consumed. -/
theorem readExt_cases (input : List Byte) (n : Nat) :
    (readExt input n = none ∧ ∀ b ∈ input, b = 255) ∨
    ∃ k b rest, input = List.replicate k 255 ++ b :: rest ∧ b ≠ 255 ∧
      readExt input n = some (n + 255 * k + b.toNat, rest) := by
  induction input generalizing n with
  | nil => exact .inl ⟨rfl, by simp⟩
  | cons b rest ih =>
    rw [readExt]
    by_cases hb : b = 255
    · subst hb
      rw [if_pos rfl]
      rcases ih (n + 255) with ⟨h1, h2⟩ | ⟨k, c, r, rfl, hc, hr⟩
      · exact .inl ⟨h1, by simpa using h2⟩
      · refine .inr ⟨k + 1, c, r, by simp [List.replicate_succ], hc, ?_⟩
        rw [hr]
        congr 2
        omega
    · rw [if_neg hb]
      exact .inr ⟨0, b, rest, rfl, hb, by simp⟩

end Machine
end Sys2Proof
end

