-- ==== Sys2Proof/Laws/Cells.lean ====
section
/-! SUPPORT. Laws of spans and of cells: what listing and unlisting a key do to every key, and that keys keep rising. -/

namespace Sys2Proof

/-! ### Spans -/

@[simp] theorem Config.Span.contains_iff (sp : Config.Span) (a : Nat) :
    sp.contains a = true ↔ sp.base ≤ a ∧ a < sp.base + sp.len := by
  simp [Config.Span.contains]

theorem Config.Span.contains_eq_false_iff (sp : Config.Span) (a : Nat) :
    sp.contains a = false ↔ ¬(sp.base ≤ a ∧ a < sp.base + sp.len) := by
  rw [← sp.contains_iff a, Bool.not_eq_true]

/-- Overlap is a shared address (20_memory.md R30). -/
theorem Config.Span.overlaps_iff (x y : Config.Span) :
    x.overlaps y = true ↔ ∃ a, x.contains a = true ∧ y.contains a = true := by
  simp only [Config.Span.contains_iff, Config.Span.overlaps, Bool.and_eq_true, decide_eq_true_eq]
  constructor
  · intro h
    refine ⟨max x.base y.base, ?_, ?_⟩ <;> omega
  · rintro ⟨a, h1, h2⟩
    omega

/-- A span is unbacked exactly when `MemOk` is false at one of its addresses, all of them 32-bit addresses. -/
theorem Config.Platform.unbacked_iff (p : Config.Platform) (sp : Config.Span) (h : sp.stop ≤ Config.addrSpace) :
    p.unbacked sp = true ↔ ∃ a, sp.contains a = true ∧ p.memOk a = false := by
  simp only [Config.Platform.unbacked, List.any_eq_true, Config.Span.overlaps_iff]
  constructor
  · rintro ⟨hole, hm, a, h1, h2⟩
    refine ⟨a, h2, ?_⟩
    have : p.holes.any (·.contains a) = true := List.any_eq_true.mpr ⟨hole, hm, h1⟩
    simp [Config.Platform.memOk, this]
  · rintro ⟨a, h1, h2⟩
    have hlt : a < Config.addrSpace := by
      have := (sp.contains_iff a).mp h1
      simp only [Config.Span.stop] at h
      omega
    have h3 : p.holes.any (·.contains a) = true := by simpa [Config.Platform.memOk, hlt] using h2
    obtain ⟨hole, hm, h4⟩ := List.any_eq_true.mp h3
    exact ⟨hole, hm, a, h4, h1⟩

/-- A span is not ordinary memory exactly when one of its addresses is not. -/
theorem Config.Platform.notOrdinary_iff (p : Config.Platform) (sp : Config.Span) :
    p.notOrdinary sp = true ↔ ∃ a, sp.contains a = true ∧ p.ordinary a = false := by
  have key (a : Nat) : p.ordinary a = false ↔
      p.window.contains a = true ∨ ∃ dev ∈ p.devices, dev.contains a = true := by
    rw [Config.Platform.ordinary, Bool.and_eq_false_iff, Bool.not_eq_false', Bool.not_eq_false', List.any_eq_true]
  simp only [Config.Platform.notOrdinary, Bool.or_eq_true, List.any_eq_true, Config.Span.overlaps_iff, key]
  constructor
  · rintro (⟨a, h1, h2⟩ | ⟨dev, hm, a, h1, h2⟩)
    · exact ⟨a, h2, .inl h1⟩
    · exact ⟨a, h2, .inr ⟨dev, hm, h1⟩⟩
  · rintro ⟨a, h, h1 | ⟨dev, hm, h1⟩⟩
    · exact .inl ⟨a, h1, h⟩
    · exact .inr ⟨dev, hm, a, h1, h⟩

namespace Machine

variable {α : Type}

/-! ### Reading -/

theorem cellGet_put (l : List (Nat × α)) (k a : Nat) (v : α) :
    cellGet (cellPut l k v) a = if a = k then some v else cellGet l a := by
  induction l with
  | nil => simp [cellPut, cellGet]
  | cons c rest ih =>
    unfold cellPut
    split
    · simp [cellGet]
    · split
      · rename_i h; subst h
        by_cases ha : a = c.1 <;> simp [cellGet, ha]
      · by_cases ha : a = c.1
        · simp only [cellGet, ha, if_true]
          rename_i h1 h2
          rw [if_neg (fun h => h2 h.symm)]
        · simp only [cellGet, ha, if_false, ih]

theorem cellGet_del (l : List (Nat × α)) (k a : Nat) :
    cellGet (cellDel l k) a = if a = k then none else cellGet l a := by
  induction l with
  | nil => simp [cellDel, cellGet]
  | cons c rest ih =>
    unfold cellDel
    split
    · rename_i h; subst h
      rw [ih]
      by_cases ha : a = c.1 <;> simp [cellGet, ha]
    · rename_i h
      by_cases ha : a = c.1
      · simp only [cellGet, ha, if_true]
        rw [if_neg (fun h2 => h h2.symm)]
      · simp only [cellGet, ha, if_false, ih]

/-- Filtering by key unlists the keys left out and no other. -/
theorem cellGet_filter (l : List (Nat × α)) (p : Nat → Bool) (a : Nat) :
    cellGet (l.filter fun c => p c.1) a = if p a then cellGet l a else none := by
  induction l with
  | nil => simp [cellGet]
  | cons c rest ih =>
    by_cases hc : p c.1 <;> by_cases ha : a = c.1
    · subst ha; simp [cellGet, hc]
    · simp [cellGet, hc, ha, ih]
    · subst ha; simp [hc, ih]
    · simp [cellGet, hc, ha, ih]

theorem cellGet_append (l l' : List (Nat × α)) (a : Nat) :
    cellGet (l ++ l') a = match cellGet l a with
      | some v => some v
      | none => cellGet l' a := by
  induction l with
  | nil => rfl
  | cons c rest ih =>
    by_cases ha : a = c.1
    · simp [cellGet, ha]
    · simp only [List.cons_append, cellGet, if_neg ha, ih]

theorem cellGet_mem {l : List (Nat × α)} {a : Nat} {v : α} (h : cellGet l a = some v) : (a, v) ∈ l := by
  induction l with
  | nil => simp [cellGet] at h
  | cons c rest ih =>
    unfold cellGet at h
    split at h
    · rename_i hc; subst hc; cases h; exact List.mem_cons_self
    · exact List.mem_cons_of_mem _ (ih h)

/-! ### Membership and order -/

theorem mem_cellPut {l : List (Nat × α)} {k : Nat} {v : α} {c : Nat × α} (h : c ∈ cellPut l k v) :
    c = (k, v) ∨ c ∈ l := by
  induction l with
  | nil => exact .inl (by simpa [cellPut] using h)
  | cons d rest ih =>
    unfold cellPut at h
    split at h
    · rcases List.mem_cons.mp h with h | h
      · exact .inl h
      · exact .inr h
    · split at h
      · rcases List.mem_cons.mp h with h | h
        · exact .inl h
        · exact .inr (List.mem_cons_of_mem _ h)
      · rcases List.mem_cons.mp h with h | h
        · exact .inr (h ▸ List.mem_cons_self)
        · rcases ih h with h | h
          · exact .inl h
          · exact .inr (List.mem_cons_of_mem _ h)

theorem mem_cellDel {l : List (Nat × α)} {k : Nat} {c : Nat × α} (h : c ∈ cellDel l k) : c ∈ l := by
  induction l with
  | nil => simp [cellDel] at h
  | cons d rest ih =>
    unfold cellDel at h
    split at h
    · exact List.mem_cons_of_mem _ (ih h)
    · rcases List.mem_cons.mp h with h | h
      · exact h ▸ List.mem_cons_self
      · exact List.mem_cons_of_mem _ (ih h)

theorem cellsRising_iff (l : List (Nat × α)) :
    cellsRising l = true ↔ l.Pairwise fun c d => c.1 < d.1 := by
  simp [cellsRising, List.pairwise_map]

@[simp] theorem cellsRising_nil : cellsRising ([] : List (Nat × α)) = true := by
  simp [cellsRising_iff]

theorem cellsRising_filter {l : List (Nat × α)} (p : Nat × α → Bool) (h : cellsRising l = true) :
    cellsRising (l.filter p) = true := by
  rw [cellsRising_iff] at h ⊢
  exact h.filter p

/-- Two rising lists, every key of the first below every key of the second, make one rising list. -/
theorem cellsRising_append {l l' : List (Nat × α)} (h : cellsRising l = true) (h' : cellsRising l' = true)
    (hlt : ∀ c ∈ l, ∀ d ∈ l', c.1 < d.1) : cellsRising (l ++ l') = true := by
  rw [cellsRising_iff] at h h' ⊢
  exact List.pairwise_append.mpr ⟨h, h', hlt⟩

theorem cellsRising_put {l : List (Nat × α)} (k : Nat) (v : α) (h : cellsRising l = true) :
    cellsRising (cellPut l k v) = true := by
  rw [cellsRising_iff] at h ⊢
  induction l with
  | nil => simp [cellPut]
  | cons c rest ih =>
    have hc := List.pairwise_cons.mp h
    unfold cellPut
    split
    · rename_i hk
      refine List.pairwise_cons.mpr ⟨fun d hd => ?_, h⟩
      rcases List.mem_cons.mp hd with hd | hd
      · subst hd; exact hk
      · exact Nat.lt_trans hk (hc.1 d hd)
    · split
      · rename_i hk
        exact List.pairwise_cons.mpr ⟨fun d hd => hk ▸ hc.1 d hd, hc.2⟩
      · rename_i h1 h2
        refine List.pairwise_cons.mpr ⟨fun d hd => ?_, ih hc.2⟩
        rcases mem_cellPut hd with hd | hd
        · subst hd; show c.1 < k; omega
        · exact hc.1 d hd

theorem cellsRising_del {l : List (Nat × α)} (k : Nat) (h : cellsRising l = true) :
    cellsRising (cellDel l k) = true := by
  rw [cellsRising_iff] at h ⊢
  induction l with
  | nil => simp [cellDel]
  | cons c rest ih =>
    have hc := List.pairwise_cons.mp h
    unfold cellDel
    split
    · exact ih hc.2
    · exact List.pairwise_cons.mpr ⟨fun d hd => hc.1 d (mem_cellDel hd), ih hc.2⟩

end Machine
end Sys2Proof
end

