-- ==== Sys2Proof/Laws/Memory.lean ====
section
/-! SUPPORT. Laws of system memory: read after write, after a run of bytes, after a scramble; every operation keeps the
canonical form. -/

namespace Sys2Proof
namespace Machine

/-! ### One byte -/

theorem Memory.unlisted_of_not_free {m : Memory} {a : Nat} (h : m.isFree a = false) : m.unlisted a = 0#8 := by
  have : m.free.find? (·.span.contains a) = none := by
    simpa [Memory.isFree, List.find?_eq_none] using h
  simp [Memory.unlisted, this]

/-- What the canonical form says of each listed byte. -/
theorem Memory.wf_iff (m : Memory) :
    m.wf = true ↔ cellsRising m.cells = true ∧
      ∀ c ∈ m.cells, c.1 < Config.addrSpace ∧ (c.2 ≠ 0#8 ∨ m.isFree c.1 = true) := by
  simp [Memory.wf]

theorem Memory.reset_wf : State.reset.mem.wf = true := by decide

/-! ### Runs of bytes -/

@[simp] theorem Memory.readBytes_length (m : Memory) (a n : Nat) : (m.readBytes a n).length = n := by
  induction n generalizing a with
  | zero => rfl
  | succ n ih => simp [Memory.readBytes, ih]

theorem Memory.readBytes_getElem? (m : Memory) (a n i : Nat) :
    (m.readBytes a n)[i]? = if i < n then some (m.read (a + i)) else none := by
  induction n generalizing a i with
  | zero => simp [Memory.readBytes]
  | succ n ih =>
    cases i with
    | zero => simp [Memory.readBytes]
    | succ i => simp [Memory.readBytes, ih, Nat.add_assoc, Nat.add_comm 1 i]

/-- The bytes of a run, address by address. -/
theorem Memory.readBytes_eq_map (m : Memory) (a n : Nat) :
    m.readBytes a n = (List.range n).map fun k => m.read (a + k) := by
  refine List.ext_getElem? fun i => ?_
  rw [Memory.readBytes_getElem?, List.getElem?_map]
  by_cases h : i < n
  · simp [h]
  · simp [h]

theorem Memory.viewAt_readBytes (m : Memory) (a : Nat) {n i : Nat} (h : i < n) :
    viewAt (m.readBytes a n) i = m.read (a + i) := by
  rw [viewAt, List.getD, Memory.readBytes_getElem?, if_pos h]; rfl

/-- Two memories that agree on a run of addresses give the same bytes there. -/
theorem Memory.readBytes_congr {m m' : Memory} {a n : Nat}
    (h : ∀ b, a ≤ b → b < a + n → m.read b = m'.read b) : m.readBytes a n = m'.readBytes a n := by
  induction n generalizing a with
  | zero => rfl
  | succ n ih =>
    simp only [Memory.readBytes]
    rw [h a (Nat.le_refl a) (by omega), ih (fun b h1 h2 => h b (by omega) (by omega))]

@[simp] theorem Memory.writeBytes_free (m : Memory) (a : Nat) (bs : List Byte) :
    (m.writeBytes a bs).free = m.free := rfl

@[simp] theorem Memory.writeBytes_isFree (m : Memory) (a : Nat) (bs : List Byte) (b : Nat) :
    (m.writeBytes a bs).isFree b = m.isFree b := rfl

@[simp] theorem Memory.writeBytes_unlisted (m : Memory) (a : Nat) (bs : List Byte) (b : Nat) :
    (m.writeBytes a bs).unlisted b = m.unlisted b := rfl

/-- Every listed byte of a run is one of its addresses, and is not 0 outside the unspecified spans. -/
theorem Memory.mem_listed {m : Memory} {a : Nat} {bs : List Byte} {c : Host.Cell} (h : c ∈ m.listed a bs) :
    a ≤ c.1 ∧ c.1 < a + bs.length ∧ (c.2 ≠ 0#8 ∨ m.isFree c.1 = true) := by
  induction bs generalizing a with
  | nil => simp [Memory.listed] at h
  | cons b bs ih =>
    simp only [Memory.listed, List.length_cons] at h ⊢
    split at h
    · rename_i hb
      rcases List.mem_cons.mp h with rfl | h
      · refine ⟨Nat.le_refl _, by simp, ?_⟩
        rcases Bool.or_eq_true _ _ ▸ hb with hb | hb
        · exact .inr hb
        · exact .inl (by simpa using hb)
      · have := ih h; exact ⟨by omega, by omega, this.2.2⟩
    · have := ih h; exact ⟨by omega, by omega, this.2.2⟩

theorem Memory.listed_rising (m : Memory) (a : Nat) (bs : List Byte) : cellsRising (m.listed a bs) = true := by
  induction bs generalizing a with
  | nil => simp [Memory.listed]
  | cons b bs ih =>
    unfold Memory.listed
    split
    · have := ih (a + 1)
      rw [cellsRising_iff] at this ⊢
      refine List.pairwise_cons.mpr ⟨fun c hc => ?_, this⟩
      have := Memory.mem_listed hc
      show a < c.1; omega
    · exact ih _

theorem Memory.cellGet_listed_outside {m : Memory} {a k : Nat} {bs : List Byte} (h : ¬(a ≤ k ∧ k < a + bs.length)) :
    cellGet (m.listed a bs) k = none := by
  cases hg : cellGet (m.listed a bs) k with
  | none => rfl
  | some v =>
    have := Memory.mem_listed (cellGet_mem hg)
    exact absurd ⟨this.1, this.2.1⟩ h

theorem Memory.cellGet_listed_inside (m : Memory) (a i : Nat) (bs : List Byte) (h : i < bs.length) :
    cellGet (m.listed a bs) (a + i) =
      if m.isFree (a + i) || viewAt bs i != 0#8 then some (viewAt bs i) else none := by
  induction bs generalizing a i with
  | nil => simp at h
  | cons b bs ih =>
    have hcons : m.listed a (b :: bs) =
        if m.isFree a || b != 0#8 then (a, b) :: m.listed (a + 1) bs else m.listed (a + 1) bs := rfl
    cases i with
    | zero =>
      simp only [Nat.add_zero]
      rw [hcons, show viewAt (b :: bs) 0 = b by simp [viewAt, List.getD]]
      by_cases hb : (m.isFree a || b != 0#8) = true
      · rw [if_pos hb, if_pos hb, cellGet, if_pos rfl]
      · rw [if_neg hb, if_neg hb]
        exact Memory.cellGet_listed_outside (by omega)
    | succ i =>
      have e : a + (i + 1) = a + 1 + i := by omega
      have hv : viewAt (b :: bs) (i + 1) = viewAt bs i := by simp [viewAt, List.getD]
      rw [e, hv, ← ih (a + 1) i (by simpa using h), hcons]
      split
      · rw [cellGet, if_neg (by show ¬(a + 1 + i = a); omega)]
      · rfl

/-- A read after a run of bytes is stored: the byte stored at its address, the old byte outside the run. -/
theorem Memory.read_writeBytes (m : Memory) (a b : Nat) (bs : List Byte) :
    (m.writeBytes a bs).read b = if a ≤ b ∧ b < a + bs.length then viewAt bs (b - a) else m.read b := by
  have hcells : (m.writeBytes a bs).cells = (m.cells.filter fun c => decide (c.1 < a)) ++ m.listed a bs ++
      (m.cells.filter fun c => decide (a + bs.length ≤ c.1)) := rfl
  simp only [Memory.read, Memory.writeBytes_unlisted, hcells, cellGet_append,
    cellGet_filter m.cells (fun k => decide (k < a)), cellGet_filter m.cells (fun k => decide (a + bs.length ≤ k))]
  by_cases h : a ≤ b ∧ b < a + bs.length
  · obtain ⟨i, rfl⟩ : ∃ i, b = a + i := ⟨b - a, by omega⟩
    have h1 : ¬(a + i < a) := by omega
    have h2 : ¬(a + bs.length ≤ a + i) := by omega
    have h3 : a + i - a = i := by omega
    rw [if_pos h, Memory.cellGet_listed_inside m a i bs (by omega), h3]
    simp only [h1, h2, decide_false, Bool.false_eq_true, if_false]
    by_cases hc : (m.isFree (a + i) || viewAt bs i != 0#8) = true
    · simp only [hc, if_true]
    · obtain ⟨hf, hv⟩ : m.isFree (a + i) = false ∧ viewAt bs i = 0#8 := by simpa using hc
      simp only [hc]
      rw [hv]; exact Memory.unlisted_of_not_free hf
  · rw [if_neg h, Memory.cellGet_listed_outside h]
    by_cases h1 : b < a
    · have h2 : ¬(a + bs.length ≤ b) := by omega
      simp only [h1, h2, decide_true, decide_false, if_true, Bool.false_eq_true, if_false]
      cases cellGet m.cells b <;> rfl
    · have h2 : a + bs.length ≤ b := by omega
      simp only [h1, h2, decide_true, decide_false, if_true, Bool.false_eq_true, if_false]

theorem Memory.read_writeBytes_outside {m : Memory} {a b : Nat} {bs : List Byte}
    (h : ¬(a ≤ b ∧ b < a + bs.length)) : (m.writeBytes a bs).read b = m.read b := by
  rw [Memory.read_writeBytes, if_neg h]

/-- The bytes stored are the bytes read back. -/
theorem Memory.readBytes_writeBytes (m : Memory) (a : Nat) (bs : List Byte) :
    (m.writeBytes a bs).readBytes a bs.length = bs := by
  refine List.ext_getElem? fun i => ?_
  rw [Memory.readBytes_getElem?]
  by_cases h : i < bs.length
  · have : a ≤ a + i ∧ a + i < a + bs.length := by omega
    simp [h, Memory.read_writeBytes, viewAt, List.getD]
  · simp [h]

/-- A run inside the address space keeps the canonical form. -/
theorem Memory.writeBytes_wf {m : Memory} (h : m.wf = true) {a : Nat} {bs : List Byte}
    (ha : a + bs.length ≤ Config.addrSpace) : (m.writeBytes a bs).wf = true := by
  rw [Memory.wf_iff] at h ⊢
  refine ⟨cellsRising_append (cellsRising_append (cellsRising_filter _ h.1) (Memory.listed_rising m a bs) ?_)
    (cellsRising_filter _ h.1) ?_, ?_⟩
  · intro c hc d hd
    have h1 : c.1 < a := by simpa using (List.mem_filter.mp hc).2
    have h2 := Memory.mem_listed hd
    omega
  · intro c hc d hd
    have h2 : a + bs.length ≤ d.1 := by simpa using (List.mem_filter.mp hd).2
    rcases List.mem_append.mp hc with hc | hc
    · have h1 : c.1 < a := by simpa using (List.mem_filter.mp hc).2
      omega
    · have h1 := Memory.mem_listed hc
      omega
  · intro c hc
    rcases List.mem_append.mp hc with hc | hc
    · rcases List.mem_append.mp hc with hc | hc
      · exact h.2 c (List.mem_filter.mp hc).1
      · have h1 := Memory.mem_listed hc
        exact ⟨by omega, h1.2.2⟩
    · exact h.2 c (List.mem_filter.mp hc).1

/-! ### Unspecified bytes -/

/-- After a scramble the bytes of the span are the draw's free values and every other byte is as before. -/
theorem Memory.read_scramble (m : Memory) (sp : Config.Span) (d a : Nat) :
    (m.scramble sp d).read a = if sp.contains a then Config.freeByte d a else m.read a := by
  unfold Memory.scramble
  split
  · rename_i h
    have : sp.contains a = false := by rw [Config.Span.contains_eq_false_iff]; omega
    simp [this]
  · simp only [Memory.read, cellGet_filter m.cells (fun k => !sp.contains k)]
    cases hc : sp.contains a <;> simp [Memory.unlisted, hc]

theorem Memory.scramble_free_draw {m : Memory} {sp : Config.Span} {d : Nat} {f : FreeSpan}
    (h : f ∈ (m.scramble sp d).free) : f = ⟨d, sp⟩ ∨ f ∈ m.free := by
  unfold Memory.scramble at h
  split at h
  · exact .inr h
  · simpa using h

theorem Memory.scramble_wf {m : Memory} (h : m.wf = true) (sp : Config.Span) (d : Nat) :
    (m.scramble sp d).wf = true := by
  unfold Memory.scramble
  split
  · exact h
  · rw [Memory.wf_iff] at h ⊢
    refine ⟨cellsRising_filter _ h.1, fun c hc => ?_⟩
    have hm := h.2 c (List.mem_filter.mp hc).1
    refine ⟨hm.1, hm.2.imp id fun hf => ?_⟩
    simp only [Memory.isFree] at hf ⊢
    simp [hf]

end Machine
end Sys2Proof
end

