-- ==== Sys2Proof/Laws/State.lean ====
section
/-! SUPPORT. One lemma per field of each named update of the state, true by rfl, so that no proof unfolds one. -/

namespace Sys2Proof
namespace Machine

variable (s : State)

/-! `complete` -/

@[simp] theorem complete_cmd (r : Word) : (complete r s).cmd = s.cmd := rfl
@[simp] theorem complete_status (r : Word) : (complete r s).status = ⟨false, true, false⟩ := rfl
@[simp] theorem complete_errcode (r : Word) : (complete r s).errcode = .noError := rfl
@[simp] theorem complete_result (r : Word) : (complete r s).result = r := rfl
@[simp] theorem complete_opr (r : Word) : (complete r s).opr = s.opr := rfl
@[simp] theorem complete_irqEn (r : Word) : (complete r s).irqEn = s.irqEn := rfl
@[simp] theorem complete_ht (r : Word) : (complete r s).ht = s.ht := rfl
@[simp] theorem complete_xs (r : Word) : (complete r s).xs = s.xs := rfl
@[simp] theorem complete_mem (r : Word) : (complete r s).mem = s.mem := rfl
@[simp] theorem complete_plat (r : Word) : (complete r s).plat = s.plat := rfl
@[simp] theorem complete_agenda (r : Word) : (complete r s).agenda = s.agenda := rfl
@[simp] theorem complete_seen (r : Word) : (complete r s).seen = s.seen := rfl
@[simp] theorem complete_draws (r : Word) : (complete r s).draws = s.draws := rfl

/-! `raise` -/

@[simp] theorem raise_cmd (e : ErrorCode) : (raise e s).cmd = s.cmd := rfl
@[simp] theorem raise_status (e : ErrorCode) : (raise e s).status = ⟨false, true, true⟩ := rfl
@[simp] theorem raise_errcode (e : ErrorCode) : (raise e s).errcode = e := rfl
@[simp] theorem raise_result (e : ErrorCode) : (raise e s).result = 0#32 := rfl
@[simp] theorem raise_opr (e : ErrorCode) : (raise e s).opr = s.opr := rfl
@[simp] theorem raise_irqEn (e : ErrorCode) : (raise e s).irqEn = s.irqEn := rfl
@[simp] theorem raise_ht (e : ErrorCode) : (raise e s).ht = s.ht := rfl
@[simp] theorem raise_xs (e : ErrorCode) : (raise e s).xs = s.xs := rfl
@[simp] theorem raise_mem (e : ErrorCode) : (raise e s).mem = s.mem := rfl
@[simp] theorem raise_plat (e : ErrorCode) : (raise e s).plat = s.plat := rfl
@[simp] theorem raise_agenda (e : ErrorCode) : (raise e s).agenda = s.agenda := rfl
@[simp] theorem raise_seen (e : ErrorCode) : (raise e s).seen = s.seen := rfl
@[simp] theorem raise_draws (e : ErrorCode) : (raise e s).draws = s.draws := rfl

/-! `latchCommand` -/

@[simp] theorem latchCommand_cmd (w : Word) : (latchCommand w s).cmd = w := rfl
@[simp] theorem latchCommand_status (w : Word) : (latchCommand w s).status = ⟨true, false, false⟩ := rfl
@[simp] theorem latchCommand_errcode (w : Word) : (latchCommand w s).errcode = .noError := rfl
@[simp] theorem latchCommand_result (w : Word) : (latchCommand w s).result = s.result := rfl
@[simp] theorem latchCommand_opr (w : Word) : (latchCommand w s).opr = s.opr := rfl
@[simp] theorem latchCommand_irqEn (w : Word) : (latchCommand w s).irqEn = s.irqEn := rfl
@[simp] theorem latchCommand_ht (w : Word) : (latchCommand w s).ht = s.ht := rfl
@[simp] theorem latchCommand_xs (w : Word) : (latchCommand w s).xs = s.xs := rfl
@[simp] theorem latchCommand_mem (w : Word) : (latchCommand w s).mem = s.mem := rfl
@[simp] theorem latchCommand_plat (w : Word) : (latchCommand w s).plat = s.plat := rfl
@[simp] theorem latchCommand_agenda (w : Word) : (latchCommand w s).agenda = s.agenda := rfl
@[simp] theorem latchCommand_seen (w : Word) : (latchCommand w s).seen = s.seen := rfl
@[simp] theorem latchCommand_draws (w : Word) : (latchCommand w s).draws = s.draws := rfl

/-! `scrambleRegion` -/

@[simp] theorem scrambleRegion_cmd (sp : Config.Span) : (scrambleRegion sp s).cmd = s.cmd := rfl
@[simp] theorem scrambleRegion_status (sp : Config.Span) : (scrambleRegion sp s).status = s.status := rfl
@[simp] theorem scrambleRegion_errcode (sp : Config.Span) : (scrambleRegion sp s).errcode = s.errcode := rfl
@[simp] theorem scrambleRegion_result (sp : Config.Span) : (scrambleRegion sp s).result = s.result := rfl
@[simp] theorem scrambleRegion_opr (sp : Config.Span) : (scrambleRegion sp s).opr = s.opr := rfl
@[simp] theorem scrambleRegion_irqEn (sp : Config.Span) : (scrambleRegion sp s).irqEn = s.irqEn := rfl
@[simp] theorem scrambleRegion_ht (sp : Config.Span) : (scrambleRegion sp s).ht = s.ht := rfl
@[simp] theorem scrambleRegion_xs (sp : Config.Span) : (scrambleRegion sp s).xs = s.xs := rfl
@[simp] theorem scrambleRegion_mem (sp : Config.Span) : (scrambleRegion sp s).mem = s.mem.scramble sp s.draws := rfl
@[simp] theorem scrambleRegion_plat (sp : Config.Span) : (scrambleRegion sp s).plat = s.plat := rfl
@[simp] theorem scrambleRegion_agenda (sp : Config.Span) : (scrambleRegion sp s).agenda = s.agenda := rfl
@[simp] theorem scrambleRegion_seen (sp : Config.Span) : (scrambleRegion sp s).seen = s.seen := rfl
@[simp] theorem scrambleRegion_draws (sp : Config.Span) : (scrambleRegion sp s).draws = s.draws + 1 := rfl

/-! `scrambleTable` -/

@[simp] theorem scrambleTable_cmd : (scrambleTable s).cmd = s.cmd := rfl
@[simp] theorem scrambleTable_status : (scrambleTable s).status = s.status := rfl
@[simp] theorem scrambleTable_errcode : (scrambleTable s).errcode = s.errcode := rfl
@[simp] theorem scrambleTable_result : (scrambleTable s).result = s.result := rfl
@[simp] theorem scrambleTable_opr : (scrambleTable s).opr = s.opr := rfl
@[simp] theorem scrambleTable_irqEn : (scrambleTable s).irqEn = s.irqEn := rfl
@[simp] theorem scrambleTable_ht : (scrambleTable s).ht = .unspecified s.draws := rfl
@[simp] theorem scrambleTable_xs : (scrambleTable s).xs = s.xs := rfl
@[simp] theorem scrambleTable_mem : (scrambleTable s).mem = s.mem := rfl
@[simp] theorem scrambleTable_plat : (scrambleTable s).plat = s.plat := rfl
@[simp] theorem scrambleTable_agenda : (scrambleTable s).agenda = s.agenda := rfl
@[simp] theorem scrambleTable_seen : (scrambleTable s).seen = s.seen := rfl
@[simp] theorem scrambleTable_draws : (scrambleTable s).draws = s.draws + 1 := rfl

/-! `observe` -/

@[simp] theorem observe_cmd (o : Observation) : (observe o s).cmd = s.cmd := rfl
@[simp] theorem observe_status (o : Observation) : (observe o s).status = s.status := rfl
@[simp] theorem observe_errcode (o : Observation) : (observe o s).errcode = s.errcode := rfl
@[simp] theorem observe_result (o : Observation) : (observe o s).result = s.result := rfl
@[simp] theorem observe_opr (o : Observation) : (observe o s).opr = s.opr := rfl
@[simp] theorem observe_irqEn (o : Observation) : (observe o s).irqEn = s.irqEn := rfl
@[simp] theorem observe_ht (o : Observation) : (observe o s).ht = s.ht := rfl
@[simp] theorem observe_xs (o : Observation) : (observe o s).xs = s.xs := rfl
@[simp] theorem observe_mem (o : Observation) : (observe o s).mem = s.mem := rfl
@[simp] theorem observe_plat (o : Observation) : (observe o s).plat = s.plat := rfl
@[simp] theorem observe_agenda (o : Observation) : (observe o s).agenda = s.agenda := rfl
@[simp] theorem observe_seen (o : Observation) : (observe o s).seen = o :: s.seen := rfl
@[simp] theorem observe_draws (o : Observation) : (observe o s).draws = s.draws := rfl

/-! `assertReset` -/

@[simp] theorem assertReset_cmd : (assertReset s).cmd = 0#32 := rfl
@[simp] theorem assertReset_status : (assertReset s).status = ⟨false, false, false⟩ := rfl
@[simp] theorem assertReset_errcode : (assertReset s).errcode = .noError := rfl
@[simp] theorem assertReset_result : (assertReset s).result = 0#32 := rfl
@[simp] theorem assertReset_opr : (assertReset s).opr = State.reset.opr := rfl
@[simp] theorem assertReset_irqEn : (assertReset s).irqEn = false := rfl
@[simp] theorem assertReset_ht : (assertReset s).ht = .unspecified s.draws := rfl
@[simp] theorem assertReset_xs : (assertReset s).xs = State.reset.xs := rfl
@[simp] theorem assertReset_mem : (assertReset s).mem = memoryAfterReset s := rfl
@[simp] theorem assertReset_plat : (assertReset s).plat = s.plat := rfl
@[simp] theorem assertReset_agenda : (assertReset s).agenda = s.agenda := rfl
@[simp] theorem assertReset_seen : (assertReset s).seen = s.seen := rfl
@[simp] theorem assertReset_draws : (assertReset s).draws = s.draws + 1 := rfl

/-! `withCommandWord` -/

@[simp] theorem withCommandWord_cmd (w : Word) : (withCommandWord w s).cmd = w := rfl
@[simp] theorem withCommandWord_status (w : Word) : (withCommandWord w s).status = ⟨true, false, false⟩ := rfl
@[simp] theorem withCommandWord_errcode (w : Word) : (withCommandWord w s).errcode = .noError := rfl
@[simp] theorem withCommandWord_result (w : Word) : (withCommandWord w s).result = s.result := rfl
@[simp] theorem withCommandWord_opr (w : Word) : (withCommandWord w s).opr = s.opr := rfl
@[simp] theorem withCommandWord_irqEn (w : Word) : (withCommandWord w s).irqEn = s.irqEn := rfl
@[simp] theorem withCommandWord_ht (w : Word) : (withCommandWord w s).ht = s.ht := rfl
@[simp] theorem withCommandWord_xs (w : Word) : (withCommandWord w s).xs = s.xs := rfl
@[simp] theorem withCommandWord_mem (w : Word) : (withCommandWord w s).mem = s.mem := rfl
@[simp] theorem withCommandWord_plat (w : Word) : (withCommandWord w s).plat = s.plat := rfl
@[simp] theorem withCommandWord_agenda (w : Word) : (withCommandWord w s).agenda = .engine :: s.agenda := rfl
@[simp] theorem withCommandWord_seen (w : Word) : (withCommandWord w s).seen = s.seen := rfl
@[simp] theorem withCommandWord_draws (w : Word) : (withCommandWord w s).draws = s.draws := rfl

end Machine
end Sys2Proof
end

