-- ==== Sys2Proof/Laws/Table.lean ====
section
/-! SUPPORT. Laws of the hash table: read after write, the tables made entry by entry, and the canonical form. -/

namespace Sys2Proof
namespace Machine

@[simp] theorem HashTable.write_fill (t : HashTable) (i : Nat) (v : Word) : (t.write i v).fill = t.fill := by
  unfold HashTable.write; split <;> rfl

/-- A read after a write gives the value written at its index and the old entry everywhere else. -/
theorem HashTable.read_write (t : HashTable) (i j : Nat) (v : Word) :
    (t.write i v).read j = if j = i then v else t.read j := by
  by_cases h : (t.fill.isNone && v == 0#32) = true
  · obtain ⟨hf, rfl⟩ : t.fill = none ∧ v = 0 := by simpa using h
    have : t.write i 0#32 = { t with cells := cellDel t.cells i } := by simp [HashTable.write, hf]
    by_cases hj : j = i <;> simp [this, HashTable.read, cellGet_del, hj, HashTable.unlisted, hf]
  · have : t.write i v = { t with cells := cellPut t.cells i v } := by rw [HashTable.write, if_neg h]
    by_cases hj : j = i <;> simp [this, HashTable.read, cellGet_put, hj, HashTable.unlisted]

theorem HashTable.wf_iff (t : HashTable) :
    t.wf = true ↔ cellsRising t.cells = true ∧
      ∀ c ∈ t.cells, c.1 < Config.htSize ∧ (c.2 ≠ 0#32 ∨ t.fill.isSome = true) := by
  simp [HashTable.wf]

/-- A write at a table index keeps the canonical form. -/
theorem HashTable.write_wf {t : HashTable} (h : t.wf = true) {i : Nat} (hi : i < Config.htSize) (v : Word) :
    (t.write i v).wf = true := by
  rw [HashTable.wf_iff] at h ⊢
  by_cases hc : (t.fill.isNone && v == 0#32) = true
  · rw [HashTable.write, if_pos hc]
    exact ⟨cellsRising_del i h.1, fun c hm => h.2 c (mem_cellDel hm)⟩
  · rw [HashTable.write, if_neg hc]
    refine ⟨cellsRising_put i v h.1, fun c hm => ?_⟩
    rcases mem_cellPut hm with rfl | hm
    · refine ⟨hi, ?_⟩
      by_cases hv : v = 0#32
      · right; cases hf : t.fill <;> simp_all
      · exact .inl hv
    · exact h.2 c hm

/-- A sequence hash is a table index (41_match_finder.md R67). -/
theorem hashU32_lt (seq : Word) : hashU32 seq < Config.htSize := by
  have h := (seq * 0x9E3779B1).isLt
  rw [hashU32, BitVec.toNat_ushiftRight, Nat.shiftRight_eq_div_pow, Config.htSize]
  omega

theorem HashTable.read_insert (t : HashTable) (seq : Word) (p j : Nat) :
    (t.insert seq p).read j = if j = hashU32 seq then entryOf p else t.read j :=
  t.read_write (hashU32 seq) j (entryOf p)

@[simp] theorem HashTable.insert_fill (t : HashTable) (seq : Word) (p : Nat) : (t.insert seq p).fill = t.fill :=
  t.write_fill _ _

theorem HashTable.insert_wf {t : HashTable} (h : t.wf = true) (seq : Word) (p : Nat) : (t.insert seq p).wf = true :=
  HashTable.write_wf h (hashU32_lt seq) _

@[simp] theorem HashTable.zero_read (i : Nat) : HashTable.zero.read i = 0#32 := rfl

@[simp] theorem HashTable.unspecified_read (d i : Nat) : (HashTable.unspecified d).read i = Config.freeEntry d i := rfl

theorem HashTable.zero_wf : HashTable.zero.wf = true := by simp [HashTable.wf, HashTable.zero]

theorem HashTable.unspecified_wf (d : Nat) : (HashTable.unspecified d).wf = true := by
  simp [HashTable.wf, HashTable.unspecified]

/-! ### Tables made entry by entry -/

theorem cellGet_filterMap_keys (f : Nat → Word) (ks : List Nat) (k : Nat) :
    cellGet (ks.filterMap fun i => if f i = 0#32 then none else some (i, f i)) k =
      if k ∈ ks ∧ f k ≠ 0#32 then some (f k) else none := by
  induction ks with
  | nil => simp [cellGet]
  | cons i ks ih =>
    by_cases hi : f i = 0#32
    · rw [List.filterMap_cons_none (by simp [hi]), ih]
      by_cases hk : k = i
      · subst hk; simp [hi]
      · simp [hk]
    · rw [List.filterMap_cons_some (b := (i, f i)) (by simp [hi])]
      by_cases hk : k = i
      · subst hk; simp [cellGet, hi]
      · simp [cellGet, hk, ih]

theorem cellsRising_filterMap_range (f : Nat → Word) (n : Nat) :
    cellsRising ((List.range n).filterMap fun i => if f i = 0#32 then none else some (i, f i)) = true := by
  rw [cellsRising_iff]
  refine List.Pairwise.filterMap _ (fun i j hij c hc d hd => ?_) List.pairwise_lt_range
  simp only [Option.ite_none_left_eq_some, Option.some.injEq] at hc hd
  rw [← hc.2, ← hd.2]; exact hij

theorem mem_filterMap_range {f : Nat → Word} {n : Nat} {c : Nat × Word}
    (h : c ∈ (List.range n).filterMap fun i => if f i = 0#32 then none else some (i, f i)) :
    c.1 < n ∧ c.2 ≠ 0#32 := by
  obtain ⟨i, hi, hc⟩ := List.mem_filterMap.mp h
  simp only [Option.ite_none_left_eq_some, Option.some.injEq] at hc
  rw [← hc.2]
  exact ⟨List.mem_range.mp hi, hc.1⟩

/-- The table made of `f` holds `f i` at every table index. -/
theorem HashTable.read_ofEntries (f : Nat → Word) {i : Nat} (hi : i < Config.htSize) :
    (HashTable.ofEntries f).read i = f i := by
  have h := cellGet_filterMap_keys f (List.range Config.htSize) i
  rw [HashTable.read, HashTable.ofEntries, h]
  by_cases h0 : f i = 0#32
  · rw [if_neg (fun h => h.2 h0), h0]; rfl
  · rw [if_pos ⟨List.mem_range.mpr hi, h0⟩]

theorem HashTable.ofEntries_cells (f : Nat → Word) : (HashTable.ofEntries f).cells =
    (List.range Config.htSize).filterMap fun i => if f i = 0#32 then none else some (i, f i) := by
  rw [HashTable.ofEntries]

theorem HashTable.ofEntries_wf (f : Nat → Word) : (HashTable.ofEntries f).wf = true := by
  rw [HashTable.wf_iff, HashTable.ofEntries_cells]
  exact ⟨cellsRising_filterMap_range f _, fun c hc => ⟨(mem_filterMap_range hc).1, .inl (mem_filterMap_range hc).2⟩⟩

/-! ### Applying a function to every entry -/

theorem cellGet_eq_none_of_lt {l : List (Nat × Word)} {k : Nat} (h : ∀ c ∈ l, k < c.1) : cellGet l k = none := by
  cases hg : cellGet l k with
  | none => rfl
  | some v => exact absurd (h _ (cellGet_mem hg)) (Nat.lt_irrefl k)

theorem cellGet_filterMap_values (f : Word → Word) {l : List (Nat × Word)} (h : cellsRising l = true) (k : Nat) :
    cellGet (l.filterMap fun c => if f c.2 = 0#32 then none else some (c.1, f c.2)) k =
      (cellGet l k).bind fun v => if f v = 0#32 then none else some (f v) := by
  induction l with
  | nil => simp [cellGet]
  | cons c rest ih =>
    rw [cellsRising_iff, List.pairwise_cons, ← cellsRising_iff] at h
    by_cases hc : f c.2 = 0#32
    · rw [List.filterMap_cons_none (by simp [hc]), ih h.2]
      by_cases hk : k = c.1
      · subst hk; simp [cellGet, hc, cellGet_eq_none_of_lt h.1]
      · simp [cellGet, hk]
    · rw [List.filterMap_cons_some (b := (c.1, f c.2)) (by simp [hc])]
      by_cases hk : k = c.1
      · subst hk; simp [cellGet, hc]
      · simp [cellGet, hk, ih h.2]

/-- Applying `f`, which keeps 0, to a table in canonical form applies it to every entry. -/
theorem HashTable.read_map {f : Word → Word} (hf : f 0#32 = 0#32) {t : HashTable} (h : t.wf = true) {i : Nat}
    (hi : i < Config.htSize) : (t.map f).read i = f (t.read i) := by
  cases ht : t.fill with
  | some d => simp only [HashTable.map, ht]; exact HashTable.read_ofEntries _ hi
  | none =>
    simp only [HashTable.map, ht, HashTable.read, cellGet_filterMap_values f (t.wf_iff.mp h).1, HashTable.unlisted]
    cases cellGet t.cells i with
    | none => simpa using hf.symm
    | some v => by_cases hv : f v = 0#32 <;> simp [hv]

theorem HashTable.map_wf (f : Word → Word) {t : HashTable} (h : t.wf = true) : (t.map f).wf = true := by
  cases ht : t.fill with
  | some d => simp only [HashTable.map, ht]; exact HashTable.ofEntries_wf _
  | none =>
    simp only [HashTable.map, ht]
    rw [HashTable.wf_iff, cellsRising_iff] at h ⊢
    refine ⟨?_, fun c hc => ?_⟩
    · refine List.Pairwise.filterMap _ (fun a b hab c hc d hd => ?_) h.1
      simp only [Option.ite_none_left_eq_some, Option.some.injEq] at hc hd
      rw [← hc.2, ← hd.2]; exact hab
    · obtain ⟨a, ha, hc⟩ := List.mem_filterMap.mp hc
      simp only [Option.ite_none_left_eq_some, Option.some.injEq] at hc
      rw [← hc.2]
      exact ⟨(h.2 a ha).1, .inl hc.1⟩

@[simp] theorem shiftEntry_zero (k : Word) : shiftEntry k 0#32 = 0#32 := by
  rcases Nat.eq_zero_or_pos k.toNat with h | h
  · simp [shiftEntry, h]
  · simp [shiftEntry]; omega

/-! ### Warming, loading -/

theorem HashTable.warm_fill (t : HashTable) (w : List Byte) (p : Nat) : (t.warm w p).fill = t.fill := by
  induction t, w, p using HashTable.warm.induct with
  | case1 t p b0 b1 b2 b3 rest ih => rw [HashTable.warm, ih, HashTable.insert_fill]
  | case2 t w p h => rw [HashTable.warm]; exact h

theorem HashTable.warm_wf {t : HashTable} (h : t.wf = true) (w : List Byte) (p : Nat) : (t.warm w p).wf = true := by
  induction t, w, p using HashTable.warm.induct with
  | case1 t p b0 b1 b2 b3 rest ih => rw [HashTable.warm]; exact ih (HashTable.insert_wf h _ _)
  | case2 t w p h' => rw [HashTable.warm]; exacts [h, h']

theorem HashTable.read_load (m : Memory) (a : Nat) {i : Nat} (hi : i < Config.htSize) :
    (HashTable.load m a).read i = m.readWord (a + 4 * i) :=
  HashTable.read_ofEntries _ hi

theorem HashTable.snapshot_length (t : HashTable) : t.snapshot.length = Config.snapshotSize := by
  have key (n : Nat) : ((List.range n).flatMap fun i => le32Bytes (t.read i)).length = 4 * n := by
    induction n with
    | zero => rfl
    | succ n ih => rw [List.range_succ, List.flatMap_append, List.length_append, ih]; simp [le32Bytes]; omega
  exact key Config.htSize

end Machine
end Sys2Proof
end

