-- ==== Sys2Proof/Laws/Commands.lean ====
section
/-! SUPPORT. What the start of a command and the end of a compress command can do, said once; and that every command
answers a next state when its regions are ordinary memory. -/

namespace Sys2Proof
namespace Machine

/-- The start of a command: a protocol violation, an error completion, or the body. -/
theorem checked_cases (i : Instr) (s : State) (body : State → Host.Outcome State Fault Refusal) :
    (regionViolation i s = true ∧ checked i s body = .fault .regionNotOrdinary) ∨
    (∃ e, regionViolation i s = false ∧ startError i s = some e ∧ checked i s body = .next (raise e s)) ∨
    (regionViolation i s = false ∧ startError i s = none ∧ checked i s body = body s) := by
  unfold checked
  cases hv : regionViolation i s
  · cases he : startError i s with
    | none => exact .inr (.inr ⟨rfl, rfl, by simp⟩)
    | some e => exact .inr (.inl ⟨e, rfl, rfl, by simp⟩)
  · exact .inl ⟨rfl, by simp⟩

theorem checked_of_passes {i : Instr} {s : State} (hv : regionViolation i s = false) (he : startError i s = none)
    (body : State → Host.Outcome State Fault Refusal) : checked i s body = body s := by
  simp [checked, hv, he]

/-- The errors found at the start of a command are exactly those of 60_exceptions.md R123. -/
theorem startError_eq_none_iff (i : Instr) (s : State) :
    startError i s = none ↔
      operandInvalid i s.opr = false ∧ sizeError i s.opr = none ∧ (regions i s.opr).any s.plat.unbacked = false := by
  unfold startError
  cases operandInvalid i s.opr
  · cases sizeError i s.opr with
    | some e => simp
    | none => cases (regions i s.opr).any s.plat.unbacked <;> simp
  · simp

/-- The operand checks pass exactly when those of R119 do and every region ends within the address space. -/
theorem operandInvalid_eq_false_iff (i : Instr) (o : OperandRegs) :
    operandInvalid i o = false ↔
      tableCheckFails i o = false ∧ ∀ sp ∈ regions i o, sp.stop ≤ Config.addrSpace := by
  simp [operandInvalid, regionTooFar]

/-- For every other command the operand checks of R119 alone keep the regions within the address space. -/
theorem region_stop_le_of_table {i : Instr} {o : OperandRegs} (h : tableCheckFails i o = false) (hs : i ≠ .htSave)
    (hl : i ≠ .htLoad)
    {sp : Config.Span} (hsp : sp ∈ regions i o) : sp.stop ≤ Config.addrSpace := by
  have hw : o.dictWindowLen ≤ o.dictLen.toNat := Nat.min_le_left _ _
  cases i <;> (try contradiction) <;>
    simp only [tableCheckFails, OperandRegs.srcTooFar, OperandRegs.dictTooFar, OperandRegs.dstInvalid,
      Bool.or_eq_false_iff, decide_eq_false_iff_not] at h <;>
    simp only [regions, readRegions, writeRegion, Option.toList, List.append_nil,
      List.mem_cons, List.mem_append, List.not_mem_nil, or_false] at hsp <;>
    (try rcases hsp with rfl | rfl | rfl | rfl) <;>
    (try rcases hsp with (rfl | rfl | rfl) | rfl) <;>
    simp only [Config.Span.stop, OperandRegs.srcSpan, OperandRegs.srcHistorySpan, OperandRegs.dstSpan,
      OperandRegs.dictSpan, OperandRegs.dictWindowSpan, OperandRegs.historySpan,
      Config.addrSpace] at * <;>
    omega

/-- Only a snapshot's region can end above 2^32 where the operand checks of R119 pass. -/
theorem operandInvalid_eq_tableCheckFails {i : Instr} (o : OperandRegs) (hs : i ≠ .htSave) (hl : i ≠ .htLoad) :
    operandInvalid i o = tableCheckFails i o := by
  cases h : tableCheckFails i o with
  | true => simp [operandInvalid, h]
  | false =>
    refine (operandInvalid_eq_false_iff i o).mpr ⟨h, fun sp hsp => region_stop_le_of_table h hs hl hsp⟩

/-- Where the operand checks pass, every region ends within the address space. -/
theorem region_stop_le {i : Instr} {o : OperandRegs} (h : operandInvalid i o = false)
    {sp : Config.Span} (hsp : sp ∈ regions i o) : sp.stop ≤ Config.addrSpace :=
  ((operandInvalid_eq_false_iff i o).mp h).2 sp hsp

/-- The start checks pass where operands and sizes pass and every byte of the regions is backed ordinary memory. -/
theorem start_of_addresses {i : Instr} {s : State} (ho : operandInvalid i s.opr = false)
    (hz : sizeError i s.opr = none)
    (hr : ∀ sp ∈ regions i s.opr, ∀ a, sp.contains a = true → s.plat.memOk a = true ∧ s.plat.ordinary a = true) :
    regionViolation i s = false ∧ startError i s = none := by
  have hn : (regions i s.opr).any s.plat.notOrdinary = false := by
    rw [List.any_eq_false]
    intro sp hsp h
    obtain ⟨a, hc, hf⟩ := (s.plat.notOrdinary_iff sp).mp h
    simp [(hr sp hsp a hc).2] at hf
  have hb : (regions i s.opr).any s.plat.unbacked = false := by
    rw [List.any_eq_false]
    intro sp hsp h
    obtain ⟨a, hc, hf⟩ := (s.plat.unbacked_iff sp (region_stop_le ho hsp)).mp h
    simp [(hr sp hsp a hc).1] at hf
  exact ⟨by simp [regionViolation, hn], (startError_eq_none_iff i s).mpr ⟨ho, hz, hb⟩⟩

/-- The converse, from the checks the machine evaluates to every address. -/
theorem addresses_of_start {i : Instr} {s : State} (hv : regionViolation i s = false) (he : startError i s = none) :
    operandInvalid i s.opr = false ∧ sizeError i s.opr = none ∧
      ∀ sp ∈ regions i s.opr, ∀ a, sp.contains a = true → s.plat.memOk a = true ∧ s.plat.ordinary a = true := by
  obtain ⟨ho, hz, hb⟩ := (startError_eq_none_iff i s).mp he
  have hn : (regions i s.opr).any s.plat.notOrdinary = false := by simpa [regionViolation, ho, hz] using hv
  refine ⟨ho, hz, fun sp hsp a hc => ?_⟩
  rw [List.any_eq_false] at hb hn
  refine ⟨?_, ?_⟩
  · cases h : s.plat.memOk a
    · exact absurd ((s.plat.unbacked_iff sp (region_stop_le ho hsp)).mpr ⟨a, hc, h⟩) (hb sp hsp)
    · rfl
  · cases h : s.plat.ordinary a
    · exact absurd ((s.plat.notOrdinary_iff sp).mpr ⟨a, hc, h⟩) (hn sp hsp)
    · rfl

/-- The end of a compress command: the block and the table, or `OUTPUT_BUFFER_TOO_SMALL` (42_block_compressor.md R88). -/
theorem finishCompress_cases (r : Block × HashTable) (s : State) :
    (s.opr.dstSpan.len < r.1.bytes.length ∧
      finishCompress r s =
        .next (raise .outputBufferTooSmall (scrambleTable (scrambleRegion s.opr.dstSpan s)))) ∨
    (r.1.bytes.length ≤ s.opr.dstSpan.len ∧
      finishCompress r s = .next (complete (BitVec.ofNat 32 r.1.bytes.length)
        { s with ht := r.2, mem := s.mem.writeBytes s.opr.dstSpan.base r.1.bytes })) := by
  unfold finishCompress
  by_cases h : s.opr.dstSpan.len < r.1.bytes.length
  · exact .inl ⟨h, if_pos h⟩
  · exact .inr ⟨Nat.le_of_not_lt h, if_neg h⟩

end Machine
end Sys2Proof
end

