-- ==== Sys2Proof/Laws/HostPort.lean ====
section
/-! SUPPORT. What one step, one register access and one host memory access can do, said once. -/

namespace Sys2Proof
namespace Machine

/-! ### Which register an access reaches -/

theorem regAt_of_mem {off : Nat} {r : Reg} (h : (off, r) ∈ windowMap) : regAt off 4 = .next r := by
  simp only [windowMap, List.mem_cons, Prod.mk.injEq, List.not_mem_nil, or_false] at h
  rcases h with h | h | h | h | h | h | h | h | h | h | h | h | h | h | h | h <;> obtain ⟨rfl, rfl⟩ := h <;> rfl

/-- A register access answers a register, is a protocol violation (70_reset_and_hazards.md R141), or is the platform's. -/
theorem regAt_cases (off width : Nat) :
    (∃ r, (off, r) ∈ windowMap ∧ width = 4 ∧ regAt off width = .next r) ∨
    (off < Config.windowSize ∧ regAt off width = .fault .badRegisterAccess) ∨
    (Config.windowSize ≤ off ∧ regAt off width = .refused .outsideWindow) := by
  unfold regAt
  by_cases h : Config.windowSize ≤ off
  · exact .inr (.inr ⟨h, if_pos h⟩)
  · rw [if_neg h]
    have hlt := Nat.lt_of_not_le h
    by_cases hw : wellFormedAccess off width = true
    · rw [if_pos hw]
      cases hl : windowMap.lookup off with
      | some r =>
        refine .inl ⟨r, ?_, ?_, rfl⟩
        · simp only [List.lookup_eq_some_iff] at hl
          obtain ⟨l1, l2, he, -⟩ := hl
          rw [he]; simp
        · simp only [wellFormedAccess, Bool.and_eq_true, beq_iff_eq] at hw
          exact hw.1.1
      | none => exact .inr (.inl ⟨hlt, rfl⟩)
    · exact .inr (.inl ⟨hlt, if_neg hw⟩)

/-! ### The running command -/

theorem decode_isOk_iff (w : Word) : (∃ i, decode w = .ok i) ↔ wellFormedCommand w = true := by
  unfold decode wellFormedCommand
  by_cases h : rsvdField w = 0
  · cases hl : opcodeTable.lookup (opcodeField w) with
    | some i =>
      have hm : opcodeField w ∈ definedOpcodes := by
        rw [List.lookup_eq_some_iff] at hl
        obtain ⟨l1, l2, he, -⟩ := hl
        have hk : opcodeField w ∈ opcodeTable.map Prod.fst := by rw [he]; simp
        exact hk
      simp [h, hm]
    | none =>
      have hm : opcodeField w ∉ definedOpcodes := by
        rw [List.lookup_eq_none_iff] at hl
        intro hk
        have hk' : opcodeField w ∈ opcodeTable.map Prod.fst := hk
        obtain ⟨p, hp, he⟩ := List.mem_map.mp hk'
        have := hl p hp
        simp [he] at this
      simp [h, hm]
  · have h' : rsvdField w ≠ 0#24 := h
    simp [h']

theorem runningCommand_of_idle {s : State} (h : s.status.busy = false) : runningCommand s = none := by
  simp [runningCommand, h]

theorem runningCommand_of_busy {s : State} {i : Instr} (h : s.status.busy = true) (hd : decode s.cmd = .ok i) :
    runningCommand s = some i := by
  simp [runningCommand, h, hd, Except.toOption]

/-! ### Host memory accesses -/

/-- A host memory read: a protocol violation, the platform's, or an observation and at most one draw. -/
theorem hostRead_cases (a n : Nat) (s : State) :
    hostRead a n s = .fault .badRegisterAccess ∨ hostRead a n s = .refused .platformAddress ∨
    ∃ bs d, hostRead a n s = .next { observe (.bytes a bs) s with draws := d } ∧ s.draws ≤ d := by
  unfold hostRead
  split
  · exact .inl rfl
  · split
    · exact .inr (.inl rfl)
    · split
      · exact .inr (.inr ⟨_, s.draws + 1, rfl, by omega⟩)
      · exact .inr (.inr ⟨_, s.draws, rfl, Nat.le_refl _⟩)

/-- A host memory write: a protocol violation, the platform's, or the bytes stored, all of them at 32-bit addresses. -/
theorem hostWrite_cases (a : Nat) (bs : List Byte) (s : State) :
    hostWrite a bs s = .fault .badRegisterAccess ∨ hostWrite a bs s = .fault .regionWriteWhileBusy ∨
    hostWrite a bs s = .refused .platformAddress ∨
    (a + bs.length ≤ Config.addrSpace ∧ hostWrite a bs s = .next { s with mem := s.mem.writeBytes a bs }) := by
  unfold hostWrite
  split
  · exact .inl rfl
  · split
    · exact .inr (.inl rfl)
    · split
      · exact .inr (.inr (.inl rfl))
      · rename_i h
        refine .inr (.inr (.inr ⟨?_, rfl⟩))
        simp only [platformAccess, Bool.or_eq_true, not_or, decide_eq_true_eq] at h
        exact Nat.le_of_not_lt h.1.1

/-! ### One step -/

theorem step_host {s : State} {a : HostAction} {rest : List Turn} (h : s.agenda = .host a :: rest) :
    step s = hostAction a { s with agenda := rest } := by
  simp [step, takeTurn, h]

theorem step_engine {s : State} {rest : List Turn} (h : s.agenda = .engine :: rest) :
    step s = engineTurn { s with agenda := rest } := by
  simp [step, takeTurn, h]

theorem step_empty {s : State} (h : s.agenda = []) : step s = engineTurn s := by
  simp [step, takeTurn, h]

/-- A step is the engine's turn or one host action, on the state whose agenda has lost that turn. -/
theorem step_cases (s : State) :
    (∃ rest, (s.agenda = .engine :: rest ∨ (s.agenda = [] ∧ rest = [])) ∧
      step s = engineTurn { s with agenda := rest }) ∨
    ∃ a rest, s.agenda = .host a :: rest ∧ step s = hostAction a { s with agenda := rest } := by
  cases ha : s.agenda with
  | nil =>
    refine .inl ⟨[], .inr ⟨rfl, rfl⟩, ?_⟩
    rw [step_empty ha, ← ha]
  | cons turn rest =>
    cases turn with
    | engine => exact .inl ⟨rest, .inl rfl, step_engine ha⟩
    | host a => exact .inr ⟨a, rest, rfl, step_host ha⟩

end Machine
end Sys2Proof
end

