-- ==== Sys2Proof/Laws/PerInstr.lean ====
section
/-! SUPPORT. Statements made of every instruction, one lemma a constructor. -/

namespace Sys2Proof
namespace Laws
namespace EncodedWord

/-- The word of a command is well formed and fits its opcode byte (30_encoding.md R37). -/
def Statement (i : Instr) : Prop := wellFormedCommand (encode i) = true ∧ (encode i).toNat < 256

theorem xxh32Oneshot : Statement .xxh32Oneshot := by unfold Statement; decide
theorem xxh32Reset : Statement .xxh32Reset := by unfold Statement; decide
theorem xxh32Update : Statement .xxh32Update := by unfold Statement; decide
theorem xxh32Digest : Statement .xxh32Digest := by unfold Statement; decide
theorem htClear : Statement .htClear := by unfold Statement; decide
theorem htShift : Statement .htShift := by unfold Statement; decide
theorem htWarm : Statement .htWarm := by unfold Statement; decide
theorem htSave : Statement .htSave := by unfold Statement; decide
theorem htLoad : Statement .htLoad := by unfold Statement; decide
theorem compressBlock : Statement .compressBlock := by unfold Statement; decide
theorem compressBlockExt : Statement .compressBlockExt := by unfold Statement; decide
theorem decompressBlock : Statement .decompressBlock := by unfold Statement; decide

end EncodedWord
end Laws
end Sys2Proof
end

