-- ==== Sys2Proof/Laws/Xxhash.lean ====
section
/-! SUPPORT. Laws of the incremental xxHash32 context: the reset context is that of seed 0, and every update keeps the context
consistent. -/

namespace Sys2Proof
namespace Machine

/-- The context of `State.reset` is the one `XXH32_RESET` gives for seed 0 (70_reset_and_hazards.md R135). -/
theorem XxhContext.reset_eq_init : State.reset.xs = XxhContext.init 0 := by decide

theorem XxhContext.wf_iff (x : XxhContext) :
    x.wf = true ↔ x.mem.length = x.total.toNat % 16 ∧
      (x.large = true ∨ (x.total.toNat < 16 ∧ x.accumulators = xxhInit x.seed)) := by
  simp [XxhContext.wf]

theorem XxhContext.init_wf (s : Word) : (XxhContext.init s).wf = true := by
  simp [XxhContext.wf_iff, XxhContext.init, XxhContext.accumulators]

/-- Stripes are taken one after the other: `n + m` stripes are `n` stripes, then `m` of the rest. -/
theorem xxhStripes_add (n m : Nat) (a : Accumulators) (d : List Byte) :
    xxhStripes (n + m) a d = xxhStripes m (xxhStripes n a d) (d.drop (16 * n)) := by
  induction n generalizing a d with
  | zero => simp [xxhStripes]
  | succ n ih =>
    have h : n + 1 + m = n + m + 1 := by omega
    have h' : 16 * (n + 1) = 16 + 16 * n := by omega
    rw [h, h', xxhStripes, ih, xxhStripes, List.drop_drop]

@[simp] theorem XxhContext.update_seed (x : XxhContext) (d : List Byte) : (x.update d).seed = x.seed := rfl

@[simp] theorem XxhContext.update_total (x : XxhContext) (d : List Byte) :
    (x.update d).total = x.total + BitVec.ofNat 32 d.length := rfl

@[simp] theorem XxhContext.update_mem (x : XxhContext) (d : List Byte) :
    (x.update d).mem = (x.mem ++ d).drop (16 * ((x.mem ++ d).length / 16)) := rfl

@[simp] theorem XxhContext.update_accumulators (x : XxhContext) (d : List Byte) :
    (x.update d).accumulators = xxhStripes ((x.mem ++ d).length / 16) x.accumulators (x.mem ++ d) := rfl

/-- The long path is taken exactly when the total, counted without wrap, has reached 16 bytes. -/
theorem XxhContext.update_large (x : XxhContext) (d : List Byte) :
    (x.update d).large = (x.large || decide (16 ≤ d.length) ||
      decide (16 ≤ (x.total + BitVec.ofNat 32 d.length).toNat)) := rfl

theorem XxhContext.update_wf {x : XxhContext} (h : x.wf = true) (d : List Byte) : (x.update d).wf = true := by
  rw [wf_iff] at h ⊢
  obtain ⟨hm, hl⟩ := h
  refine ⟨?_, ?_⟩
  · simp only [update_mem, update_total, List.length_drop, List.length_append, hm, BitVec.toNat_add,
      BitVec.toNat_ofNat]
    omega
  · rw [update_large]
    rcases hl with hl | ⟨ht, ha⟩
    · exact .inl (by simp [hl])
    · by_cases hlong : 16 ≤ d.length ∨ 16 ≤ (x.total + BitVec.ofNat 32 d.length).toNat
      · refine .inl ?_
        simp only [Bool.or_eq_true, decide_eq_true_eq, or_assoc]
        exact .inr hlong
      · rw [not_or] at hlong
        refine .inr ⟨by rw [update_total]; omega, ?_⟩
        have hsum : (x.total + BitVec.ofNat 32 d.length).toNat = x.total.toNat + d.length := by
          rw [BitVec.toNat_add, BitVec.toNat_ofNat]; omega
        have hz : (x.mem ++ d).length / 16 = 0 := by
          rw [List.length_append, hm]; omega
        rw [update_accumulators, hz, update_seed, ← ha, xxhStripes]

end Machine
end Sys2Proof
end

