-- ==== Sys2Proof/Tests/Slice0.lean ====
section
/-! SUPPORT. Small tests of the model, their expected results taken from the spec's own vectors (95_test_vectors.md) and rules,
and a witness for every statement that has hypotheses. -/

namespace Sys2Proof
namespace Tests

open Sys2Proof.Machine

/-! ### Small states -/

/-- The machine after reset, its hash table cleared. -/
def idle : State := { State.reset with ht := .zero }

/-- `idle` with operand registers and memory bytes. -/
def loaded (o : OperandRegs) (cells : List Host.Cell) : State := { idle with opr := o, mem := ⟨cells, []⟩ }

/-- Bytes from an address on, as cells; none of them 0. -/
def cellsAt : Nat → List Byte → List Host.Cell
  | _, [] => []
  | a, b :: bs => (a, b) :: cellsAt (a + 1) bs

/-- The running command `i`, with nothing pending. -/
def running (i : Instr) (o : OperandRegs) : State :=
  { idle with cmd := encode i, status := ⟨true, false, false⟩, opr := o }

/-- `s` with the turns to come. -/
def asked (s : State) (turns : List Turn) : State := { s with agenda := turns }

/-- The next state, or the state after reset where there is none. -/
def after (o : Host.Outcome State Fault Refusal) : State :=
  match o with
  | .next t => t
  | .fault _ => State.reset
  | .refused _ => State.reset

/-- Why a step stops, if it does. -/
def stopOf (o : Host.Outcome State Fault Refusal) : Option (Fault ⊕ Refusal) :=
  match o with
  | .next _ => none
  | .fault f => some (.inl f)
  | .refused r => some (.inr r)

/-- Source at 0x1000, destination at 0x2000 with a capacity of 64 bytes, dictionary at 0x3000. -/
def opsFor (srcStart srcLen dstOff dictLen param : Word) : OperandRegs :=
  ⟨0x1000, srcStart, srcLen, 0x2000, 64, dstOff, 0x3000, dictLen, param⟩

/-- Every operand register 0. -/
def noOps : OperandRegs := ⟨0, 0, 0, 0, 0, 0, 0, 0, 0⟩

/-- `RESULT` after running a command. -/
def resultOf (i : Instr) (s : State) : Nat := (after (exec i s)).result.toNat

/-- `ERRCODE` after running a command. -/
def errorOf (i : Instr) (s : State) : ErrorCode := (after (exec i s)).errcode

/-- The bytes at the destination after running a command. -/
def outputOf (i : Instr) (s : State) (n : Nat) : List Byte := (after (exec i s)).mem.readBytes 0x2000 n

/-! ### Well-formedness: one ill-formed word or access for each check -/

/-- 95_test_vectors.md Q5: reserved bit 8 is set. -/
theorem test_wf_refuses_reserved_bit : wellFormedCommand 0x00000130 = false ∧
    decode 0x00000130 = .error (.reservedBitsSet 1) := by decide

/-- Q3, Q4, and the last undefined opcode of 30_encoding.md R38. -/
theorem test_wf_refuses_undefined_opcode :
    (wellFormedCommand 0x00 = false ∧ decode 0x00 = .error (.undefinedOpcode 0x00)) ∧
    (wellFormedCommand 0x06 = false ∧ decode 0x06 = .error (.undefinedOpcode 0x06)) ∧
    (wellFormedCommand 0xFF = false ∧ decode 0xFF = .error (.undefinedOpcode 0xFF)) := by decide

/-- 20_memory.md R29: the width, the alignment and the window. -/
theorem test_wf_refuses_bad_access :
    wellFormedAccess 0x04 1 = false ∧ wellFormedAccess 0x06 4 = false ∧ wellFormedAccess 0x40 4 = false ∧
    wellFormedAccess 0x3C 4 = true := by decide

/-! ### Decoding: each word written out bit by bit from 30_encoding.md R37 -/

theorem test_decode_xxhash32 :
    decode 0b00000000000000000000000000110000 = .ok .xxh32Oneshot ∧
    decode 0b00000000000000000000000000110001 = .ok .xxh32Reset ∧
    decode 0b00000000000000000000000000110010 = .ok .xxh32Update ∧
    decode 0b00000000000000000000000000110011 = .ok .xxh32Digest := by decide

theorem test_decode_match_finder :
    decode 0b00000000000000000000000000000001 = .ok .htClear ∧
    decode 0b00000000000000000000000000000010 = .ok .htShift ∧
    decode 0b00000000000000000000000000000011 = .ok .htWarm ∧
    decode 0b00000000000000000000000000000100 = .ok .htSave ∧
    decode 0b00000000000000000000000000000101 = .ok .htLoad := by decide

theorem test_decode_block_compressor :
    decode 0b00000000000000000000000000010000 = .ok .compressBlock ∧
    decode 0b00000000000000000000000000010001 = .ok .compressBlockExt := by decide

theorem test_decode_block_decompressor :
    decode 0b00000000000000000000000000100000 = .ok .decompressBlock := by decide

/-- The words of spec/opcode_table.json, as the table numbers their bits. -/
theorem test_decode_table_words :
    [48, 49, 50, 51, 1, 2, 3, 4, 5, 16, 17, 32].map (decodeTableWord 32) =
      [some .xxh32Oneshot, some .xxh32Reset, some .xxh32Update, some .xxh32Digest, some .htClear, some .htShift,
        some .htWarm, some .htSave, some .htLoad, some .compressBlock, some .compressBlockExt,
        some .decompressBlock] := by decide

/-- The word placed by `withFetchWord` is the first thing that runs after reset, for every row of the table. -/
theorem test_fetch_word_runs :
    [48, 49, 50, 51, 1, 2, 3, 4, 5, 16, 17, 32].map (fun w => (after (step (State.reset.withFetchWord 32 w))).cmd) =
      [48, 49, 50, 51, 1, 2, 3, 4, 5, 16, 17, 32] := by decide

/-! ### xxHash32 -/

/-- "test" at 0x1000. -/
def testWord : List Host.Cell := cellsAt 0x1000 [0x74, 0x65, 0x73, 0x74]

/-- S1 and H5; H6 with seed 1. -/
theorem test_oneshot : resultOf .xxh32Oneshot (loaded (opsFor 0 4 0 0 0) testWord) = 1042293711 ∧
    resultOf .xxh32Oneshot (loaded (opsFor 0 4 0 0 1) testWord) = 0xF782311E := by decide

/-- H10: one stripe and one tail byte; H1: the empty input. -/
theorem test_oneshot_stripe : xxh32 [0, 1, 2, 3, 4, 5, 6, 7, 8, 9, 10, 11, 12, 13, 14, 15, 16] 0 = 0x7C77ADC2 ∧
    xxh32 [] 0 = 0x02CC5D05 := by decide

/-- H16: reset with seed 7, then digest. -/
theorem test_reset_digest :
    resultOf .xxh32Digest (after (exec .xxh32Reset (loaded (opsFor 0 0 0 0 7) []))) = 0xD7ADAFF8 := by decide

/-- H17: digest straight after reset. -/
theorem test_digest_after_reset : resultOf .xxh32Digest State.reset = 0x02CC5D05 := by decide

/-- H18: "te" then "st". -/
theorem test_update :
    (after (exec .xxh32Update { after (exec .xxh32Update (loaded (opsFor 0 2 0 0 0) testWord)) with
      opr := opsFor 2 2 0 0 0 })).xs =
    ⟨0, 0x24234428, 0x85EBCA77, 0, 0x61C8864F, 4, false, [0x74, 0x65, 0x73, 0x74]⟩ := by decide

/-- H20: the region passes the end of the address space. -/
theorem test_update_refused :
    errorOf .xxh32Update (loaded ⟨0xFFFFFFFF, 0, 2, 0, 0, 0, 0, 0, 0⟩ []) = .invalidOperand := by decide

/-! ### Match finder -/

/-- Hashes of the table of 95_test_vectors.md section 2.2. -/
theorem test_hash : hashU32 0x01 = 10125 ∧ hashU32 0x74736574 = 7338 ∧ hashU32 0x6C6C6548 = 6482 ∧
    hashU32 0xFFFFFFFF = 6258 ∧ hashU32 0x33323130 = 5136 := by decide

/-- T1. -/
theorem test_clear : (after (exec .htClear State.reset)).ht = .zero ∧ resultOf .htClear State.reset = 0 := by decide

/-- T2. -/
theorem test_shift : (after (exec .htShift { loaded (opsFor 0 0 0 0 65536) [] with
    ht := ⟨[(1, 70000), (2, 65537), (3, 65536), (4, 5)], none⟩ })).ht = ⟨[(1, 4464), (2, 1)], none⟩ := by decide

/-- T3: a negative entry becomes 0. -/
theorem test_shift_negative : (after (exec .htShift { loaded noOps [] with
    ht := ⟨[(1, 7), (2, 0xFFFFFFFD)], none⟩ })).ht = ⟨[(1, 7)], none⟩ := by decide

/-- T5. -/
theorem test_warm :
    (after (exec .htWarm (loaded (opsFor 0 0 0 8 0) (cellsAt 0x3000 [97, 98, 99, 100, 97, 98, 99, 100])))).ht =
      ⟨[(6339, 5), (10204, 2), (11843, 3), (14050, 4)], none⟩ := by decide

/-- T6. -/
theorem test_warm_short : resultOf .htWarm (loaded (opsFor 0 0 0 3 0) []) = 0 := by decide

/-- T9, T10. -/
theorem test_save_refused :
    errorOf .htSave (loaded ⟨0, 0, 0, 0x2000, 65535, 0, 0, 0, 0⟩ []) = .outputBufferTooSmall ∧
    errorOf .htSave (loaded ⟨0, 0, 0, 0x2000, 9, 10, 0, 0, 0⟩ []) = .invalidOperand := by decide

/-- R30, last sentence: the 65536 bytes end at 2^32 and one byte later; both buffers are shorter than a snapshot. -/
theorem test_snapshot_region_end :
    errorOf .htSave (loaded ⟨0, 0, 0, 0xFFFF0000, 16, 0, 0, 0, 0⟩ []) = .outputBufferTooSmall ∧
    errorOf .htSave (loaded ⟨0, 0, 0, 0xFFFF0001, 16, 0, 0, 0, 0⟩ []) = .invalidOperand ∧
    errorOf .htLoad (loaded ⟨0xFFFF0000, 0, 16, 0, 0, 0, 0, 0, 0⟩ []) = .malformedInput ∧
    errorOf .htLoad (loaded ⟨0xFFFF0000, 1, 16, 0, 0, 0, 0, 0, 0⟩ []) = .invalidOperand := by decide

/-- T12. -/
theorem test_load_refused :
    errorOf .htLoad (loaded ⟨0x1000, 0, 65535, 0, 0, 0, 0, 0, 0⟩ []) = .malformedInput := by decide

/-- T13: a word `ff ff ff ff` at index 3 is the entry -1. -/
theorem test_load_negative : ((HashTable.load ⟨cellsAt 0x100C [255, 255, 255, 255], []⟩ 0x1000).read 3).toInt = -1 := by
  rw [HashTable.read_load _ _ (by decide)]
  decide

/-- T8: the snapshot's first two entries. -/
theorem test_snapshot : le32Bytes ((⟨[(1, 5)], none⟩ : HashTable).read 0) = [0, 0, 0, 0] ∧
    le32Bytes ((⟨[(1, 5)], none⟩ : HashTable).read 1) = [5, 0, 0, 0] := by decide

/-! ### Block compressor -/

/-- CB5: "a" ×20. -/
theorem test_compress : resultOf .compressBlock
      (loaded (opsFor 0 20 0 0 0) (cellsAt 0x1000 (List.replicate 20 97))) = 10 ∧
    outputOf .compressBlock (loaded (opsFor 0 20 0 0 0) (cellsAt 0x1000 (List.replicate 20 97))) 11 =
      [0x1a, 0x61, 0x01, 0x00, 0x50, 0x61, 0x61, 0x61, 0x61, 0x61, 0] := by decide

/-- CB11: one byte too few. -/
theorem test_compress_too_small : errorOf .compressBlock
    (loaded { opsFor 0 20 0 0 0 with dstCap := 9 } (cellsAt 0x1000 (List.replicate 20 97))) = .outputBufferTooSmall := by
  decide

/-- "0123456789ABCDEF". -/
def digits : List Byte := [48, 49, 50, 51, 52, 53, 54, 55, 56, 57, 65, 66, 67, 68, 69, 70]

/-- X3: the dictionary "xx0123456789ABCDEF" is warmed first. -/
theorem test_compress_ext :
    outputOf .compressBlockExt (after (exec .htWarm
      (loaded (opsFor 0 16 0 18 0) (cellsAt 0x1000 digits ++ cellsAt 0x3000 (120 :: 120 :: digits))))) 9 =
      [0x07, 0x10, 0x00, 0x50, 0x42, 0x43, 0x44, 0x45, 0x46] := by decide

/-- X4: the command does not warm the table. -/
theorem test_compress_ext_cold : resultOf .compressBlockExt
    (loaded (opsFor 0 16 0 18 0) (cellsAt 0x1000 digits ++ cellsAt 0x3000 (120 :: 120 :: digits))) = 18 := by decide

/-! ### Block decompressor -/

/-- DB4: an overlapping copy of offset 1. -/
theorem test_decompress : outputOf .decompressBlock
    (loaded (opsFor 0 10 0 0 0) [(0x1000, 0x1a), (0x1001, 0x61), (0x1002, 1), (0x1004, 0x50), (0x1005, 0x61),
      (0x1006, 0x61), (0x1007, 0x61), (0x1008, 0x61), (0x1009, 0x61)]) 21 = List.replicate 20 0x61 ++ [0] := by decide

/-- DB16: dictionary "wxyz", the copy crosses from dictionary into output. -/
theorem test_decompress_dictionary : outputOf .decompressBlock
    (loaded (opsFor 0 3 0 4 0) ((0x1001, 2) :: cellsAt 0x3000 [119, 120, 121, 122])) 4 = [121, 122, 121, 122] := by decide

/-- DB6, DB10, DB11, DB13 and DB25: the checks in the order of R109. -/
theorem test_decode_errors :
    decodeBlock [0x11, 0x61, 0, 0] [] [] 64 = .error .invalidOffset ∧
    decodeBlock [0x30, 0x61] [] [] 1 = .error .outputBufferTooSmall ∧
    decodeBlock [0xf0, 0xff] [] [] 64 = .error .malformedInput ∧
    decodeBlock [0x10, 0x61, 0x05, 0x00] [] [] 64 = .error .dictionaryOutOfBounds ∧
    decodeBlock [0x1f, 0x61, 0, 0, 0xff] [] [] 64 = .error .invalidOffset := by decide

/-- DB17 and DB18: output history "ABCD" before `DST_OFF` 4. -/
theorem test_decode_history :
    decodeBlock [0x00, 0x04, 0x00] [65, 66, 67, 68] [] 8 = .ok [65, 66, 67, 68] ∧
    decodeBlock [0x00, 0x05, 0x00] [65, 66, 67, 68] [] 8 = .error .dictionaryOutOfBounds := by decide

/-! ### Control, errors and reset -/

/-- Q3: command 0. -/
theorem test_illegal_command :
    readReg .status (after (step (asked idle [.host (.regWrite 0x04 4 0)]))) = 0x6 ∧
    readReg .errcode (after (step (asked idle [.host (.regWrite 0x04 4 0)]))) = 0x10 := by decide

/-- Q6: `XXH32_RESET`: BUSY after the write, DONE after the engine's turn. -/
theorem test_command_runs :
    readReg .status (after (step (asked idle [.host (.regWrite 0x04 4 0x31)]))) = 0x1 ∧
    readReg .status (after (step (after (step (asked idle [.host (.regWrite 0x04 4 0x31)]))))) = 0x2 := by decide

/-- Q8: clearing ERROR keeps DONE. -/
theorem test_status_w1c : readReg .status (after (step
    (asked { idle with status := ⟨false, true, true⟩ } [.host (.regWrite 0x08 4 0x4)]))) = 0x2 := by decide

/-- Q13: a byte of a region has `MemOk` false. -/
theorem test_bus_error : errorOf .xxh32Oneshot
    { loaded (opsFor 0 4 0 0 0) testWord with plat := ⟨0xFFFFFFC0, [⟨0x1003, 1⟩], [], Config.defaultSearch⟩ } = .busError := by decide

/-- 93_implementation_defined.md U7 to U11. -/
theorem test_stops :
    stopOf (step (asked (running .htClear noOps) [.host (.regWrite 0x04 4 1)])) = some (.inl .cmdWriteWhileBusy) ∧
    stopOf (step (asked (running .htClear noOps) [.host (.regWrite 0x34 4 1)])) =
      some (.inl .operandWriteWhileBusy) ∧
    stopOf (step (asked idle [.host (.regRead 0x05 4)])) = some (.inl .badRegisterAccess) ∧
    stopOf (step (asked (running .xxh32Oneshot (opsFor 0 4 0 0 0)) [.host (.memWrite 0x1003 [1])])) =
      some (.inl .regionWriteWhileBusy) ∧
    stopOf (exec .xxh32Oneshot (loaded ⟨0xFFFFFFC0, 0, 4, 0, 0, 0, 0, 0, 0⟩ [])) = some (.inl .regionNotOrdinary) ∧
    stopOf (step (asked idle [.host (.regRead 0x40 4)])) = some (.inr .outsideWindow) := by decide

/-! ### Witnesses: for each statement with hypotheses, data that meets all of them together, and each clause's -/

/-- The checks the machine evaluates give the premise the statements use. -/
theorem startPasses_of_checks {i : Instr} {s : State} (hv : regionViolation i s = false)
    (he : startError i s = none) : StartPasses i s :=
  addresses_of_start hv he

theorem witness_DecodeInvertsEncode : decode 0x00000010 = .ok .compressBlock := by decide

theorem witness_IllegalWordCompletesAtOnce :
    (asked idle (writesCmd 0x100 [])).agenda = writesCmd 0x100 [] ∧ (asked idle (writesCmd 0x100 [])).status.busy = false ∧
    rsvdField 0x100 ≠ 0 ∧
    opcodeField 0x34 ∉ ([0x30, 0x31, 0x32, 0x33, 0x01, 0x02, 0x03, 0x04, 0x05, 0x10, 0x11, 0x20] : List Byte) := by
  decide

theorem witness_CmdWriteStartsCommand :
    (asked idle (writesCmd 0x31 [.engine])).agenda = writesCmd 0x31 [.engine] ∧ decode 0x31 = .ok .xxh32Reset ∧
    (asked idle (writesCmd 0x31 [.engine])).status.busy = false ∧ EngineNext [.engine] [] ∧
    (asked (running .htClear noOps) (writesCmd 0x31 [])).status.busy = true := by
  unfold EngineNext; decide

theorem witness_StepRunsDecodedCommand :
    EngineNext (asked (running .htClear noOps) [.engine]).agenda [] ∧ EngineNext (running .htClear noOps).agenda [] ∧
    (running .htClear noOps).status.busy = true ∧ decode (running .htClear noOps).cmd = .ok .htClear ∧
    EngineNext idle.agenda [] ∧ idle.status.busy = false := by
  unfold EngineNext; decide

theorem witness_RegisterReadHasNoSideEffect :
    (0x00, Reg.id, 0x00345A4C) ∈ windowShows idle ∧ (0x08, Reg.status, 0x6) ∈
      windowShows { idle with status := ⟨false, true, true⟩ } ∧ (0x3C, Reg.reserved, 0) ∈ windowShows idle ∧
    (asked idle [.host (.regRead 0x3C 4)]).agenda = .host (.regRead 0x3C 4) :: [] := by decide

theorem witness_ReadOnlyRegistersIgnoreWrites :
    0x3C ∈ [0x00, 0x0C, 0x10, 0x3C] ∧
    (asked (running .htClear noOps) [.host (.regWrite 0x3C 4 5)]).agenda = .host (.regWrite 0x3C 4 5) :: [] := by decide

theorem witness_OperandRegistersStoreEveryValue :
    (0x14, Reg.srcAddr) ∈ operandMap ∧ (0x34, Reg.param) ∈ operandMap ∧ idle.status.busy = false ∧
    (asked idle [.host (.regWrite 0x34 4 0xFFFFFFFF)]).agenda = .host (.regWrite 0x34 4 0xFFFFFFFF) :: [] ∧
    ∃ t, exec .htClear idle = .next t := by
  refine ⟨by decide, by decide, by decide, by decide, ?_⟩
  exact ⟨after (exec .htClear idle), rfl⟩

theorem witness_StatusWriteClearsOnlyOnes :
    (asked (running .htClear noOps) [.host (.regWrite 0x08 4 0xFFFFFFFF)]).agenda =
      .host (.regWrite 0x08 4 0xFFFFFFFF) :: [] := by decide

/-- A start, a completion and a reset of a running command. -/
theorem witness_BusyChangesOnlyAtStartCompletionReset :
    (∃ s t : State, step s = .next t ∧ s.status.busy = false ∧ t.status.busy = true) ∧
    (∃ s t : State, step s = .next t ∧ s.agenda = [] ∧ s.status.busy = true ∧ t.status.busy = false) ∧
    ∃ s t : State, step s = .next t ∧ s.agenda = [.host .assertReset] ∧ s.status.busy = true ∧
      t.status.busy = false :=
  ⟨⟨asked idle (writesCmd 0x31 []), after (step (asked idle (writesCmd 0x31 []))), rfl, by decide, by decide⟩,
    ⟨running .htClear noOps, after (step (running .htClear noOps)), rfl, by decide, by decide, by decide⟩,
    ⟨asked (running .htClear noOps) [.host .assertReset],
      after (step (asked (running .htClear noOps) [.host .assertReset])), rfl, by decide, by decide, by decide⟩⟩

/-- An illegal word: ERROR is 1 after the step. -/
theorem witness_ErrorImpliesDone :
    ∃ s t : State, (s.status.error = true → s.status.done = true) ∧ step s = .next t ∧
      (∀ v rest, s.agenda ≠ .host (.regWrite 0x08 4 v) :: rest) ∧ t.status.error = true :=
  ⟨asked idle (writesCmd 0 []), after (step (asked idle (writesCmd 0 []))), by decide, rfl,
    fun v rest => by simp [asked, writesCmd], by decide⟩

theorem witness_IrqIsEnableAndDone :
    (asked idle [.host (.regWrite 0x38 4 0xFFFFFFFF)]).agenda = .host (.regWrite 0x38 4 0xFFFFFFFF) :: [] ∧
    (asked idle [.host .sampleIrq]).agenda = .host .sampleIrq :: [] := by decide

theorem witness_IrqFollowsCompletion :
    (∃ t, exec .htClear { idle with irqEn := true } = .next t) ∧
    (∃ t, step (asked { idle with irqEn := true } (writesCmd 0x31 [])) = .next t) ∧
    (wellFormedCommand 0x100 = false ∧ ∃ t, step (asked { idle with irqEn := true } (writesCmd 0x100 [])) = .next t) ∧
    (∃ t, step (asked { idle with irqEn := true } [.host (.regWrite 0x08 4 2)]) = .next t ∧
      (2 : Word).getLsbD 1 = true) ∧
    ∃ t, step (asked { idle with irqEn := true } [.host (.regWrite 0x38 4 0)]) = .next t ∧
      (0 : Word).getLsbD 0 = false :=
  ⟨⟨after (exec .htClear { idle with irqEn := true }), rfl⟩,
    ⟨after (step (asked { idle with irqEn := true } (writesCmd 0x31 []))), rfl⟩,
    ⟨by decide, after (step (asked { idle with irqEn := true } (writesCmd 0x100 []))), rfl⟩,
    ⟨after (step (asked { idle with irqEn := true } [.host (.regWrite 0x08 4 2)])), rfl, by decide⟩,
    ⟨after (step (asked { idle with irqEn := true } [.host (.regWrite 0x38 4 0)])), rfl, by decide⟩⟩

/-- `running` with the agenda of a host read of 65 bytes that cover the write region `[0x2000, 0x2040)` and one byte before. -/
def readOver : State := asked (running .decompressBlock (opsFor 0 4 0 0 0)) [.host (.memRead 0x1FFF 65)]

/-- Every 32-bit address below the window is ordinary backed memory on the platform of `State.reset`. -/
theorem ordinaryBytes_reset {s : State} (h : s.plat = State.reset.plat) {a n : Nat} (hn : a + n ≤ 0xFFFFFFC0) :
    OrdinaryBytes s a n := by
  refine ⟨by omega, fun b hb hb' => ?_⟩
  have hlt : b < 0xFFFFFFC0 := by omega
  rw [h]
  have hw : State.reset.plat.window = ⟨0xFFFFFFC0, 64⟩ := by decide
  have hc : State.reset.plat.window.contains b = false := by
    rw [hw, Config.Span.contains_eq_false_iff]
    show ¬(0xFFFFFFC0 ≤ b ∧ b < 0xFFFFFFC0 + 64)
    omega
  have hh : State.reset.plat.holes = [] := rfl
  have hd : State.reset.plat.devices = [] := rfl
  simp only [Config.Platform.memOk, Config.Platform.ordinary, hc, hh, hd, List.any_nil]
  rw [decide_eq_true (show b < Config.addrSpace by rw [Config.addrSpace]; omega)]
  decide

/-- Each violation at the ends of its range: the last operand register, a byte access, the last offset, the first and the last
byte of a region. And a read over the first and the last byte of a running write region and the byte before it. -/
theorem witness_ProtocolViolationsFault :
    ((running .xxh32Oneshot (opsFor 0 4 0 0 0)).status.busy = true ∧ (0x14, Reg.srcAddr) ∈ operandMap ∧
      (0x34, Reg.param) ∈ operandMap) ∧
    (0x3F < 0x40 ∧ (0x3F % 4 ≠ 0 ∧ (1 : Nat) ≠ 4)) ∧
    (decode (running .xxh32Oneshot (opsFor 0 4 0 0 0)).cmd = .ok .xxh32Oneshot ∧
      (⟨0x1000, 4⟩ : Config.Span) ∈ regions .xxh32Oneshot (running .xxh32Oneshot (opsFor 0 4 0 0 0)).opr ∧
      (⟨0x1000, 4⟩ : Config.Span).contains 0x1000 = true ∧ (⟨0x1000, 4⟩ : Config.Span).contains 0x1003 = true ∧
      0xFFF ≤ 0x1000 ∧ 0x1000 < 0xFFF + ([1, 2] : List Byte).length) ∧
    stopOf (step (asked (running .decompressBlock (opsFor 0 4 0 0 0)) [.host (.memRead 0x2000 1)])) = none := by
  decide

theorem witness_ProtocolViolationsFault_read :
    readOver.agenda = .host (.memRead 0x1FFF 65) :: [] ∧ OrdinaryBytes readOver 0x1FFF 65 ∧
    InRunningWriteRegion readOver 0x2000 ∧ InRunningWriteRegion readOver 0x203F ∧
    ¬ InRunningWriteRegion readOver 0x1FFF := by
  refine ⟨rfl, ordinaryBytes_reset rfl (by decide), ⟨rfl, .decompressBlock, ⟨0x2000, 64⟩, by decide, by decide, by decide⟩,
    ⟨rfl, .decompressBlock, ⟨0x2000, 64⟩, by decide, by decide, by decide⟩, ?_⟩
  rintro ⟨-, i, sp, hi, hw, hc⟩
  have hd : decode readOver.cmd = .ok .decompressBlock := by decide
  rw [hd] at hi
  cases hi
  have hr : writeRegion .decompressBlock readOver.opr = some ⟨0x2000, 64⟩ := by decide
  rw [hr] at hw
  cases hw
  exact absurd hc (by decide)

/-- While idle, the source of a later command; and, while a command runs, the byte just after its source. -/
theorem witness_HostWriteStoresBytes :
    ((asked idle [.host (.memWrite 0x1000 [1, 0, 2])]).agenda = .host (.memWrite 0x1000 [1, 0, 2]) :: [] ∧
      OrdinaryBytes (asked idle [.host (.memWrite 0x1000 [1, 0, 2])]) 0x1000 3 ∧ idle.status.busy = false) ∧
    OrdinaryBytes (asked (running .xxh32Oneshot (opsFor 0 4 0 0 0)) [.host (.memWrite 0x1004 [1])]) 0x1004 1 ∧
    regions .xxh32Oneshot (opsFor 0 4 0 0 0) = [⟨0x1000, 4⟩] ∧
    (⟨0x1000, 4⟩ : Config.Span).contains 0x1003 = true ∧ (⟨0x1000, 4⟩ : Config.Span).contains 0x1004 = false :=
  ⟨⟨rfl, ordinaryBytes_reset rfl (by decide), rfl⟩, ordinaryBytes_reset rfl (by decide), by decide, by decide, by decide⟩

theorem witness_ResetContextIsSeedZero :
    idle.opr.param = 0 ∧ (∃ t, exec .xxh32Reset idle = .next t) ∧ idle.xs = State.reset.xs :=
  ⟨by decide, ⟨after (exec .xxh32Reset idle), rfl⟩, by decide⟩

/-- Reset while a command with a write region runs, while one without runs, and while idle. -/
theorem witness_AssertedResetGivesResetState :
    (asked (running .decompressBlock (opsFor 0 4 0 0 0)) [.host .assertReset]).agenda = .host .assertReset :: [] ∧
    (running .decompressBlock (opsFor 0 4 0 0 0)).status.busy = true ∧
    decode (running .decompressBlock (opsFor 0 4 0 0 0)).cmd = .ok .decompressBlock ∧
    writeRegion .decompressBlock (opsFor 0 4 0 0 0) = some ⟨0x2000, 64⟩ ∧
    decode (running .htClear noOps).cmd = .ok .htClear ∧ writeRegion .htClear noOps = none ∧
    idle.status.busy = false := by decide

/-- A success and an error. -/
theorem witness_CompletionSetsStatus :
    (∃ t, exec .htClear idle = .next t) ∧
    ∃ t, exec .htSave idle = .next t ∧ t.errcode ≠ .noError :=
  ⟨⟨after (exec .htClear idle), rfl⟩, ⟨after (exec .htSave idle), rfl, by decide⟩⟩

/-- The region ends where the window begins; one byte more and it meets the window. -/
theorem witness_OnlyNonOrdinaryRegionsStop :
    stopOf (exec .xxh32Oneshot (loaded ⟨0xFFFFFFB0, 0, 16, 0, 0, 0, 0, 0, 0⟩ [])) = none ∧
    (operandInvalid .xxh32Oneshot ⟨0xFFFFFFB0, 0, 17, 0, 0, 0, 0, 0, 0⟩ = false ∧
      sizeError .xxh32Oneshot ⟨0xFFFFFFB0, 0, 17, 0, 0, 0, 0, 0, 0⟩ = none ∧
      (⟨0xFFFFFFB0, 17⟩ : Config.Span) ∈ regions .xxh32Oneshot ⟨0xFFFFFFB0, 0, 17, 0, 0, 0, 0, 0, 0⟩ ∧
      (⟨0xFFFFFFB0, 17⟩ : Config.Span).contains 0xFFFFFFC0 = true ∧ idle.plat.ordinary 0xFFFFFFC0 = false) := by
  decide

/-- The source ends at 2^32 and one byte later; the compressor's view ends at 2^31 - 1 and one byte later; so do the regions
of the snapshots at 2^32. -/
theorem witness_InvalidOperandRule :
    ¬ RefusedOperands .xxh32Oneshot ⟨0xFFFFFFFF, 0, 1, 0, 0, 0, 0, 0, 0⟩ ∧
    RefusedOperands .xxh32Oneshot ⟨0xFFFFFFFF, 0, 2, 0, 0, 0, 0, 0, 0⟩ ∧
    ¬ RefusedOperands .compressBlock ⟨0, 1, 0x7FFFFFFE, 0x80000000, 0, 0, 0, 0, 0⟩ ∧
    RefusedOperands .compressBlock ⟨0, 1, 0x7FFFFFFF, 0x80000000, 0, 0, 0, 0, 0⟩ ∧
    RefusedOperands .htSave ⟨0, 0, 0, 0, 9, 10, 0, 0, 0⟩ ∧
    ¬ RefusedOperands .htSave ⟨0, 0, 0, 0xFFFF0000, 16, 0, 0, 0, 0⟩ ∧
    RefusedOperands .htSave ⟨0, 0, 0, 0xFFFF0001, 16, 0, 0, 0, 0⟩ ∧
    ¬ RefusedOperands .htLoad ⟨0xFFFF0000, 0, 16, 0, 0, 0, 0, 0, 0⟩ ∧
    RefusedOperands .htLoad ⟨0xFFFF0000, 1, 16, 0, 0, 0, 0, 0, 0⟩ ∧
    (∃ t, exec .htClear idle = .next t) := by
  refine ⟨by simp [RefusedOperands], by simp [RefusedOperands], ?_, ?_, by simp [RefusedOperands],
    by simp [RefusedOperands], by simp [RefusedOperands], by simp [RefusedOperands], by simp [RefusedOperands],
    ⟨after (exec .htClear idle), rfl⟩⟩
  · simp [RefusedOperands, ShareAddress]
  · simp [RefusedOperands]

/-- The last byte of the source is not backed, with nothing else wrong; and a command whose bytes all are. -/
theorem witness_BusErrorRule :
    (operandInvalid .xxh32Oneshot (opsFor 0 4 0 0 0) = false ∧ sizeError .xxh32Oneshot (opsFor 0 4 0 0 0) = none ∧
      (⟨0x1000, 4⟩ : Config.Span) ∈ regions .xxh32Oneshot (opsFor 0 4 0 0 0) ∧
      (⟨0x1000, 4⟩ : Config.Span).contains 0x1003 = true ∧
      (⟨0xFFFFFFC0, [⟨0x1003, 1⟩], [], Config.defaultSearch⟩ : Config.Platform).memOk 0x1003 = false) ∧
    StartPasses .xxh32Oneshot (loaded (opsFor 0 4 0 0 0) testWord) :=
  ⟨by decide, startPasses_of_checks (by decide) (by decide)⟩

theorem witness_SnapshotSizeChecks :
    operandInvalid .htSave ⟨0, 0, 0, 0x2000, 65535, 0, 0, 0, 0⟩ = false ∧
    operandInvalid .htLoad ⟨0x1000, 0, 65535, 0, 0, 0, 0, 0, 0⟩ = false ∧
    sizeError .htSave ⟨0, 0, 0, 0x2000, 65536, 0, 0, 0, 0⟩ = none ∧
    sizeError .htLoad ⟨0x1000, 0, 65536, 0, 0, 0, 0, 0, 0⟩ = none := by decide

theorem witness_ReportedErrorCodes : ∃ t, exec .htClear idle = .next t := ⟨after (exec .htClear idle), rfl⟩

/-- CB11: "a" ×20 with a capacity of 9. -/
def tightCompress : State := loaded { opsFor 0 20 0 0 0 with dstCap := 9 } (cellsAt 0x1000 (List.replicate 20 97))

/-- DB13: a back-reference before the output. -/
def badDecompress : State := loaded (opsFor 0 4 0 0 0) [(0x1000, 0x10), (0x1001, 0x61), (0x1002, 0x05)]

/-- Each row of 60_exceptions.md R121. -/
theorem witness_ErrorLeavesState :
    (wellFormedCommand 0x100 = false ∧ ∃ t, step (asked idle (writesCmd 0x100 [])) = .next t) ∧
    (∃ t, exec .htSave idle = .next t ∧ t.errcode ≠ .noError) ∧
    (∃ t, exec .compressBlock tightCompress = .next t ∧ t.errcode = .outputBufferTooSmall) ∧
    ∃ t, exec .decompressBlock badDecompress = .next t ∧ t.errcode = .dictionaryOutOfBounds :=
  ⟨⟨by decide, after (step (asked idle (writesCmd 0x100 []))), rfl⟩, ⟨after (exec .htSave idle), rfl, by decide⟩,
    ⟨after (exec .compressBlock tightCompress), rfl, by decide⟩,
    ⟨after (exec .decompressBlock badDecompress), rfl, by decide⟩⟩

theorem witness_WritesStayInWriteRegion :
    (wellFormedCommand 0x100 = false ∧ ∃ t, step (asked idle (writesCmd 0x100 [])) = .next t) ∧
    (∃ t, exec .htClear idle = .next t ∧ t.errcode = .noError) ∧ startError .htSave idle ≠ none ∧
    (∃ t, exec .decompressBlock badDecompress = .next t ∧ t.errcode ≠ .noError) ∧
    startError .decompressBlock badDecompress = none ∧
    writeRegion .decompressBlock badDecompress.opr = some ⟨0x2000, 64⟩ ∧
    (⟨0x2000, 64⟩ : Config.Span).contains 0x203F = true :=
  ⟨⟨by decide, after (step (asked idle (writesCmd 0x100 []))), rfl⟩, ⟨after (exec .htClear idle), rfl, by decide⟩,
    by decide, ⟨after (exec .decompressBlock badDecompress), rfl, by decide⟩, by decide, by decide, by decide⟩

theorem witness_OneshotHashesSource : StartPasses .xxh32Oneshot (loaded (opsFor 0 4 0 0 0) testWord) :=
  startPasses_of_checks (by decide) (by decide)

theorem witness_ContextResetFromSeed :
    (loaded (opsFor 0 0 0 0 7) []).opr.param = 7 ∧ ∃ t u, exec .xxh32Reset (loaded (opsFor 0 0 0 0 7) []) = .next t ∧
      exec .xxh32Digest t = .next u :=
  ⟨by decide, after (exec .xxh32Reset (loaded (opsFor 0 0 0 0 7) [])), _, rfl, rfl⟩

theorem witness_UpdateAbsorbsSource : StartPasses .xxh32Update (loaded (opsFor 0 4 0 0 0) testWord) :=
  startPasses_of_checks (by decide) (by decide)

theorem witness_DigestKeepsContext : ∃ t, exec .xxh32Digest idle = .next t := ⟨_, rfl⟩

/-- "te", then "st", as in S2. -/
theorem witness_IncrementalHashEqualsOneshot :
    ∃ (r t0 d : State) (us : List State), exec .xxh32Reset r = .next t0 ∧ HashedInTurn t0.xs us d.xs ∧
      (us.flatMap sourceOf).length < 2 ^ 32 ∧ us.flatMap sourceOf = [0x74, 0x65, 0x73, 0x74] := by
  let u1 := loaded (opsFor 0 2 0 0 0) testWord
  let u2 := { after (exec .xxh32Update u1) with opr := opsFor 2 2 0 0 0 }
  refine ⟨idle, after (exec .xxh32Reset idle), after (exec .xxh32Update u2), [u1, u2], rfl, ?_, ?_, ?_⟩
  · exact ⟨by decide, after (exec .xxh32Update u1), rfl, by decide, by decide, after (exec .xxh32Update u2), rfl,
      by decide, rfl⟩
  · decide
  · decide

theorem witness_ShiftSubtractsAndZeroes : idle.ht.wf = true := by decide

/-- T5: its hash 6339 is left at position 4, so position 0 is no last one. -/
theorem witness_WarmInsertsEveryPosition :
    StartPasses .htWarm (loaded (opsFor 0 0 0 8 0) (cellsAt 0x3000 [97, 98, 99, 100, 97, 98, 99, 100])) ∧
    4 + 4 ≤ windowLen (opsFor 0 0 0 8 0) := 
  ⟨startPasses_of_checks (by decide) (by decide), by decide⟩

/-- A table snapshot fits exactly. -/
theorem witness_SaveStoresTable : StartPasses .htSave (loaded ⟨0, 0, 0, 0x2000, 65536, 0, 0, 0, 0⟩ []) :=
  startPasses_of_checks (by decide) (by decide)

theorem witness_LoadReadsTable : StartPasses .htLoad (loaded ⟨0x1000, 0, 65536, 0, 0, 0, 0, 0, 0⟩ []) :=
  startPasses_of_checks (by decide) (by decide)

theorem save_runs {s : State} (hv : regionViolation .htSave s = false) (he : startError .htSave s = none) :
    exec .htSave s =
      .next (complete 65536 { s with mem := s.mem.writeBytes s.opr.saveSpan.base s.ht.snapshot }) := by
  rw [exec, execHtSave, checked_of_passes hv he]

theorem load_runs {s : State} (hv : regionViolation .htLoad s = false) (he : startError .htLoad s = none) :
    exec .htLoad s = .next (complete 65536 { s with ht := .load s.mem s.opr.loadSpan.base }) := by
  rw [exec, execHtLoad, checked_of_passes hv he]

/-- The operands that save a table at 0x2000 and those that load it from there. -/
def snapshotOps : OperandRegs := ⟨0x2000, 0, 65536, 0x2000, 65536, 0, 0, 0, 0⟩

/-- Any table, saved at 0x2000 and loaded from there. -/
theorem saveThenLoad_runs (m : Memory) (ht : HashTable) :
    ∃ s t u v : State, s.ht = ht ∧ exec .htSave s = .next t ∧ t.errcode = .noError ∧
      u.opr.srcAddr.toNat + u.opr.srcStart.toNat = dstStart s.opr ∧
      (∀ a, dstStart s.opr ≤ a → a < dstStart s.opr + 65536 → u.mem.read a = t.mem.read a) ∧
      exec .htLoad u = .next v ∧ v.errcode = .noError := by
  have checks (m : Memory) (ht : HashTable) :
      regionViolation .htSave { idle with opr := snapshotOps, mem := m, ht := ht } = false ∧
      startError .htSave { idle with opr := snapshotOps, mem := m, ht := ht } = none ∧
      regionViolation .htLoad { idle with opr := snapshotOps, mem := m, ht := ht } = false ∧
      startError .htLoad { idle with opr := snapshotOps, mem := m, ht := ht } = none := by
    have h1 : regionViolation .htSave (loaded snapshotOps []) = false := by decide
    have h2 : startError .htSave (loaded snapshotOps []) = none := by decide
    have h3 : regionViolation .htLoad (loaded snapshotOps []) = false := by decide
    have h4 : startError .htLoad (loaded snapshotOps []) = none := by decide
    exact ⟨h1, h2, h3, h4⟩
  refine ⟨{ idle with opr := snapshotOps, mem := m, ht := ht }, _,
    { idle with opr := snapshotOps, mem := m.writeBytes snapshotOps.saveSpan.base ht.snapshot, ht := ht }, _, rfl,
    save_runs (checks m ht).1 (checks m ht).2.1, rfl,
    (by decide : snapshotOps.srcAddr.toNat + snapshotOps.srcStart.toNat = dstStart snapshotOps), fun _ _ _ => rfl,
    load_runs (checks _ ht).2.2.1 (checks _ ht).2.2.2, rfl⟩

/-- The table of T8. -/
theorem witness_SaveThenLoadRestoresTable :
    ∃ s t u v : State, s.ht = ⟨[(1, 5)], none⟩ ∧ exec .htSave s = .next t ∧ t.errcode = .noError ∧
      u.opr.srcAddr.toNat + u.opr.srcStart.toNat = dstStart s.opr ∧
      (∀ a, dstStart s.opr ≤ a → a < dstStart s.opr + 65536 → u.mem.read a = t.mem.read a) ∧
      exec .htLoad u = .next v ∧ v.errcode = .noError :=
  saveThenLoad_runs ⟨[], []⟩ ⟨[(1, 5)], none⟩

theorem witness_SharedStateChangedOnlyByItsCommands :
    (∃ t, step (running .htClear noOps) = .next t) ∧
    (∃ t, step { running .htClear noOps with ht := ⟨[(1, 5)], none⟩ } = .next t ∧ t.ht ≠ ⟨[(1, 5)], none⟩) ∧
    ∃ t, step (running .xxh32Reset { noOps with param := 7 }) = .next t ∧
      t.xs ≠ (running .xxh32Reset { noOps with param := 7 }).xs :=
  ⟨⟨after (step (running .htClear noOps)), rfl⟩,
    ⟨after (step { running .htClear noOps with ht := ⟨[(1, 5)], none⟩ }), rfl, by decide⟩,
    ⟨after (step (running .xxh32Reset { noOps with param := 7 })), rfl, by decide⟩⟩

theorem witness_LengthExtensionEncoding : 14 < 15 ∧ 15 ≤ 15 ∧ 15 - 15 < 255 ∧ 269 - 15 < 255 ∧ 255 ≤ 270 - 15 := by decide

theorem witness_LengthDecodingInvertsEncoding : (14 : BitVec 4) ≠ 15 ∧ (254 : Byte) ≠ 255 := by decide

theorem witness_TokenAndOffsetReadBack : 65535 ≤ 65535 := by decide

/-- CB2: "a", with the capacity that always suffices, 1 + 0 + 2. -/
def roomyCompress : State := loaded { opsFor 0 1 0 0 0 with dstCap := 3 } [(0x1000, 97)]

/-- CB12: "a" ×20 with a capacity of 10, the length of its block. -/
def exactCompress : State := loaded { opsFor 0 20 0 0 0 with dstCap := 10 } (cellsAt 0x1000 (List.replicate 20 97))

/-- The room that always suffices, and a room of just the block's length. -/
theorem witness_CompressStoresBlock :
    (StartPasses .compressBlock roomyCompress ∧ Fits roomyCompress (blockOf roomyCompress).1) ∧
    StartPasses .compressBlock exactCompress ∧ Fits exactCompress (blockOf exactCompress).1 ∧
    (blockOf exactCompress).1.bytes.length = dstRoom exactCompress.opr :=
  ⟨⟨startPasses_of_checks (by decide) (by decide), .inr (by decide)⟩, startPasses_of_checks (by decide) (by decide),
    .inl (by decide), by decide⟩

/-- X3: 16 source bytes, an 18-byte dictionary; the room of 64 suffices, and so does the length of the block. -/
def extCompress (cap : Word) : State := loaded { opsFor 0 16 0 18 0 with dstCap := cap } (cellsAt 0x1000 digits)

theorem witness_CompressExtStoresBlock :
    (StartPasses .compressBlockExt (extCompress 64) ∧ Fits (extCompress 64) (extBlockOf (extCompress 64)).1) ∧
    StartPasses .compressBlockExt (extCompress 18) ∧ Fits (extCompress 18) (extBlockOf (extCompress 18)).1 ∧
    (extBlockOf (extCompress 18)).1.bytes.length = dstRoom (extCompress 18).opr :=
  ⟨⟨startPasses_of_checks (by decide) (by decide), .inr (by decide)⟩, startPasses_of_checks (by decide) (by decide),
    .inl (by decide), by decide⟩

/-- CB11 and CB12: a capacity of 9 is too small, 10 suffices. -/
theorem witness_CompressTooSmallExactly :
    StartPasses .compressBlock tightCompress ∧ dstRoom tightCompress.opr < (blockOf tightCompress).1.bytes.length ∧
    StartPasses .compressBlockExt tightCompress ∧
    (blockOf tightCompress).1.bytes.length ≤ dstRoom { tightCompress.opr with dstCap := 10 } :=
  ⟨startPasses_of_checks (by decide) (by decide), by decide, startPasses_of_checks (by decide) (by decide), by decide⟩

/-- The defaults, and parameters at their least legal values. -/
theorem witness_BlockLengthBound :
    Config.defaultSearch.Legal ∧ Config.SearchParams.Legal ⟨3, 64⟩ ∧ 0 ≤ ([] : List Byte).length := by decide

/-- 12 bytes give no match, CB5 gives one; with the least `MFLIMIT` of the statement, 8, 9 bytes can give one. -/
theorem witness_BlockEndShape :
    (Config.defaultSearch.Legal ∧ 8 ≤ Config.defaultSearch.mflimit ∧ 0 ≤ (List.replicate 12 (97 : Byte)).length ∧
      (List.replicate 12 (97 : Byte)).length - 0 ≤ Config.defaultSearch.mflimit ∧
      (compressCore Config.defaultSearch (List.replicate 20 97) 0 .zero).1.sequences ≠ []) ∧
    Config.SearchParams.Legal ⟨8, 64⟩ ∧
    (compressCore ⟨8, 64⟩ (List.replicate 10 97) 0 .zero).1.sequences = [⟨[97], 1, 4⟩] := by decide

theorem witness_TableAfterCompression : Config.defaultSearch.Legal ∧ Config.SearchParams.Legal ⟨3, 1000⟩ := by decide

theorem witness_ScanFollowsItsRules : Config.defaultSearch.Legal ∧ Config.SearchParams.Legal ⟨3, 1000⟩ := by decide

/-- `SEARCH_INIT` is an argument: from 128 on a miss skips two positions, so the match of "a" ×20 starts at 2. -/
theorem test_search_init :
    (compressCore ⟨12, 128⟩ (List.replicate 20 97) 0 .zero).1.sequences.map (·.literals.length) = [2] := by decide

/-- "abcd" as history split between dictionary and output, "abcdabcd" after it. -/
theorem witness_BlockRoundTrip :
    Config.defaultSearch.Legal ∧ 4 ≤ ([97, 98, 99, 100, 97, 98, 99, 100] : List Byte).length ∧
    ([97] : List Byte) ++ [98, 99, 100] = [] ++ ([97, 98, 99, 100, 97, 98, 99, 100] : List Byte).take 4 ∧
    ([98, 99, 100] : List Byte).length + (8 - 4) ≤ 7 := by decide

/-- Both kinds of compression of "a", each decompressed into a buffer of one byte. -/
theorem witness_CompressThenDecompress :
    ∃ (c t d : State) (before pre : List Byte),
      (exec .compressBlock c = .next t ∧ before = bytesAt c.mem c.opr.srcAddr.toNat c.opr.srcStart.toNat) ∧
      (∃ c' t', exec .compressBlockExt c' = .next t' ∧ before = windowOf c' ∧ t'.mem = t.mem ∧ t'.result = t.result) ∧
      c.plat.search.Legal ∧ t.errcode = .noError ∧ StartPasses .decompressBlock d ∧
      sourceOf d = bytesAt t.mem (dstStart c.opr) t.result.toNat ∧
      bytesAt d.mem d.opr.dictAddr.toNat d.opr.dictLen.toNat ++ bytesAt d.mem d.opr.dstAddr.toNat d.opr.dstOff.toNat =
        pre ++ before ∧
      c.opr.srcLen.toNat ≤ dstRoom d.opr := by
  let c := loaded (opsFor 0 1 0 0 0) [(0x1000, 97)]
  let t := after (exec .compressBlock c)
  let d := { t with opr := ⟨0x2000, 0, 2, 0x4000, 1, 0, 0, 0, 0⟩ }
  refine ⟨c, t, d, [], [], ⟨rfl, by decide⟩, ⟨c, after (exec .compressBlockExt c), rfl, by decide, by decide, by decide⟩,
    by decide, by decide, startPasses_of_checks (by decide) (by decide), by decide, by decide, by decide⟩

/-- A block that decodes and one that does not. -/
theorem witness_DecompressStoresDecoded :
    StartPasses .decompressBlock badDecompress ∧
    (∃ out, decodeBlock [0x10, 0x61] [] [] 64 = .ok out) ∧
    decodeBlock (sourceOf badDecompress) [] [] 64 = .error .dictionaryOutOfBounds :=
  ⟨startPasses_of_checks (by decide) (by decide), ⟨[0x61], by decide⟩, by decide⟩

/-- The nearest and the farthest byte. -/
theorem witness_MatchCopyIsForward : 1 ≤ 1 ∧ 1 ≤ ([7, 8] : List Byte).length ∧ 2 ≤ ([7, 8] : List Byte).length ∧
    3 ≤ ([7] : List Byte).length + ([8, 9] : List Byte).length := by decide

theorem witness_DecoderFollowsParseRules : ([7] : List Byte).length ≤ 1 := by decide

/-- DB20 and DB19: 5 bytes fit a buffer of 5 and not one of 4. -/
theorem witness_SmallerOutputIsTooSmall :
    decodeBlock [0x10, 0x61, 0x01, 0x00] [] [] 5 = .ok [97, 97, 97, 97, 97] ∧
    ([] : List Byte).length + ([97, 97, 97, 97, 97] : List Byte).length ≤ 5 ∧
    ([] : List Byte).length ≤ 4 ∧ 4 < ([] : List Byte).length + ([97, 97, 97, 97, 97] : List Byte).length := by decide

/-- A state after reset, and a state in which a command runs, in the invariant. -/
theorem witness_EveryStepKeepsInvariant :
    ∃ s t : State, s.Inv ∧ s.status.busy = true ∧ step s = .next t := by
  refine ⟨running .htClear noOps, after (step (running .htClear noOps)), ?_, by decide, rfl⟩
  refine ⟨by decide, by decide, by decide, fun d h => ?_, fun f h => ?_, by decide⟩
  · cases h
  · cases h

/-- Another memory that agrees on the four source bytes. -/
theorem witness_EngineReadsOnlyItsRegions :
    (∀ sp ∈ readRegions .xxh32Oneshot (loaded (opsFor 0 4 0 0 0) testWord).opr, ∀ a, sp.contains a = true →
      (Memory.writeBytes ⟨testWord, []⟩ 0x5000 [1]).read a = (loaded (opsFor 0 4 0 0 0) testWord).mem.read a) ∧
    ∃ t, exec .xxh32Oneshot (loaded (opsFor 0 4 0 0 0) testWord) = .next t := by
  refine ⟨fun sp hsp a ha => ?_, ⟨_, rfl⟩⟩
  refine Memory.read_writeBytes_outside ?_
  have hsp' : sp ∈ [(⟨0x1000, 4⟩ : Config.Span)] := hsp
  obtain rfl := List.mem_singleton.mp hsp'
  simp only [Config.Span.contains_iff] at ha
  simp only [List.length_cons, List.length_nil]
  omega

/-- A host that reads `STATUS` while `HT_CLEAR` runs. -/
theorem witness_ReadingHostNeverStops :
    (∀ turn ∈ (asked (running .htClear noOps) [.host (.regRead 0x08 4), .engine]).agenda, OnlyReads turn) ∧
    (running .htClear noOps).status.busy = true ∧ decode (running .htClear noOps).cmd = .ok .htClear ∧
    regions .htClear noOps = [] := by
  refine ⟨fun turn h => ?_, by decide⟩
  simp only [asked, List.mem_cons, List.not_mem_nil, or_false] at h
  rcases h with rfl | rfl
  · exact .inr ⟨0x08, .status, rfl, by decide⟩
  · exact .inl rfl

end Tests
end Sys2Proof
end

/-! ### What a command can do -/

namespace Sys2Proof
namespace Machine

section Command
variable {s t u : State}

/-- `u` is `s` after the work of a command, before its completion: only the hash table, the xxHash32 context, memory and
the draw counter may differ. -/
def WorkedOn (s u : State) : Prop := u = { s with ht := u.ht, xs := u.xs, mem := u.mem, draws := u.draws }

/-- `t` is `s` after a command: its work, then one of the two completions (60_exceptions.md R117, R118). -/
def CompletedFrom (s t : State) : Prop :=
  ∃ u, WorkedOn s u ∧ ((∃ r, t = complete r u) ∨ ∃ e, t = raise e u)

theorem WorkedOn.opr_eq (h : WorkedOn s u) : u.opr = s.opr := by
  unfold WorkedOn at h
  rw [h]

theorem workedOn_set (s : State) (ht : HashTable) (xs : XxhContext) (mem : Memory) (draws : Nat) :
    WorkedOn s { s with ht := ht, xs := xs, mem := mem, draws := draws } := rfl

theorem completedFrom_of_complete {r : Word} (hw : WorkedOn s u)
    (h : (.next (complete r u) : Host.Outcome State Fault Refusal) = .next t) : CompletedFrom s t := by
  cases h
  exact ⟨u, hw, .inl ⟨r, rfl⟩⟩

theorem completedFrom_of_raise {e : ErrorCode} (hw : WorkedOn s u)
    (h : (.next (raise e u) : Host.Outcome State Fault Refusal) = .next t) : CompletedFrom s t := by
  cases h
  exact ⟨u, hw, .inr ⟨e, rfl⟩⟩

/-- The start checks complete the command themselves or leave it to its body. -/
theorem completedFrom_of_checked {i : Instr} {body : State → Host.Outcome State Fault Refusal}
    (h : checked i s body = .next t) (hbody : body s = .next t → CompletedFrom s t) : CompletedFrom s t := by
  rcases checked_cases i s body with ⟨-, hc⟩ | ⟨e, -, -, hc⟩ | ⟨-, -, hc⟩
  · rw [hc] at h
    cases h
  · exact completedFrom_of_raise (workedOn_set ..) (hc ▸ h)
  · exact hbody (hc ▸ h)

theorem completedFrom_of_finishCompress {r : Block × HashTable} (h : finishCompress r s = .next t) :
    CompletedFrom s t := by
  rcases finishCompress_cases r s with ⟨-, hf⟩ | ⟨-, hf⟩
  · exact completedFrom_of_raise (workedOn_set ..) (hf ▸ h)
  · exact completedFrom_of_complete (workedOn_set ..) (hf ▸ h)

/-- Every command that answers has done its work and completed. -/
theorem completedFrom_of_exec {i : Instr} (h : exec i s = .next t) : CompletedFrom s t := by
  cases i with
  | xxh32Oneshot | xxh32Reset | xxh32Update | xxh32Digest | htClear | htShift | htWarm | htSave | htLoad =>
    simp only [exec, execXxh32Oneshot, execXxh32Reset, execXxh32Update, execXxh32Digest, execHtClear, execHtShift,
      execHtWarm, execHtSave, execHtLoad] at h
    exact completedFrom_of_checked h (completedFrom_of_complete (workedOn_set ..))
  | compressBlock | compressBlockExt => exact completedFrom_of_checked h completedFrom_of_finishCompress
  | decompressBlock =>
    simp only [exec, execDecompressBlock] at h
    refine completedFrom_of_checked h fun hb => ?_
    split at hb
    · exact completedFrom_of_raise (workedOn_set ..) hb
    · exact completedFrom_of_complete (workedOn_set ..) hb

theorem CompletedFrom.opr_eq (h : CompletedFrom s t) : t.opr = s.opr := by
  obtain ⟨u, hw, ⟨r, rfl⟩ | ⟨e, rfl⟩⟩ := h
  · rw [complete_opr, hw.opr_eq]
  · rw [raise_opr, hw.opr_eq]

end Command

/-! ### Register writes -/

/-- A host write at an offset of the window is the write of the register there. -/
theorem step_regWrite {s : State} {off : Nat} {r : Reg} {v : Word} {rest : List Turn} (hr : (off, r) ∈ windowMap)
    (ha : s.agenda = .host (.regWrite off 4 v) :: rest) : step s = writeReg r v { s with agenda := rest } := by
  rw [step_host ha]
  simp only [hostAction, regAt_of_mem hr]

@[simp] theorem readReg_agenda (r : Reg) (s : State) (rest : List Turn) :
    readReg r { s with agenda := rest } = readReg r s := by
  cases r <;> rfl

section OperandWrite
variable {off : Nat} {r : Reg}

theorem windowMap_of_operandMap (h : (off, r) ∈ operandMap) : (off, r) ∈ windowMap := by
  have hsub : operandMap ⊆ windowMap := by decide
  exact hsub h

theorem writeReg_operand (h : (off, r) ∈ operandMap) (v : Word) (s : State) :
    writeReg r v s = writeOperand (operandsAfterWrite off v s.opr) s := by
  fin_cases h <;> rfl

theorem writeOperand_idle {s : State} (hidle : s.status.busy = false) (o : OperandRegs) :
    writeOperand o s = .next { s with opr := o } := by
  simp [writeOperand, hidle]

/-- After an operand write the register written reads the value, and every other register what it read before. With both
registers known, the two sides compute to the same field. -/
theorem readReg_operandsAfterWrite (h : (off, r) ∈ operandMap) (v : Word) (s : State) (r' : Reg) :
    readReg r' { s with opr := operandsAfterWrite off v s.opr } = if r' = r then v else readReg r' s := by
  fin_cases h <;> cases r' <;> rfl

/-- A host write to an operand register while idle (10_state.md R21). -/
theorem step_operandWrite {s : State} {v : Word} {rest : List Turn} (h : (off, r) ∈ operandMap)
    (hidle : s.status.busy = false) (ha : s.agenda = .host (.regWrite off 4 v) :: rest) :
    step s = .next { s with agenda := rest, opr := operandsAfterWrite off v s.opr } := by
  rw [step_regWrite (windowMap_of_operandMap h) ha, writeReg_operand h]
  exact writeOperand_idle (s := { s with agenda := rest }) hidle _

end OperandWrite

/-- Settles O8: an operand write stores its value in the operand record and nowhere else, and a completed command has
the operand record it started with. -/
theorem operandRegistersStoreEveryValue : Obligations.OperandRegistersStoreEveryValue := by
  unfold Obligations.OperandRegistersStoreEveryValue
  refine ⟨fun s off r v rest hr hidle ha => ?_, fun i s t h => (completedFrom_of_exec h).opr_eq⟩
  have hread := readReg_operandsAfterWrite hr v { s with agenda := rest }
  refine ⟨_, step_operandWrite hr hidle ha, ?_, fun r' hne => ?_, rfl⟩
  · rw [hread, if_pos rfl]
  · rw [hread, if_neg hne, readReg_agenda]

end Machine
end Sys2Proof

/-! ### Register writes and memory -/

namespace Sys2Proof
namespace Machine

section RegisterWrite
variable {s t : State}

@[simp] theorem startCommand_mem (w : Word) (s : State) : (startCommand w s).mem = s.mem := by
  unfold startCommand
  split <;> simp

theorem writeOperand_mem {o : OperandRegs} (h : writeOperand o s = .next t) : t.mem = s.mem := by
  unfold writeOperand at h
  split at h <;> cases h
  rfl

/-- No register write that answers changes memory: a command's effects come with its completion. -/
theorem writeReg_mem {r : Reg} {v : Word} (h : writeReg r v s = .next t) : t.mem = s.mem := by
  cases r with
  | id | status | errcode | result | irqEn | reserved =>
    cases h
    rfl
  | cmd =>
    rw [writeReg] at h
    split at h <;> cases h
    exact startCommand_mem v s
  | srcAddr | srcStart | srcLen | dstAddr | dstCap | dstOff | dictAddr | dictLen | param => exact writeOperand_mem h

end RegisterWrite

/-! ### What a parse can end with -/

/-- The errors found while a command executes (42_block_compressor.md R88, 43_block_decompressor.md R109). -/
def executionErrors : List ErrorCode :=
  [.outputBufferTooSmall, .malformedInput, .invalidOffset, .dictionaryOutOfBounds]

theorem ne_noError_of_mem_executionErrors {e : ErrorCode} (h : e ∈ executionErrors) : e ≠ .noError := by
  rintro rfl
  exact absurd h (by decide)

/-- A part of the parse ends with its output cursor at or before `n`, or with an error of the execution. -/
def EndsWithin (n : Nat) : Except ErrorCode Cursor → Prop
  | .ok c => c.op ≤ n
  | .error e => e ∈ executionErrors

section Parse
variable (oend : Nat)

theorem readLiterals_endsWithin (c : Cursor) (t : Byte) (input : List Byte) :
    EndsWithin oend (readLiterals oend c t input) := by
  unfold readLiterals
  split
  · simp [EndsWithin, executionErrors]
  · split
    · simp [EndsWithin, executionErrors]
    · next hfits =>
      split
      · simp [EndsWithin, executionErrors]
      · exact Nat.le_of_not_lt hfits

theorem readMatch_endsWithin (c : Cursor) (t : Byte) : EndsWithin oend (readMatch oend c t) := by
  unfold readMatch
  split
  · dsimp only
    split
    · simp [EndsWithin, executionErrors]
    · split
      · simp [EndsWithin, executionErrors]
      · split
        · simp [EndsWithin, executionErrors]
        · next hfits =>
          split
          · simp [EndsWithin, executionErrors]
          · exact Nat.le_of_not_lt hfits
  · simp [EndsWithin, executionErrors]

variable {oend}

/-- Each sequence checks its output against `oend`, so the cursor passes neither its start nor `oend`. -/
theorem parse_endsWithin {n fuel : Nat} {c : Cursor} (hn : oend ≤ n) (hc : c.op ≤ n) :
    EndsWithin n (parse oend fuel c) := by
  induction fuel generalizing c with
  | zero => exact hc
  | succ fuel ih =>
    rw [parse]
    split
    · exact hc
    · next t input _ =>
      have hlit := readLiterals_endsWithin oend c t input
      split
      · next he => rwa [he] at hlit
      · next c1 h1 =>
        rw [h1] at hlit
        split
        · exact hlit.trans hn
        · have hmat := readMatch_endsWithin oend c1 t
          split
          · next he => rwa [he] at hmat
          · next c2 h2 =>
            rw [h2] at hmat
            exact ih (hmat.trans hn)

/-- Decoding ends with no more bytes than the room after the history, or with an error of the execution. -/
theorem decodeBlock_cases (block history dict : List Byte) (oend : Nat) :
    (∃ e ∈ executionErrors, decodeBlock block history dict oend = .error e) ∨
    ∃ out, out.length ≤ oend - history.length ∧ decodeBlock block history dict oend = .ok out := by
  have hend := parse_endsWithin (fuel := block.length) (c := ⟨block, (dict ++ history).reverse, history.length⟩)
    (Nat.le_max_right history.length oend) (Nat.le_max_left history.length oend)
  unfold decodeBlock
  split
  · next e he =>
    rw [he] at hend
    exact .inl ⟨e, hend, rfl⟩
  · next c hp =>
    rw [hp] at hend
    have hop : c.op ≤ max history.length oend := hend
    refine .inr ⟨_, ?_, rfl⟩
    rw [List.length_reverse, List.length_take]
    omega

end Parse

/-! ### What a command does to memory -/

section MemoryEffect
variable {s t : State} {i : Instr} {sp : Config.Span}

theorem writeRegion_base (h : writeRegion i s.opr = some sp) : sp.base = dstStart s.opr := by
  cases i <;> cases h <;> rfl

theorem writeRegion_len_lt (h : writeRegion i s.opr = some sp) : sp.len < 2 ^ 32 := by
  have hcap := s.opr.dstCap.isLt
  cases i <;> cases h <;> simp only [OperandRegs.dstSpan, OperandRegs.saveSpan, Config.snapshotSize] <;> omega

/-- The three ways a command whose start checks pass leaves memory: as it was, for want of a write region, with its output
stored from the start of the write region on, or with the whole write region unspecified (20_memory.md R32,
60_exceptions.md R121). -/
inductive MemoryEffect (i : Instr) (s t : State) : Prop
  | untouched (hregion : writeRegion i s.opr = none) (hcode : t.errcode = .noError) (hmem : t.mem = s.mem)
  | stored (sp : Config.Span) (out : List Byte) (hregion : writeRegion i s.opr = some sp) (hfits : out.length ≤ sp.len)
      (hcode : t.errcode = .noError) (hresult : t.result = BitVec.ofNat 32 out.length)
      (hmem : t.mem = s.mem.writeBytes sp.base out)
  | scrambled (sp : Config.Span) (hregion : writeRegion i s.opr = some sp) (hcode : t.errcode ∈ executionErrors)
      (hmem : t.mem = s.mem.scramble sp s.draws)

/-- A command that answers is refused at its start with memory as it was, or ends as its body does. -/
theorem memoryEffect_of_checked {body : State → Host.Outcome State Fault Refusal} (h : checked i s body = .next t)
    (hbody : body s = .next t → MemoryEffect i s t) :
    (startError i s = some t.errcode ∧ t.mem = s.mem) ∨ (startError i s = none ∧ MemoryEffect i s t) := by
  rcases checked_cases i s body with ⟨-, hc⟩ | ⟨e, -, he, hc⟩ | ⟨-, he, hc⟩ <;> rw [hc] at h
  · cases h
  · cases h
    exact .inl ⟨he, rfl⟩
  · exact .inr ⟨he, hbody h⟩

theorem memoryEffect_of_finishCompress {r : Block × HashTable} (hregion : writeRegion i s.opr = some s.opr.dstSpan)
    (h : finishCompress r s = .next t) : MemoryEffect i s t := by
  rcases finishCompress_cases r s with ⟨-, hf⟩ | ⟨hfits, hf⟩ <;> rw [hf] at h <;> cases h
  · exact .scrambled _ hregion (by simp [executionErrors]) rfl
  · exact .stored _ _ hregion hfits rfl rfl rfl

theorem memoryEffect_of_exec (h : exec i s = .next t) :
    (startError i s = some t.errcode ∧ t.mem = s.mem) ∨ (startError i s = none ∧ MemoryEffect i s t) := by
  cases i with
  | xxh32Oneshot | xxh32Reset | xxh32Update | xxh32Digest | htClear | htShift | htWarm | htLoad =>
    simp only [exec, execXxh32Oneshot, execXxh32Reset, execXxh32Update, execXxh32Digest, execHtClear, execHtShift,
      execHtWarm, execHtLoad] at h
    refine memoryEffect_of_checked h fun hb => ?_
    cases hb
    exact .untouched rfl rfl rfl
  | htSave =>
    rw [exec, execHtSave] at h
    refine memoryEffect_of_checked h fun hb => ?_
    cases hb
    have hlen := s.ht.snapshot_length
    exact .stored _ _ rfl hlen.le rfl (by rw [hlen]; rfl) rfl
  | compressBlock | compressBlockExt => exact memoryEffect_of_checked h (memoryEffect_of_finishCompress rfl)
  | decompressBlock =>
    rw [exec, execDecompressBlock] at h
    refine memoryEffect_of_checked h fun hb => ?_
    rcases decodeBlock_cases (srcBytes s) (historyBytes s) (dictBytes s) s.opr.dstCap.toNat with
      ⟨e, he, hd⟩ | ⟨out, hroom, hd⟩ <;> rw [hd] at hb <;> cases hb
    · exact .scrambled _ rfl he rfl
    · rw [historyBytes, Memory.readBytes_length] at hroom
      exact .stored _ out rfl hroom rfl rfl rfl

theorem MemoryEffect.read_outside (h : MemoryEffect i s t) {a : Nat}
    (ha : ∀ sp, writeRegion i s.opr = some sp → sp.contains a = false) : t.mem.read a = s.mem.read a := by
  cases h with
  | untouched _ _ hmem => rw [hmem]
  | stored sp out hregion hfits _ _ hmem =>
    have hout := (sp.contains_eq_false_iff a).mp (ha sp hregion)
    rw [hmem, Memory.read_writeBytes_outside (by omega)]
  | scrambled sp hregion _ hmem => simp [hmem, Memory.read_scramble, ha sp hregion]

theorem MemoryEffect.read_beyond_result (h : MemoryEffect i s t) (hok : t.errcode = .noError) {a : Nat}
    (ha : dstStart s.opr + t.result.toNat ≤ a) : t.mem.read a = s.mem.read a := by
  cases h with
  | untouched _ _ hmem => rw [hmem]
  | stored sp out hregion hfits _ hresult hmem =>
    have hlt : out.length < 2 ^ 32 := hfits.trans_lt (writeRegion_len_lt hregion)
    rw [hresult, BitVec.toNat_ofNat, Nat.mod_eq_of_lt hlt, ← writeRegion_base hregion] at ha
    rw [hmem, Memory.read_writeBytes_outside (by omega)]
  | scrambled sp _ hcode _ => exact absurd hok (ne_noError_of_mem_executionErrors hcode)

theorem MemoryEffect.read_after_error (h : MemoryEffect i s t) (herr : t.errcode ≠ .noError)
    (hsp : writeRegion i s.opr = some sp) {a : Nat} (ha : sp.contains a = true) :
    t.mem.read a = Config.freeByte s.draws a := by
  cases h with
  | untouched _ hcode _ | stored _ _ _ _ hcode _ _ => exact absurd hcode herr
  | scrambled sp' hregion _ hmem =>
    obtain rfl : sp' = sp := Option.some.inj (hregion.symm.trans hsp)
    rw [hmem, Memory.read_scramble, if_pos ha]

end MemoryEffect

/-- Settles O25: a register write changes no memory, an error found at the start of a command leaves memory as it was, and
past the start checks each way a command leaves memory keeps to the write region. -/
theorem writesStayInWriteRegion : Obligations.WritesStayInWriteRegion := by
  unfold Obligations.WritesStayInWriteRegion
  refine ⟨fun s t w rest hagenda _ hstep => ?_, fun i s t h => ?_⟩
  · rw [step_regWrite (by decide : (0x04, Reg.cmd) ∈ windowMap) hagenda] at hstep
    exact (writeReg_mem hstep :)
  · rcases memoryEffect_of_exec h with ⟨hstart, hmem⟩ | ⟨hstart, heffect⟩
    · rw [hmem]
      exact ⟨fun _ _ => rfl, fun _ _ _ => rfl, fun _ => rfl, fun _ hpass => by simp [hpass] at hstart⟩
    · exact ⟨fun _ => heffect.read_outside, fun hok _ => heffect.read_beyond_result hok, fun hne => absurd hstart hne,
        fun herr _ _ hsp _ => heffect.read_after_error herr hsp⟩

end Machine
end Sys2Proof

/-! ### The command words (30_encoding.md R37) -/

namespace Sys2Proof

theorem decode_eq_ok_iff_lookup (w : Word) (i : Instr) :
    decode w = .ok i ↔ opcodeTable.lookup (opcodeField w) = some i ∧ rsvdField w = 0 := by
  unfold decode
  by_cases hrsvd : rsvdField w = 0
  · rw [if_pos hrsvd]
    cases opcodeTable.lookup (opcodeField w) <;> simp [hrsvd]
  · rw [if_neg hrsvd]
    simp only [reduceCtorEq, hrsvd, and_false]

/-- The table pairs each command with the OPCODE of its word, and no other opcode finds it. -/
theorem lookup_opcodeTable_eq_some_iff (b : Byte) (i : Instr) :
    opcodeTable.lookup b = some i ↔ b = opcodeField (encode i) := by
  constructor
  · intro hlookup
    obtain ⟨before, after, htable, -⟩ := List.lookup_eq_some_iff.mp hlookup
    have hrow : (b, i) ∈ opcodeTable := by simp [htable]
    have hrows : ∀ row ∈ opcodeTable, row.1 = opcodeField (encode row.2) := by decide
    exact hrows (b, i) hrow
  · rintro rfl
    cases i <;> decide

theorem decode_eq_ok_iff (w : Word) (i : Instr) :
    decode w = .ok i ↔ opcodeField w = opcodeField (encode i) ∧ rsvdField w = 0 := by
  rw [decode_eq_ok_iff_lookup, lookup_opcodeTable_eq_some_iff]

/-- Settles O1: the twelve words are evaluated, and the table finds a command by the OPCODE of its word alone. -/
theorem commandWordsOfTheTable : Obligations.CommandWordsOfTheTable := by
  unfold Obligations.CommandWordsOfTheTable
  exact ⟨by decide, decode_eq_ok_iff⟩

end Sys2Proof

/-! ### Decoding a length (30_encoding.md R42, R43) -/

namespace Sys2Proof
namespace Machine

theorem readLength_fifteen (input : List Byte) : readLength 15 input = readExt input 15 := rfl

theorem readLength_of_ne_fifteen {f : BitVec 4} (hf : f ≠ 15) (input : List Byte) :
    readLength f input = some (f.toNat, input) := if_neg hf

theorem readExt_cons_of_ne {b : Byte} (hb : b ≠ 255) (rest : List Byte) (n : Nat) :
    readExt (b :: rest) n = some (n + b.toNat, rest) := if_neg hb

/-- A run of bytes 255 is read off the front, each adding 255. -/
theorem readExt_replicate_append (k : Nat) (rest : List Byte) (n : Nat) :
    readExt (List.replicate k 255 ++ rest) n = readExt rest (n + 255 * k) := by
  induction k generalizing n with
  | zero => rfl
  | succ k ih =>
    calc readExt (List.replicate (k + 1) 255 ++ rest) n
        = readExt (List.replicate k 255 ++ rest) (n + 255) := rfl
      _ = readExt rest (n + 255 + 255 * k) := ih _
      _ = readExt rest (n + 255 * (k + 1)) := by congr 1; omega

theorem readExt_chain (k : Nat) {b : Byte} (hb : b ≠ 255) (rest : List Byte) (n : Nat) :
    readExt (List.replicate k 255 ++ b :: rest) n = some (n + 255 * k + b.toNat, rest) := by
  rw [readExt_replicate_append, readExt_cons_of_ne hb]

/-- A chain that reaches the end of the input is refused. -/
theorem readExt_replicate (k n : Nat) : readExt (List.replicate k 255) n = none := by
  have h := readExt_replicate_append k [] n
  rwa [List.append_nil] at h

theorem lengthNibble_toNat (n : Nat) : (lengthNibble n).toNat = min n 15 := by
  rw [lengthNibble, BitVec.toNat_ofNat, Nat.mod_eq_of_lt (by omega)]

theorem lengthNibble_eq_fifteen_iff (n : Nat) : lengthNibble n = 15 ↔ 15 ≤ n := by
  rw [← BitVec.toNat_inj, lengthNibble_toNat]
  exact min_eq_right_iff

theorem lengthExt_of_lt {n : Nat} (hn : n < 15) : lengthExt n = [] := if_pos hn

theorem lengthExt_of_le {n : Nat} (hn : 15 ≤ n) :
    lengthExt n = List.replicate ((n - 15) / 255) 255 ++ [BitVec.ofNat 8 ((n - 15) % 255)] := if_neg (by omega)

/-- The remainder byte of an extension. -/
theorem toNat_ofNat_mod_255 (m : Nat) : (BitVec.ofNat 8 (m % 255)).toNat = m % 255 := by
  rw [BitVec.toNat_ofNat]
  omega

theorem ofNat_mod_255_ne (m : Nat) : BitVec.ofNat 8 (m % 255) ≠ 255 := by
  intro h
  have hval : m % 255 = 255 := (toNat_ofNat_mod_255 m).symm.trans (congrArg BitVec.toNat h)
  omega

/-- Reading what the encoder writes gives the length and consumes exactly the extension: below 15 there is none, from 15
on it is a chain that ends with the remainder. -/
theorem readLength_lengthExt (n : Nat) (rest : List Byte) :
    readLength (lengthNibble n) (lengthExt n ++ rest) = some (n, rest) := by
  by_cases hn : 15 ≤ n
  · rw [(lengthNibble_eq_fifteen_iff n).mpr hn, readLength_fifteen, lengthExt_of_le hn, List.append_assoc,
      List.singleton_append, readExt_chain _ (ofNat_mod_255_ne _), toNat_ofNat_mod_255]
    have hsum : 15 + 255 * ((n - 15) / 255) + (n - 15) % 255 = n := by omega
    rw [hsum]
  · have hfield : lengthNibble n ≠ 15 := mt (lengthNibble_eq_fifteen_iff n).mp hn
    have hmin : min n 15 = n := by omega
    rw [readLength_of_ne_fifteen hfield, lengthNibble_toNat, hmin, lengthExt_of_lt (by omega), List.nil_append]

/-- Settles O40: a chain of bytes 255 is read off by induction on its length, and the encoder writes such a chain. -/
theorem lengthDecodingInvertsEncoding : Obligations.LengthDecodingInvertsEncoding := by
  unfold Obligations.LengthDecodingInvertsEncoding
  exact ⟨fun _ input hf => readLength_of_ne_fifteen hf input, fun k _ rest hb => readExt_chain k hb rest 15,
    fun k => readExt_replicate k 15, readLength_lengthExt⟩

end Machine
end Sys2Proof

/-! ### xxHash32: incremental hashing (40_xxhash32.md R60 to R63) -/

namespace Sys2Proof
namespace Machine

section CommandStart
variable {i : Instr} {s t : State}

theorem sizeError_ne_noError (i : Instr) (o : OperandRegs) : sizeError i o ≠ some .noError := by
  cases i with
  | htSave | htLoad =>
    rw [sizeError]
    split <;> simp
  | _ => simp [sizeError]

theorem startError_ne_noError (i : Instr) (s : State) : startError i s ≠ some .noError := by
  unfold startError
  split
  · simp
  · split
    · next e he => exact he ▸ sizeError_ne_noError i s.opr
    · split <;> simp

/-- A command that completes without an error has run its body. -/
theorem body_of_checked_noError {body : State → Host.Outcome State Fault Refusal} (h : checked i s body = .next t)
    (hok : t.errcode = .noError) : body s = .next t := by
  rcases checked_cases i s body with ⟨-, hc⟩ | ⟨e, -, he, hc⟩ | ⟨-, -, hc⟩ <;> rw [hc] at h
  · cases h
  · cases h
    exact absurd (hok ▸ he) (startError_ne_noError i s)
  · exact h

end CommandStart

theorem exec_xxh32Reset (s : State) : exec .xxh32Reset s = .next (complete 0 { s with xs := .init s.opr.param }) := by
  rw [exec, execXxh32Reset, checked_of_passes rfl rfl]

theorem exec_xxh32Digest (s : State) : exec .xxh32Digest s = .next (complete s.xs.digest s) := by
  rw [exec, execXxh32Digest, checked_of_passes rfl rfl]

/-- The bytes a command reads are those the statements write out. -/
theorem srcBytes_eq_sourceOf (s : State) : srcBytes s = sourceOf s := Memory.readBytes_eq_map ..

theorem xs_of_exec_xxh32Update {s t : State} (h : exec .xxh32Update s = .next t) (hok : t.errcode = .noError) :
    t.xs = s.xs.update (sourceOf s) := by
  rw [exec, execXxh32Update] at h
  cases body_of_checked_noError h hok
  rw [← srcBytes_eq_sourceOf, complete_xs]

/-! Absorbing bytes in pieces -/

theorem viewAt_append {d : List Byte} {k : Nat} (e : List Byte) (hk : k < d.length) :
    viewAt (d ++ e) k = viewAt d k := List.getD_append d e 0 k hk

theorem rd32LE_append {d : List Byte} {k : Nat} (e : List Byte) (hk : k + 4 ≤ d.length) :
    rd32LE (d ++ e) k = rd32LE d k := by
  simp only [rd32LE]
  rw [viewAt_append e (by omega), viewAt_append e (by omega), viewAt_append e (by omega), viewAt_append e (by omega)]

theorem xxhStripe_append (a : Accumulators) {d : List Byte} (e : List Byte) (hd : 16 ≤ d.length) :
    xxhStripe a (d ++ e) = xxhStripe a d := by
  simp only [xxhStripe]
  rw [rd32LE_append e (by omega), rd32LE_append e (by omega), rd32LE_append e (by omega), rd32LE_append e (by omega)]

/-- `n` stripes read the first `16 * n` bytes only. -/
theorem xxhStripes_append {n : Nat} (a : Accumulators) {d : List Byte} (e : List Byte) (hd : 16 * n ≤ d.length) :
    xxhStripes n a (d ++ e) = xxhStripes n a d := by
  induction n generalizing a d with
  | zero => rfl
  | succ n ih =>
    have hrest : 16 * n ≤ (d.drop 16).length := by rw [List.length_drop]; omega
    rw [xxhStripes, xxhStripes, xxhStripe_append a e (by omega), List.drop_append_of_le_length (by omega), ih _ hrest]

/-- Two contexts are equal when their accumulators and their other fields are. -/
theorem XxhContext.eq_of_accumulators {x y : XxhContext} (hseed : x.seed = y.seed)
    (hacc : x.accumulators = y.accumulators) (htotal : x.total = y.total) (hlarge : x.large = y.large)
    (hmem : x.mem = y.mem) : x = y := by
  cases x
  cases y
  simp_all [accumulators]

/-- The bytes left over after the whole stripes of a string. -/
def afterStripes (d : List Byte) : List Byte := d.drop (16 * (d.length / 16))

theorem length_div_append (d e : List Byte) :
    (d ++ e).length / 16 = d.length / 16 + (afterStripes d ++ e).length / 16 := by
  simp only [afterStripes, List.length_append, List.length_drop]
  omega

theorem drop_stripes_append (d e : List Byte) : (d ++ e).drop (16 * (d.length / 16)) = afterStripes d ++ e :=
  List.drop_append_of_le_length (by omega)

theorem afterStripes_append (d e : List Byte) : afterStripes (afterStripes d ++ e) = afterStripes (d ++ e) := by
  calc (afterStripes d ++ e).drop (16 * ((afterStripes d ++ e).length / 16))
      = (d ++ e).drop (16 * (d.length / 16) + 16 * ((afterStripes d ++ e).length / 16)) := by
        rw [← List.drop_drop, drop_stripes_append]
    _ = afterStripes (d ++ e) := by rw [← Nat.mul_add, ← length_div_append, afterStripes]

/-- The whole stripes of `d ++ e` are those of `d`, then those of what `d` leaves over followed by `e`. -/
theorem xxhStripes_split (a : Accumulators) (d e : List Byte) :
    xxhStripes ((d ++ e).length / 16) a (d ++ e) =
      xxhStripes ((afterStripes d ++ e).length / 16) (xxhStripes (d.length / 16) a d) (afterStripes d ++ e) := by
  rw [length_div_append d e, xxhStripes_add, xxhStripes_append a e (by omega), drop_stripes_append]

theorem XxhContext.update_mem_eq_afterStripes (x : XxhContext) (d : List Byte) :
    (x.update d).mem = afterStripes (x.mem ++ d) := rfl

theorem XxhContext.toNat_update_total {x : XxhContext} {d : List Byte} (hlen : x.total.toNat + d.length < 2 ^ 32) :
    (x.update d).total.toNat = x.total.toNat + d.length := by
  rw [update_total, BitVec.toNat_add, BitVec.toNat_ofNat]
  omega

/-- The large flag in numbers, where the total does not wrap. -/
theorem XxhContext.update_large_iff {x : XxhContext} {d : List Byte} (hlen : x.total.toNat + d.length < 2 ^ 32) :
    (x.update d).large = true ↔ x.large = true ∨ 16 ≤ x.total.toNat + d.length := by
  rw [update_large, ← update_total, toNat_update_total hlen]
  simp only [Bool.or_eq_true, decide_eq_true_eq, or_assoc]
  exact or_congr_right (by omega)

/-- The large flag is sticky: without wrap, a total of 16 bytes stays one. -/
theorem XxhContext.update_update_large {x : XxhContext} {d e : List Byte}
    (hlen : x.total.toNat + (d ++ e).length < 2 ^ 32) :
    ((x.update d).update e).large = (x.update (d ++ e)).large := by
  have hsum : (d ++ e).length = d.length + e.length := List.length_append
  have hd : x.total.toNat + d.length < 2 ^ 32 := by omega
  have he : (x.update d).total.toNat + e.length < 2 ^ 32 := by rw [toNat_update_total hd]; omega
  rw [Bool.eq_iff_iff, update_large_iff he, update_large_iff hd, update_large_iff hlen, toNat_update_total hd, or_assoc]
  exact or_congr_right (by omega)

/-- Two updates are one update with both pieces, as long as the total does not wrap. -/
theorem XxhContext.update_update {x : XxhContext} {d e : List Byte}
    (hlen : x.total.toNat + (d ++ e).length < 2 ^ 32) : (x.update d).update e = x.update (d ++ e) := by
  refine eq_of_accumulators rfl ?_ ?_ (update_update_large hlen) ?_
  · rw [update_accumulators, update_accumulators, update_accumulators, ← List.append_assoc]
    exact (xxhStripes_split ..).symm
  · simp only [update_total, List.length_append, BitVec.ofNat_add, BitVec.add_assoc]
  · rw [update_mem_eq_afterStripes, update_mem_eq_afterStripes, update_mem_eq_afterStripes, ← List.append_assoc,
      afterStripes_append]

/-- An update with no bytes changes nothing in a consistent context. -/
theorem XxhContext.update_nil {x : XxhContext} (hx : x.wf = true) : x.update [] = x := by
  obtain ⟨hmem, hpath⟩ := x.wf_iff.mp hx
  have hstripes : (x.mem ++ []).length / 16 = 0 := by
    rw [List.append_nil]
    omega
  refine eq_of_accumulators rfl ?_ (BitVec.add_zero _) ?_ ?_
  · rw [update_accumulators, hstripes, xxhStripes]
  · rcases hpath with hlarge | ⟨hshort, -⟩
    · simp [update_large, hlarge]
    · simp [update_large, hshort]
  · rw [update_mem, hstripes, List.append_nil, Nat.mul_zero, List.drop_zero]

/-- Updates in turn are one update with the concatenation of their pieces. -/
theorem HashedInTurn.eq_update {x y : XxhContext} {us : List State} (h : HashedInTurn x us y) (hx : x.wf = true)
    (hlen : x.total.toNat + (us.flatMap sourceOf).length < 2 ^ 32) : y = x.update (us.flatMap sourceOf) := by
  induction us generalizing x with
  | nil => exact h.symm.trans (XxhContext.update_nil hx).symm
  | cons u us ih =>
    obtain ⟨rfl, t, hexec, hok, hrest⟩ := h
    rw [xs_of_exec_xxh32Update hexec hok] at hrest
    rw [List.flatMap_cons] at hlen ⊢
    have hsum : (sourceOf u ++ us.flatMap sourceOf).length = (sourceOf u).length + (us.flatMap sourceOf).length :=
      List.length_append
    have htotal := XxhContext.toNat_update_total (x := u.xs) (d := sourceOf u) (by omega)
    rw [← XxhContext.update_update hlen]
    exact ih hrest (XxhContext.update_wf hx _) (by omega)

/-! The digest -/

/-- After one update of a fresh context the large flag tells the path: a wrapped total is at most the length. -/
theorem XxhContext.init_update_large (seed : Word) (d : List Byte) :
    ((XxhContext.init seed).update d).large = decide (16 ≤ d.length) := by
  have hwrap : (BitVec.ofNat 32 d.length).toNat ≤ d.length := by
    rw [BitVec.toNat_ofNat]
    exact Nat.mod_le ..
  have hshort : (init seed).large = false := rfl
  have htotal : (init seed).total = 0#32 := rfl
  rw [update_large, hshort, htotal, BitVec.zero_add, Bool.false_or, Bool.eq_iff_iff]
  simp only [Bool.or_eq_true, decide_eq_true_eq]
  omega

/-- One update of a fresh context, then the digest, is the one-shot hash, whatever the length (R66). -/
theorem XxhContext.digest_init_update (seed : Word) (d : List Byte) :
    ((XxhContext.init seed).update d).digest = xxh32 d seed := by
  have htotal : ((init seed).update d).total = BitVec.ofNat 32 d.length := BitVec.zero_add _
  rw [digest, init_update_large, htotal]
  simp only [decide_eq_true_eq]
  rfl

/-- Settles O30: updates in turn are one update with all bytes, and after one update of a fresh context the digest is the
one-shot hash. -/
theorem incrementalHashEqualsOneshot : Obligations.IncrementalHashEqualsOneshot := by
  unfold Obligations.IncrementalHashEqualsOneshot
  intro r t0 d us hreset hupdates hlen
  rw [exec_xxh32Reset] at hreset
  cases hreset
  have hxs : d.xs = (XxhContext.init r.opr.param).update (us.flatMap sourceOf) :=
    hupdates.eq_update (XxhContext.init_wf _) ((Nat.zero_add _).trans_lt hlen)
  have hdigest : d.xs.digest = xxh32 (us.flatMap sourceOf) r.opr.param := by rw [hxs, XxhContext.digest_init_update]
  rw [exec_xxh32Digest, hdigest]
  rfl

/-! The digest written out (40_xxhash32.md R54, R56, R57, R62) -/

theorem rotl32_eq_rotateLeft (x : Word) {r : Nat} (hr : r < 32) : rotl32 x r = x.rotateLeft r := by
  rw [BitVec.rotateLeft_def, Nat.mod_eq_of_lt hr]
  rfl

theorem xxhMerge_eq_mergeOf (v1 v2 v3 v4 : Word) : xxhMerge ⟨v1, v2, v3, v4⟩ = mergeOf v1 v2 v3 v4 := by
  rw [xxhMerge, mergeOf, rotl32_eq_rotateLeft v1 (by decide : 1 < 32), rotl32_eq_rotateLeft v2 (by decide : 7 < 32),
    rotl32_eq_rotateLeft v3 (by decide : 12 < 32), rotl32_eq_rotateLeft v4 (by decide : 18 < 32)]

theorem xxhAvalanche_eq_avalancheOf (h : Word) : xxhAvalanche h = avalancheOf h := rfl

theorem laneAt_eq_rd32LE (d : List Byte) (k : Nat) : laneAt d k = rd32LE d k := by
  rw [laneAt, rd32LE, ← le32_toNat, BitVec.ofNat_toNat, BitVec.setWidth_eq]

/-! `tailOf` takes the four-byte groups, then the single bytes, as `xxhTail` does. -/

theorem tailOf_cons_four (h : Word) (b0 b1 b2 b3 : Byte) (rest : List Byte) :
    tailOf h (b0 :: b1 :: b2 :: b3 :: rest) =
      tailOf ((h + le32 b0 b1 b2 b3 * 3266489917).rotateLeft 17 * 668265263) rest := by
  have hgroups : (b0 :: b1 :: b2 :: b3 :: rest).length / 4 = rest.length / 4 + 1 := by
    simp only [List.length_cons]
    omega
  have hsingles : (b0 :: b1 :: b2 :: b3 :: rest).length % 4 = rest.length % 4 := by
    simp only [List.length_cons]
    omega
  have hview (k : Nat) : viewAt (b0 :: b1 :: b2 :: b3 :: rest) (4 + k) = viewAt rest k :=
    (viewAt_drop _ 4 k).symm
  have hfirst : laneAt (b0 :: b1 :: b2 :: b3 :: rest) (4 * 0) = le32 b0 b1 b2 b3 := laneAt_eq_rd32LE ..
  have hlane (k : Nat) : laneAt (b0 :: b1 :: b2 :: b3 :: rest) (4 * (k + 1)) = laneAt rest (4 * k) := by
    rw [Nat.mul_add, Nat.add_comm]
    simp only [laneAt, Nat.add_assoc, hview]
  have hbyte (k : Nat) : viewAt (b0 :: b1 :: b2 :: b3 :: rest) (4 * (rest.length / 4 + 1) + k) =
      viewAt rest (4 * (rest.length / 4) + k) := by
    rw [← hview]
    congr 1
    omega
  rw [tailOf, hgroups, hsingles, List.range_succ_eq_map, List.foldl_cons, List.foldl_map]
  simp only [hfirst, hlane, hbyte, tailOf]

theorem tailOf_cons_of_short (h : Word) (b : Byte) {rest : List Byte} (hrest : rest.length < 3) :
    tailOf h (b :: rest) = tailOf ((h + b.setWidth 32 * 374761393).rotateLeft 11 * 2654435761) rest := by
  have hgroups : (b :: rest).length / 4 = 0 := by
    rw [List.length_cons]
    omega
  have hsingles : (b :: rest).length % 4 = rest.length % 4 + 1 := by
    rw [List.length_cons]
    omega
  have hgroups' : rest.length / 4 = 0 := by omega
  have hfirst : viewAt (b :: rest) (4 * 0 + 0) = b := rfl
  have hbyte (k : Nat) : viewAt (b :: rest) (4 * 0 + (k + 1)) = viewAt rest (4 * 0 + k) := by
    simp only [viewAt, Nat.zero_add, Nat.mul_zero, List.getD_cons_succ]
  rw [tailOf, hgroups, hsingles, List.range_succ_eq_map, List.foldl_cons, List.foldl_map]
  simp only [hfirst, hbyte, tailOf, hgroups', List.range_zero, List.foldl_nil]

theorem length_lt_three_of_ne_cons {rest : List Byte} (h : ∀ b1 b2 b3 tail, rest = b1 :: b2 :: b3 :: tail → False) :
    rest.length < 3 := by
  match rest with
  | [] | [_] | [_, _] => simp
  | b1 :: b2 :: b3 :: tail => exact (h b1 b2 b3 tail rfl).elim

theorem xxhTail_eq_tailOf (h : Word) (d : List Byte) : xxhTail h d = tailOf h d := by
  induction h, d using xxhTail.induct with
  | case1 h b0 b1 b2 b3 rest ih =>
    rw [xxhTail, ih, tailOf_cons_four, rotl32_eq_rotateLeft _ (by decide : 17 < 32), prime3, prime4]
  | case2 h b rest hshort ih =>
    rw [xxhTail.eq_2 _ _ _ hshort, ih, tailOf_cons_of_short h b (length_lt_three_of_ne_cons hshort),
      rotl32_eq_rotateLeft _ (by decide : 11 < 32), prime1, prime5]
  | case3 h => rfl

theorem XxhContext.digest_eq (x : XxhContext) :
    x.digest = avalancheOf
      (tailOf ((if x.large then mergeOf x.v1 x.v2 x.v3 x.v4 else x.seed + 374761393) + x.total) x.mem) := by
  rw [digest, accumulators, xxhMerge_eq_mergeOf, xxhAvalanche_eq_avalancheOf, xxhTail_eq_tailOf, prime5]

/-- Settles O29: a digest has no region to check, and its value is the one written out; it leaves the context on which
the value depends. -/
theorem digestKeepsContext : Obligations.DigestKeepsContext := by
  unfold Obligations.DigestKeepsContext
  refine fun s => ⟨?_, fun t ht => ?_⟩
  · rw [exec_xxh32Digest, XxhContext.digest_eq]
    rfl
  · rw [exec_xxh32Digest] at ht ⊢
    cases ht
    rfl

theorem XxhContext.digest_init_seven : (XxhContext.init 7).digest = 0xD7ADAFF8 := by decide

/-- Settles O27: a reset has no region to check; the digest of the context for seed 7 is evaluated. -/
theorem contextResetFromSeed : Obligations.ContextResetFromSeed := by
  unfold Obligations.ContextResetFromSeed
  refine ⟨exec_xxh32Reset, fun s t u hseed hreset hdigest => ?_⟩
  rw [exec_xxh32Reset] at hreset
  cases hreset
  rw [exec_xxh32Digest] at hdigest
  cases hdigest
  rw [complete_result, complete_xs, hseed]
  exact XxhContext.digest_init_seven

end Machine
end Sys2Proof

/-! ### The match finder: hash, clear and shift (41_match_finder.md R67, R70, R71) -/

namespace Sys2Proof
namespace Machine

/-- The hash in numbers: the product wraps at 32 bits, and its low 18 bits are shifted out. -/
theorem hashU32_eq (seq : Word) : hashU32 seq = seq.toNat * 2654435761 % 2 ^ 32 / 2 ^ 18 := by
  rw [hashU32, BitVec.toNat_ushiftRight, Nat.shiftRight_eq_div_pow, BitVec.toNat_mul]
  rfl

/-- Settles O31: the hash in numbers is a table index, and the rule's examples are evaluated. -/
theorem sequenceHashRule : Obligations.SequenceHashRule := by
  unfold Obligations.SequenceHashRule
  exact ⟨fun seq => ⟨hashU32_eq seq, hashU32_lt seq⟩, by decide, by decide, by decide⟩

/-! `HT_CLEAR` and `HT_SHIFT` have no operand check and no region, so their bodies always run. -/

theorem exec_htClear (s : State) : exec .htClear s = .next (complete 0 { s with ht := .zero }) := by
  rw [exec, execHtClear, checked_of_passes rfl rfl]

theorem exec_htShift (s : State) :
    exec .htShift s = .next (complete 0 { s with ht := s.ht.map (shiftEntry s.opr.param) }) := by
  rw [exec, execHtShift, checked_of_passes rfl rfl]

/-- Every byte of the snapshot of the empty table belongs to an entry 0. -/
theorem HashTable.zero_snapshot : HashTable.zero.snapshot = List.replicate Config.snapshotSize 0 := by
  refine List.eq_replicate_iff.mpr ⟨snapshot_length _, fun b hb => ?_⟩
  obtain ⟨i, -, hbyte⟩ := List.mem_flatMap.mp hb
  have hzero : le32Bytes 0#32 = List.replicate 4 0 := by decide
  rw [zero_read, hzero] at hbyte
  exact List.eq_of_mem_replicate hbyte

/-- Settles O32: the clear always completes with the empty table, whose snapshot is all zero. -/
theorem clearEmptiesTable : Obligations.ClearEmptiesTable := by
  unfold Obligations.ClearEmptiesTable
  exact fun s => ⟨_, exec_htClear s, rfl, HashTable.zero_read, HashTable.zero_snapshot⟩

/-- The shift of one entry in integers: a difference that is not negative is at most the entry, so it fits an entry. -/
theorem toInt_shiftEntry (k v : Word) :
    (shiftEntry k v).toInt = if v.toInt - k.toNat < 0 then 0 else v.toInt - k.toNat := by
  rw [shiftEntry]
  split
  · rfl
  · have hv : v.toInt < 2 ^ 31 := v.toInt_lt
    exact BitVec.toInt_ofInt_eq_self (by decide) (by omega) (by omega)

/-- Settles O33: the shift always completes; in a table in canonical form it acts on each entry, and so in integers. -/
theorem shiftSubtractsAndZeroes : Obligations.ShiftSubtractsAndZeroes := by
  unfold Obligations.ShiftSubtractsAndZeroes
  refine fun s hwf => ⟨_, exec_htShift s, rfl, fun k hk => ?_⟩
  rw [complete_ht, HashTable.read_map (shiftEntry_zero s.opr.param) hwf hk, toInt_shiftEntry]

end Machine
end Sys2Proof

/-! ### What a compressed block says of its view (42_block_compressor.md R79 to R85) -/

namespace Sys2Proof
namespace Machine

/-- What R80 and R82 say of a match of `m` bytes at view position `s` with offset `d`: where it may stand, and that its
bytes are those `d` before them. -/
structure MatchAt (p : Config.SearchParams) (view : List Byte) (s d m : Nat) : Prop where
  one_le_offset : 1 ≤ d
  offset_le_max : d ≤ 65535
  offset_le : d ≤ s
  four_le : 4 ≤ m
  start_lt : s + p.mflimit < view.length
  stop_le_of_extended : 4 < m → s + m + 5 ≤ view.length
  agrees : ∀ j, j < m → viewAt view (s - d + j) = viewAt view (s + j)

/-- `Encodes p view a b`: the block `b` stands for the view from position `a` on; its sequences are literals of the view
followed by a match, and its final literals reach the end of the view. -/
inductive Encodes (p : Config.SearchParams) (view : List Byte) : Nat → Block → Prop
  | final {a : Nat} (ha : a ≤ view.length) : Encodes p view a ⟨[], view.drop a⟩
  | sequence {a s d m : Nat} {b : Block} (has : a ≤ s) (hmatch : MatchAt p view s d m)
    (rest : Encodes p view (s + m) b) :
    Encodes p view a ⟨⟨slice view a s, d, m⟩ :: b.sequences, b.final⟩

section Encodes
variable {p : Config.SearchParams} {view : List Byte} {a s d m : Nat} {b : Block}

theorem MatchAt.start_le_length (h : MatchAt p view s d m) : s ≤ view.length := by
  have := h.start_lt
  omega

theorem MatchAt.stop_le_length (h : MatchAt p view s d m) (hp : p.Legal) : s + m ≤ view.length := by
  have := h.start_lt
  have := h.four_le
  have := h.stop_le_of_extended
  have := hp.1
  omega

/-- From `MFLIMIT` = 8 on a match of four bytes, too, ends at least 5 bytes before the end (R93). -/
theorem MatchAt.stop_add_five_le (h : MatchAt p view s d m) (hp : 8 ≤ p.mflimit) : s + m + 5 ≤ view.length := by
  have := h.start_lt
  have := h.four_le
  have := h.stop_le_of_extended
  omega

theorem Encodes.start_le_length (h : Encodes p view a b) : a ≤ view.length := by
  cases h with
  | final ha => exact ha
  | sequence has hmatch _ => exact has.trans hmatch.start_le_length

theorem length_slice (hs : s ≤ view.length) : (slice view a s).length = s - a := by
  rw [slice, List.length_take, List.length_drop]
  omega

theorem take_append_slice (has : a ≤ s) : view.take a ++ slice view a s = view.take s := by
  rw [slice, ← List.take_add, Nat.add_sub_cancel' has]

/-! The scan -/

/-- The whole length of a match agrees with its candidate: four bytes by acceptance, the others by extension. -/
theorem matchLength_agrees {cand j : Nat} (hfour : ∀ j, j < 4 → viewAt view (cand + j) = viewAt view (s + j))
    (hj : j < matchLength view s cand) : viewAt view (cand + j) = viewAt view (s + j) := by
  by_cases hj4 : j < 4
  · exact hfour j hj4
  · rw [matchLength] at hj
    have hcount := Nat.sub_lt_left_of_lt_add (by omega) hj
    have hext := agreeing_agrees hcount
    rw [viewAt_drop, viewAt_drop, Nat.add_assoc, Nat.add_assoc, Nat.add_sub_cancel' (by omega)] at hext
    exact hext.symm

theorem matchAt_of_accepts {old : Word} (hlimit : s + p.mflimit < view.length)
    (hacc : accepts view s (rd32LE view s) old = true) :
    MatchAt p view s (s - candidateOf old) (matchLength view s (candidateOf old)) := by
  obtain ⟨-, hbefore, hnear, hfour⟩ := (accepts_iff view s old).mp hacc
  obtain ⟨hfour_le, hstop⟩ := matchLength_bounds view s (candidateOf old)
  refine ⟨by omega, hnear, Nat.sub_le .., hfour_le, hlimit, hstop, fun j hj => ?_⟩
  rw [Nat.sub_sub_self hbefore.le]
  exact matchLength_agrees hfour hj

/-- Whatever the table and the fuel, a scan's block stands for the view from the first pending literal on. -/
theorem encodes_scan (hp : p.Legal) (fuel counter : Nat) (t : HashTable) (has : a ≤ s) (ha : a ≤ view.length) :
    Encodes p view a (scan p view fuel s a counter t).1 := by
  induction fuel generalizing s a counter t with
  | zero => exact .final ha
  | succ fuel ih =>
    rw [scan]
    split
    next hlimit =>
      dsimp only
      split
      next hacc =>
        have hmatch := matchAt_of_accepts hlimit hacc
        exact .sequence has hmatch (ih _ _ le_rfl (hmatch.stop_le_length hp))
      next => exact ih _ _ (has.trans (Nat.le_add_right ..)) ha
    next => exact .final ha

theorem encodes_compressCore (hp : p.Legal) (table : HashTable) (ha : a ≤ view.length) :
    Encodes p view a (compressCore p view a table).1 := encodes_scan hp _ _ table le_rfl ha

end Encodes

/-! ### The shape of a block (42_block_compressor.md R93) -/

section Shape
variable {p : Config.SearchParams} {view : List Byte} {a : Nat} {b : Block}

theorem Encodes.matchesWithin (h : Encodes p view a b) (hp : 8 ≤ p.mflimit) :
    MatchesWithin p.mflimit view.length a b.sequences := by
  induction h with
  | final => trivial
  | @sequence a s d m b has hmatch rest ih =>
    have hstart : a + (slice view a s).length = s := by
      rw [length_slice hmatch.start_le_length]
      omega
    simp only [MatchesWithin, hstart]
    exact ⟨hmatch.one_le_offset, hmatch.offset_le_max, hmatch.offset_le, hmatch.four_le, hmatch.start_lt,
      hmatch.stop_add_five_le hp, ih⟩

theorem Encodes.positionAfter_add_final (h : Encodes p view a b) :
    positionAfter a b.sequences + b.final.length = view.length := by
  induction h with
  | final ha =>
    rw [List.length_drop]
    exact Nat.add_sub_cancel' ha
  | @sequence a s d m b has hmatch rest ih =>
    have hstart : a + (slice view a s).length + m = s + m := by
      rw [length_slice hmatch.start_le_length]
      omega
    rw [positionAfter, List.foldl_cons, hstart]
    exact ih

theorem Encodes.five_le_final_of_start (h : Encodes p view a b) (hp : 8 ≤ p.mflimit) (ha : a + 5 ≤ view.length) :
    5 ≤ b.final.length := by
  induction h with
  | final =>
    rw [List.length_drop]
    omega
  | sequence _ hmatch _ ih => exact ih (hmatch.stop_add_five_le hp)

theorem Encodes.five_le_final (h : Encodes p view a b) (hp : 8 ≤ p.mflimit) (hne : b.sequences ≠ []) :
    5 ≤ b.final.length := by
  cases h with
  | final => exact absurd rfl hne
  | sequence _ hmatch rest => exact rest.five_le_final_of_start hp (hmatch.stop_add_five_le hp)

/-- A source of at most `MFLIMIT` bytes is not scanned at all. -/
theorem compressCore_of_le_mflimit (table : HashTable) (h : view.length - a ≤ p.mflimit) :
    compressCore p view a table = (⟨[], view.drop a⟩, table) := by
  rw [compressCore]
  cases view.length - a with
  | zero => rfl
  | succ fuel => exact if_neg (by omega)

end Shape

/-- Settles O46: the block of the core encodes the source, and every block that does has the shape of R93. -/
theorem blockEndShape : Obligations.BlockEndShape := by
  unfold Obligations.BlockEndShape
  intro p view base table hp hlimit hbase
  have henc := encodes_compressCore hp table hbase
  exact ⟨henc.matchesWithin hlimit, henc.positionAfter_add_final, henc.five_le_final hlimit,
    compressCore_of_le_mflimit table⟩

/-! ### The length of a block (42_block_compressor.md R91) -/

section Length
variable {p : Config.SearchParams} {view : List Byte} {a : Nat} {b : Block}

theorem length_lengthExt (n : Nat) : (lengthExt n).length = if n < 15 then 0 else (n - 15) / 255 + 1 := by
  rw [lengthExt]
  split <;> simp

theorem length_lengthExt_le (n : Nat) : (lengthExt n).length ≤ n / 255 + 1 := by
  rw [length_lengthExt]
  split <;> omega

/-- An extension is never longer than the length it extends. -/
theorem length_lengthExt_le_self (n : Nat) : (lengthExt n).length ≤ n := by
  rw [length_lengthExt]
  split <;> omega

theorem Sequence.length_bytes (q : Sequence) : q.bytes.length =
    3 + (lengthExt q.literals.length).length + q.literals.length + (lengthExt (q.matchLen - 4)).length := by
  simp only [Sequence.bytes, offsetBytes, List.length_cons, List.length_append, List.length_nil]
  omega

theorem length_finalBytes (lits : List Byte) :
    (finalBytes lits).length = 1 + (lengthExt lits.length).length + lits.length := by
  simp only [finalBytes, List.length_cons, List.length_append]
  omega

theorem Block.bytes_nil (lits : List Byte) : Block.bytes ⟨[], lits⟩ = finalBytes lits := rfl

theorem Block.bytes_cons (q : Sequence) (b : Block) :
    Block.bytes ⟨q :: b.sequences, b.final⟩ = q.bytes ++ b.bytes := by
  simp only [Block.bytes, List.flatMap_cons, List.append_assoc]

/-- A sequence spends 3 bytes, its extensions and its literals on its literals and its match of at least 4 bytes. -/
theorem Encodes.length_bytes_le (h : Encodes p view a b) (hp : p.Legal) :
    b.bytes.length ≤ (view.length - a) + (view.length - a) / 255 + 2 := by
  induction h with
  | @final a ha =>
    rw [Block.bytes_nil, length_finalBytes, List.length_drop]
    have := length_lengthExt_le (view.length - a)
    omega
  | @sequence a s d m b has hmatch rest ih =>
    rw [Block.bytes_cons, List.length_append, Sequence.length_bytes, length_slice hmatch.start_le_length]
    have hstop := hmatch.stop_le_length hp
    have hfour := hmatch.four_le
    have hlits := length_lengthExt_le (s - a)
    have hext := length_lengthExt_le_self (m - 4)
    dsimp only
    omega

end Length

/-- Settles O45: every block that encodes the source keeps the bound, and 15 different bytes reach it. -/
theorem blockLengthBound : Obligations.BlockLengthBound := by
  unfold Obligations.BlockLengthBound
  exact ⟨fun _ _ _ table hp hbase => (encodes_compressCore hp table hbase).length_bytes_le hp,
    (List.range 15).map (BitVec.ofNat 8), .zero, by decide, by decide⟩

end Machine
end Sys2Proof

/-! ### The round trip of the block codec (42_block_compressor.md R90, R92, 43_block_decompressor.md R99 to R107) -/

namespace Sys2Proof
namespace Machine

/-! The fields of a sequence -/

@[simp] theorem tokenLiteral_token (ll ml : BitVec 4) : tokenLiteral (token ll ml) = ll := by
  rw [tokenLiteral, token, BitVec.extractLsb'_append_eq_left]

@[simp] theorem tokenMatch_token (ll ml : BitVec 4) : tokenMatch (token ll ml) = ml := by
  rw [tokenMatch, token, BitVec.extractLsb'_append_eq_right]

/-- The two bytes of an offset give it back (R44). -/
theorem offsetOf_ofNat {d : Nat} (hd : d ≤ 65535) : offsetOf (BitVec.ofNat 8 d) (BitVec.ofNat 8 (d / 256)) = d := by
  rw [offsetOf, BitVec.toNat_ofNat, BitVec.toNat_ofNat]
  omega

/-! The parse of what the compressor writes -/

section Decode
variable {oend op d m fuel : Nat} {past lits : List Byte} {q : Sequence}

/-- The literals of a sequence that fit the output are read and appended. -/
theorem readLiterals_encoded (c : Cursor) (ml : BitVec 4) (tail : List Byte) (hroom : c.op + lits.length ≤ oend) :
    readLiterals oend c (token (lengthNibble lits.length) ml) (lengthExt lits.length ++ (lits ++ tail)) =
      .ok ⟨tail, lits.reverse ++ c.past, c.op + lits.length⟩ := by
  have hlen : ¬(lits ++ tail).length < lits.length := by simp
  simp only [readLiterals, tokenLiteral_token, readLength_lengthExt, if_neg (Nat.not_lt.mpr hroom), if_neg hlen,
    List.drop_left, List.take_left]

/-- A match that fits the output and stays inside what precedes it is copied. -/
theorem readMatch_encoded (ll : BitVec 4) (tail : List Byte) (hpos : 1 ≤ d) (hmax : d ≤ 65535)
    (hback : d ≤ past.length) (hfour : 4 ≤ m) (hroom : op + m ≤ oend) :
    readMatch oend ⟨offsetBytes d ++ (lengthExt (m - 4) ++ tail), past, op⟩ (token ll (lengthNibble (m - 4))) =
      .ok ⟨tail, copyMatch d m past, op + m⟩ := by
  have hzero : d ≠ 0 := by omega
  simp only [readMatch, offsetBytes, List.cons_append, List.nil_append, offsetOf_ofNat hmax, if_neg hzero,
    tokenMatch_token, readLength_lengthExt, Nat.sub_add_cancel hfour, if_neg (Nat.not_lt.mpr hroom),
    if_neg (Nat.not_lt.mpr hback)]

theorem parse_finalBytes (hroom : op + lits.length ≤ oend) :
    parse oend (fuel + 1) ⟨finalBytes lits, past, op⟩ = .ok ⟨[], lits.reverse ++ past, op + lits.length⟩ := by
  have hlits := readLiterals_encoded ⟨finalBytes lits, past, op⟩ 0 [] hroom
  rw [List.append_nil] at hlits
  simp only [finalBytes] at hlits ⊢
  simp only [parse, hlits, if_true]

/-- Parsing the bytes of a sequence appends its literals and copies its match, and goes on with what follows. -/
theorem parse_sequence (tail : List Byte) (hpos : 1 ≤ q.offset) (hmax : q.offset ≤ 65535)
    (hback : q.offset ≤ (q.literals.reverse ++ past).length) (hfour : 4 ≤ q.matchLen)
    (hroom : op + q.literals.length + q.matchLen ≤ oend) :
    parse oend (fuel + 1) ⟨q.bytes ++ tail, past, op⟩ =
      parse oend fuel ⟨tail, copyMatch q.offset q.matchLen (q.literals.reverse ++ past),
        op + q.literals.length + q.matchLen⟩ := by
  have hlits := readLiterals_encoded ⟨q.bytes ++ tail, past, op⟩ (lengthNibble (q.matchLen - 4))
    (offsetBytes q.offset ++ (lengthExt (q.matchLen - 4) ++ tail)) (Nat.le_of_add_right_le hroom)
  have hmatch := readMatch_encoded (lengthNibble q.literals.length) tail hpos hmax hback hfour hroom
  have hmore : offsetBytes q.offset ++ (lengthExt (q.matchLen - 4) ++ tail) ≠ [] := by simp [offsetBytes]
  simp only [Sequence.bytes, List.cons_append, List.append_assoc] at hlits ⊢
  simp only [parse, hlits, if_neg hmore, hmatch]

end Decode

/-! The match copy over a view -/

section Copy
variable {view : List Byte} {s d : Nat}

/-- Where the byte `d` back in the view is the next one, copying it extends the output by one byte of the view. -/
theorem copy_byte_of_view (pre : List Byte) (hpos : 1 ≤ d) (hd : d ≤ s) (hs : s < view.length)
    (hbyte : viewAt view (s - d) = viewAt view s) :
    viewAt (pre ++ view.take s).reverse (d - 1) :: (pre ++ view.take s).reverse =
      (pre ++ view.take (s + 1)).reverse := by
  have hback : viewAt (pre ++ view.take s).reverse (d - 1) = viewAt view (s - d) := by
    have hlen : (view.take s).length = s := List.length_take_of_le hs.le
    rw [List.reverse_append, viewAt_append _ (by rw [List.length_reverse]; omega), viewAt,
      List.getD_reverse _ (by omega), hlen, Nat.sub_sub, Nat.add_sub_cancel' hpos, viewAt, List.getD, List.getD,
      List.getElem?_take_of_lt (by omega)]
  rw [hback, hbyte, viewAt, List.getD_eq_getElem _ _ hs, ← List.take_append_getElem hs, ← List.append_assoc,
    List.reverse_concat]

/-- The forward copy reproduces the view as long as each byte is the one `d` before it, overlap included (R106). -/
theorem copyMatch_of_view (pre : List Byte) {m : Nat} (hpos : 1 ≤ d) (hd : d ≤ s) (hstop : s + m ≤ view.length)
    (hagree : ∀ j, j < m → viewAt view (s - d + j) = viewAt view (s + j)) :
    copyMatch d m (pre ++ view.take s).reverse = (pre ++ view.take (s + m)).reverse := by
  induction m generalizing s with
  | zero => rfl
  | succ m ih =>
    rw [copyMatch, copy_byte_of_view pre hpos hd (by omega) (hagree 0 (by omega)),
      ih (by omega) (by omega) fun j hj => ?_, Nat.add_right_comm]
    · rfl
    · have hnext := hagree (j + 1) (by omega)
      rwa [show s - d + (j + 1) = s + 1 - d + j by omega, show s + (j + 1) = s + 1 + j by omega] at hnext

end Copy

section RoundTrip
variable {p : Config.SearchParams} {view history dict pre : List Byte} {a oend : Nat} {b : Block}

/-- From a cursor that has output the view up to `a`, with room for the rest, the parse of a block for the view from `a`
on outputs the whole view. -/
theorem Encodes.parse_bytes (h : Encodes p view a b) (hp : p.Legal) (pre : List Byte) {op fuel : Nat}
    (hfuel : b.bytes.length ≤ fuel) (hroom : op + (view.length - a) ≤ oend) :
    parse oend fuel ⟨b.bytes, (pre ++ view.take a).reverse, op⟩ =
      .ok ⟨[], (pre ++ view).reverse, op + (view.length - a)⟩ := by
  induction h generalizing op fuel with
  | @final a ha =>
    rw [Block.bytes_nil] at hfuel ⊢
    rw [length_finalBytes] at hfuel
    obtain ⟨fuel, rfl⟩ : ∃ n, fuel = n + 1 := Nat.exists_eq_add_one.mpr (by omega)
    rw [parse_finalBytes (by rwa [List.length_drop]), ← List.reverse_append, List.append_assoc, List.take_append_drop,
      List.length_drop]
  | @sequence a s d m b has hmatch rest ih =>
    have hstop := hmatch.stop_le_length hp
    have hlits := length_slice (a := a) hmatch.start_le_length
    have hpast : (slice view a s).reverse ++ (pre ++ view.take a).reverse = (pre ++ view.take s).reverse := by
      rw [← List.reverse_append, List.append_assoc, take_append_slice has]
    rw [Block.bytes_cons] at hfuel ⊢
    rw [List.length_append, Sequence.length_bytes] at hfuel
    obtain ⟨fuel, rfl⟩ : ∃ n, fuel = n + 1 := Nat.exists_eq_add_one.mpr (by omega)
    have hback : d ≤ (pre ++ view.take s).reverse.length := by
      rw [List.length_reverse, List.length_append, List.length_take_of_le hmatch.start_le_length]
      exact hmatch.offset_le.trans (Nat.le_add_left ..)
    rw [parse_sequence _ hmatch.one_le_offset hmatch.offset_le_max (hpast ▸ hback) hmatch.four_le
      (by dsimp only; omega)]
    dsimp only
    rw [hpast, copyMatch_of_view pre hmatch.one_le_offset hmatch.offset_le hstop hmatch.agrees,
      ih (by omega) (by omega), hlits]
    congr 2
    omega

/-- A block for the view from `a` on decodes to those bytes behind the bytes before them (R92). -/
theorem Encodes.decodeBlock_bytes (h : Encodes p view a b) (hp : p.Legal)
    (hpast : dict ++ history = pre ++ view.take a) (hroom : history.length + (view.length - a) ≤ oend) :
    decodeBlock b.bytes history dict oend = .ok (view.drop a) := by
  have hout : (pre ++ view).reverse = (view.drop a).reverse ++ (pre ++ view.take a).reverse := by
    rw [← List.reverse_append, List.append_assoc, List.take_append_drop]
  have hlen : (view.drop a).reverse.length = view.length - a := by rw [List.length_reverse, List.length_drop]
  rw [decodeBlock, hpast, h.parse_bytes hp pre le_rfl hroom]
  dsimp only
  rw [Nat.add_sub_cancel_left, hout, ← hlen, List.take_left, List.reverse_reverse]

end RoundTrip

/-- Settles O49: whatever the table, the core's block encodes the source, and every block that does decodes to it. -/
theorem blockRoundTrip : Obligations.BlockRoundTrip := by
  unfold Obligations.BlockRoundTrip
  exact fun p view base table pre history dict oend hp hbase hpast hroom =>
    (encodes_compressCore hp table hbase).decodeBlock_bytes hp hpast hroom

end Machine
end Sys2Proof

/-! ### The round trip of the commands (42_block_compressor.md R90, 43_block_decompressor.md R108) -/

namespace Sys2Proof
namespace Machine

/-! The bytes a command reads, as the statements write them out -/

@[simp] theorem length_bytesAt (m : Memory) (a n : Nat) : (bytesAt m a n).length = n := by
  rw [bytesAt, List.length_map, List.length_range]

theorem readBytes_eq_bytesAt (m : Memory) (a n : Nat) : m.readBytes a n = bytesAt m a n := m.readBytes_eq_map a n

theorem bytesAt_add (m : Memory) (a n k : Nat) : bytesAt m a (n + k) = bytesAt m a n ++ bytesAt m (a + n) k := by
  simp only [bytesAt, List.range_add, List.map_append, List.map_map, Function.comp_def, Nat.add_assoc]

theorem historyBytes_eq_bytesAt (s : State) :
    historyBytes s = bytesAt s.mem s.opr.dstAddr.toNat s.opr.dstOff.toNat := readBytes_eq_bytesAt ..

theorem dictBytes_eq_bytesAt (s : State) :
    dictBytes s = bytesAt s.mem s.opr.dictAddr.toNat s.opr.dictLen.toNat := readBytes_eq_bytesAt ..

/-- The view of `COMPRESS_BLOCK` is the history, then the source (R78). -/
theorem compressView_eq_append (s : State) :
    compressView s = bytesAt s.mem s.opr.srcAddr.toNat s.opr.srcStart.toNat ++ sourceOf s :=
  (readBytes_eq_bytesAt ..).trans (bytesAt_add ..)

/-- The view of `COMPRESS_BLOCK_EXT` is the dictionary window, then the source (R78). -/
theorem compressExtView_eq_append (s : State) : compressExtView s = windowOf s ++ sourceOf s :=
  congrArg₂ (· ++ ·) (readBytes_eq_bytesAt ..) (srcBytes_eq_sourceOf s)

theorem length_windowOf (s : State) : (windowOf s).length = s.opr.dictWindowLen := length_bytesAt ..

/-! The commands -/

section Commands
variable {s t : State}

theorem checked_of_startPasses {i : Instr} (h : StartPasses i s) (body : State → Host.Outcome State Fault Refusal) :
    checked i s body = body s := by
  obtain ⟨hopr, hsize, hregions⟩ := h
  obtain ⟨hviolation, hstart⟩ := start_of_addresses hopr hsize hregions
  exact checked_of_passes hviolation hstart body

/-- A command that stores its output and completes does nothing else. -/
theorem stored_complete (s : State) (r : Word) (a : Nat) (out : List Byte) (ht : HashTable) :
    Stored s (complete r { s with ht := ht, mem := s.mem.writeBytes a out }) r a out ht := by
  refine ⟨rfl, fun k hk => ?_, fun b hb => Memory.read_writeBytes_outside hb⟩
  rw [complete_mem, Memory.read_writeBytes, if_pos (by omega), Nat.add_sub_cancel_left]

/-- `DECOMPRESS_BLOCK` stores what its input decodes to. -/
theorem exec_decompressBlock_of_ok {out : List Byte} (h : StartPasses .decompressBlock s)
    (hout : decodeBlock (sourceOf s) (historyBytes s) (dictBytes s) s.opr.dstCap.toNat = .ok out) :
    exec .decompressBlock s = .next (complete (BitVec.ofNat 32 out.length)
      { s with mem := s.mem.writeBytes (dstStart s.opr) out }) := by
  rw [exec, execDecompressBlock, checked_of_startPasses h, srcBytes_eq_sourceOf, hout]
  rfl

/-- A compress command that completes leaves its block at the start of the write region and reports its length. -/
theorem bytesAt_of_finishCompress {r : Block × HashTable} (h : finishCompress r s = .next t)
    (hok : t.errcode = .noError) : bytesAt t.mem (dstStart s.opr) t.result.toNat = r.1.bytes := by
  rcases finishCompress_cases r s with ⟨-, hf⟩ | ⟨hfits, hf⟩ <;> rw [hf] at h <;> cases h
  · cases hok
  · have hlen : r.1.bytes.length < 2 ^ 32 := hfits.trans_lt (writeRegion_len_lt (i := .compressBlock) rfl)
    rw [complete_result, BitVec.toNat_ofNat, Nat.mod_eq_of_lt hlen, ← readBytes_eq_bytesAt]
    exact Memory.readBytes_writeBytes ..

/-- Both compress commands that complete have run the core on the bytes before the source and the source. -/
theorem finishCompress_of_exec {before : List Byte}
    (h : exec .compressBlock s = .next t ∧ before = bytesAt s.mem s.opr.srcAddr.toNat s.opr.srcStart.toNat ∨
      exec .compressBlockExt s = .next t ∧ before = windowOf s)
    (hok : t.errcode = .noError) :
    finishCompress (compressCore s.plat.search (before ++ sourceOf s) before.length s.ht) s = .next t := by
  rcases h with ⟨hexec, rfl⟩ | ⟨hexec, rfl⟩
  · rw [exec, execCompressBlock] at hexec
    rw [← compressView_eq_append, length_bytesAt]
    exact (body_of_checked_noError hexec hok :)
  · rw [exec, execCompressBlockExt] at hexec
    rw [← compressExtView_eq_append, length_windowOf]
    exact (body_of_checked_noError hexec hok :)

theorem dstOff_le_dstCap_of_startPasses (h : StartPasses .decompressBlock s) :
    s.opr.dstOff.toNat ≤ s.opr.dstCap.toNat := by
  obtain ⟨hopr, -⟩ := h
  obtain ⟨htable, -⟩ := (operandInvalid_eq_false_iff _ _).mp hopr
  simp only [tableCheckFails, OperandRegs.dstInvalid, Bool.or_eq_false_iff, decide_eq_false_iff_not] at htable
  omega

end Commands

/-- Settles O50: the compress command left the core's block for the source, and that block decodes to the source. -/
theorem compressThenDecompress : Obligations.CompressThenDecompress := by
  unfold Obligations.CompressThenDecompress
  intro c t d before pre hcompress hp hok hstart hblock hpast hroom
  have hsource : sourceOf d = _ := hblock.trans (bytesAt_of_finishCompress (finishCompress_of_exec hcompress hok) hok)
  have hlen : (sourceOf c).length = c.opr.srcLen.toNat := length_bytesAt ..
  have hdecode : decodeBlock (sourceOf d) (historyBytes d) (dictBytes d) d.opr.dstCap.toNat = .ok (sourceOf c) := by
    have henc := encodes_compressCore (view := before ++ sourceOf c) (a := before.length) hp c.ht (by simp)
    have hoff := dstOff_le_dstCap_of_startPasses hstart
    rw [hsource, henc.decodeBlock_bytes (pre := pre) hp, List.drop_left]
    · rw [dictBytes_eq_bytesAt, historyBytes_eq_bytesAt, hpast, List.take_left]
    · rw [historyBytes_eq_bytesAt, length_bytesAt, List.length_append, Nat.add_sub_cancel_left, hlen]
      rw [dstRoom] at hroom
      omega
  have hresult : BitVec.ofNat 32 (sourceOf c).length = c.opr.srcLen := by
    rw [hlen, BitVec.ofNat_toNat, BitVec.setWidth_eq]
  have hexec := exec_decompressBlock_of_ok hstart hdecode
  rw [hresult] at hexec
  exact ⟨_, hexec, stored_complete d c.opr.srcLen (dstStart d.opr) (sourceOf c) d.ht⟩

end Machine
end Sys2Proof

/-! ### The match copy, the refused offset and what `DECOMPRESS_BLOCK` stores (43_block_decompressor.md R98 to R112) -/

namespace Sys2Proof
namespace Machine

/-! Reading a list that is held nearest byte first -/

theorem viewAt_reverse {l : List Byte} {i : Nat} (hi : i < l.length) :
    viewAt l.reverse i = viewAt l (l.length - 1 - i) := congrFun (List.getD_reverse i hi) 0

theorem viewAt_append_right (l : List Byte) {l' : List Byte} {i : Nat} (hi : l.length ≤ i) :
    viewAt (l ++ l') i = viewAt l' (i - l.length) := List.getD_append_right l l' 0 i hi

/-! The match copy (R106), nearest byte first as the cursor holds it -/

section MatchCopy
variable (d m : Nat) (past : List Byte)

@[simp] theorem length_copyMatch : (copyMatch d m past).length = past.length + m := by
  induction m generalizing past with
  | zero => rfl
  | succ m ih => rw [copyMatch, ih, List.length_cons, Nat.add_right_comm, Nat.add_assoc]

/-- The copy only appends: behind its `m` bytes stands the past it started from. -/
theorem drop_copyMatch : (copyMatch d m past).drop m = past := by
  induction m generalizing past with
  | zero => rfl
  | succ m ih => rw [copyMatch, ← List.drop_drop, ih, List.drop_one, List.tail_cons]

variable {d m}

/-- Each byte of the copy is the one `d` further back. The farthest of them is the first one copied, from the past the
copy started with; the others are copied after it, with it in their past. -/
theorem viewAt_copyMatch {j : Nat} (hd : 1 ≤ d) (hj : j < m) :
    viewAt (copyMatch d m past) j = viewAt (copyMatch d m past) (j + d) := by
  induction m generalizing past with
  | zero => exact absurd hj (Nat.not_lt_zero j)
  | succ m ih =>
    rw [copyMatch]
    rcases Nat.lt_succ_iff_lt_or_eq.mp hj with hlater | rfl
    · exact ih _ hlater
    · have hpast (i : Nat) : viewAt (copyMatch d j (viewAt past (d - 1) :: past)) (j + i) =
          viewAt (viewAt past (d - 1) :: past) i := by
        rw [← viewAt_drop, drop_copyMatch]
      obtain ⟨e, rfl⟩ := Nat.exists_eq_add_of_le' hd
      exact (hpast 0).trans (hpast (e + 1)).symm

/-- The same in output order: byte `k` of the copy is the byte `d` before it. -/
theorem viewAt_reverse_copyMatch {k : Nat} (hd : 1 ≤ d) (hpast : d ≤ past.length) (hk : k < m) :
    viewAt (copyMatch d m past).reverse (past.length + k) =
      viewAt (copyMatch d m past).reverse (past.length + k - d) := by
  have hlen := length_copyMatch d m past
  rw [viewAt_reverse (by omega), viewAt_reverse (by omega), hlen, viewAt_copyMatch past hd (by omega)]
  congr 1
  omega

theorem take_reverse_copyMatch : (copyMatch d m past).reverse.take past.length = past.reverse := by
  rw [List.take_reverse, length_copyMatch, Nat.add_sub_cancel_left, drop_copyMatch]

end MatchCopy

/-- The byte `d` before the cursor, by output index or else by dictionary index (R98, R107). -/
theorem viewAt_reverse_append (output dict : List Byte) {d : Nat} (hpos : 1 ≤ d)
    (hd : d ≤ dict.length + output.length) :
    viewAt (dict ++ output).reverse (d - 1) =
      if d ≤ output.length then viewAt output (output.length - d)
      else viewAt dict (dict.length - (d - output.length)) := by
  rw [viewAt_reverse (by rw [List.length_append]; omega), List.length_append,
    show dict.length + output.length - 1 - (d - 1) = dict.length + output.length - d by omega]
  split
  · next hout => rw [Nat.add_sub_assoc hout, viewAt_append_right _ (Nat.le_add_right ..), Nat.add_sub_cancel_left]
  · next hout =>
    rw [viewAt_append _ (by omega)]
    congr 1
    omega

/-- Settles O52: the copy read from the cursor back, turned into output order. -/
theorem matchCopyIsForward : Obligations.MatchCopyIsForward := by
  unfold Obligations.MatchCopyIsForward
  refine ⟨fun d m past hd hpast => ?_, fun output dict d hpos hd => viewAt_reverse_append output dict hpos hd⟩
  exact ⟨length_copyMatch d m past, take_reverse_copyMatch past,
    fun k hk => viewAt_reverse_copyMatch past hd hpast hk⟩

/-- Settles O53: the check of the offset stands before the match length is read. -/
theorem zeroOffsetIsInvalid : Obligations.ZeroOffsetIsInvalid := by
  unfold Obligations.ZeroOffsetIsInvalid
  intro oend op past rest t
  have hzero : offsetOf 0 0 = 0 := by decide
  simp only [readMatch, hzero, if_true]

/-! `DECOMPRESS_BLOCK` -/

theorem length_le_of_decodeBlock_ok {block history dict out : List Byte} {oend : Nat}
    (h : decodeBlock block history dict oend = .ok out) : out.length ≤ oend - history.length := by
  rcases decodeBlock_cases block history dict oend with ⟨e, -, he⟩ | ⟨out', hlen, hout⟩
  · rw [he] at h
    cases h
  · rw [hout] at h
    cases h
    exact hlen

/-- A block that does not decode leaves the write region unspecified (R112). -/
theorem exec_decompressBlock_of_error {s : State} {e : ErrorCode} (h : StartPasses .decompressBlock s)
    (he : decodeBlock (sourceOf s) (historyBytes s) (dictBytes s) s.opr.dstCap.toNat = .error e) :
    exec .decompressBlock s = .next (raise e (scrambleRegion s.opr.dstSpan s)) := by
  rw [exec, execDecompressBlock, checked_of_startPasses h, srcBytes_eq_sourceOf, he]

/-- Where `DST_OFF` does not pass `DST_CAP`, the write region is `[DST_ADDR + DST_OFF, DST_ADDR + DST_CAP)` (R30). -/
theorem contains_dstSpan_iff {o : OperandRegs} (h : o.dstOff.toNat ≤ o.dstCap.toNat) (a : Nat) :
    o.dstSpan.contains a = true ↔ dstStart o ≤ a ∧ a < o.dstAddr.toNat + o.dstCap.toNat := by
  rw [Config.Span.contains_iff, OperandRegs.dstSpan, dstStart]
  dsimp only
  rw [Nat.add_assoc, Nat.add_sub_cancel' h]

/-- Settles O51: past its start checks the command stores what the decoder gives, which fits the write region, or
frees that region. -/
theorem decompressStoresDecoded : Obligations.DecompressStoresDecoded := by
  unfold Obligations.DecompressStoresDecoded
  intro s hstart
  rw [← historyBytes_eq_bytesAt, ← dictBytes_eq_bytesAt]
  refine ⟨fun out hout => ?_, fun e he => ?_⟩
  · have hroom : out.length ≤ dstRoom s.opr := by
      have hlen := length_le_of_decodeBlock_ok hout
      rwa [historyBytes_eq_bytesAt, length_bytesAt] at hlen
    have hresult : (BitVec.ofNat 32 out.length).toNat = out.length := by
      have hlt : out.length < 2 ^ 32 := hroom.trans_lt (writeRegion_len_lt (i := .decompressBlock) rfl)
      rw [BitVec.toNat_ofNat, Nat.mod_eq_of_lt hlt]
    exact ⟨_, exec_decompressBlock_of_ok hstart hout, hresult, hroom, stored_complete s _ (dstStart s.opr) out s.ht⟩
  · refine ⟨_, exec_decompressBlock_of_error hstart he, rfl, fun a => ?_⟩
    have hspan := contains_dstSpan_iff (dstOff_le_dstCap_of_startPasses hstart) a
    simp only [← hspan]
    exact Memory.read_scramble s.mem s.opr.dstSpan s.draws a

end Machine
end Sys2Proof

/-! ### What an error completion leaves (60_exceptions.md R121) -/

namespace Sys2Proof
namespace Machine

/-! An illegal word -/

@[simp] theorem startCommand_ht (w : Word) (s : State) : (startCommand w s).ht = s.ht := by
  unfold startCommand
  split <;> simp

@[simp] theorem startCommand_xs (w : Word) (s : State) : (startCommand w s).xs = s.xs := by
  unfold startCommand
  split <;> simp

/-- A `CMD` write that answers is the start of a command, and does no more than that. -/
theorem eq_startCommand_of_step {s t : State} {w : Word} {rest : List Turn} (ha : s.agenda = writesCmd w rest)
    (h : step s = .next t) : t = startCommand w { s with agenda := rest } := by
  rw [step_regWrite (by decide : (0x04, Reg.cmd) ∈ windowMap) ha, writeReg] at h
  split at h <;> cases h
  rfl

/-! A command -/

/-- The errors found at the start of a command are the two of R119 and R122, or that of its size check (R123). -/
theorem startError_cases {i : Instr} {s : State} {e : ErrorCode} (h : startError i s = some e) :
    e = .invalidOperand ∨ e = .busError ∨ sizeError i s.opr = some e := by
  unfold startError at h
  split at h
  · exact .inl (Option.some.inj h).symm
  · split at h
    · next hsize => exact .inr (.inr (hsize.trans h))
    · split at h <;> cases h
      exact .inr (.inl rfl)

/-- Every way a command ends in an error: refused at its start, or by a compress command whose block does not fit, or by
a decompress command whose block does not decode. -/
inductive ErrorCompletion (s : State) : Instr → State → Prop
  | refused {i : Instr} {e : ErrorCode} (hstart : startError i s = some e) : ErrorCompletion s i (raise e s)
  | tooSmall {i : Instr} (hcompress : i = .compressBlock ∨ i = .compressBlockExt) :
      ErrorCompletion s i (raise .outputBufferTooSmall (scrambleTable (scrambleRegion s.opr.dstSpan s)))
  | undecodable {e : ErrorCode} (he : e ∈ executionErrors) :
      ErrorCompletion s .decompressBlock (raise e (scrambleRegion s.opr.dstSpan s))

section ErrorCompletion
variable {s t : State} {i : Instr}

/-- The start checks end the command in an error themselves or leave it to its body. -/
theorem errorCompletion_of_checked {body : State → Host.Outcome State Fault Refusal} (h : checked i s body = .next t)
    (hbody : body s = .next t → ErrorCompletion s i t) : ErrorCompletion s i t := by
  rcases checked_cases i s body with ⟨-, hc⟩ | ⟨e, -, he, hc⟩ | ⟨-, -, hc⟩ <;> rw [hc] at h
  · cases h
  · cases h
    exact .refused he
  · exact hbody h

theorem errorCompletion_of_finishCompress {r : Block × HashTable}
    (hcompress : i = .compressBlock ∨ i = .compressBlockExt) (herr : t.errcode ≠ .noError)
    (h : finishCompress r s = .next t) : ErrorCompletion s i t := by
  rcases finishCompress_cases r s with ⟨-, hf⟩ | ⟨-, hf⟩ <;> rw [hf] at h <;> cases h
  · exact .tooSmall hcompress
  · exact absurd rfl herr

/-- Only the compress and decompress commands can fail past their start checks; the others complete there. -/
theorem errorCompletion_of_exec (h : exec i s = .next t) (herr : t.errcode ≠ .noError) : ErrorCompletion s i t := by
  cases i with
  | xxh32Oneshot | xxh32Reset | xxh32Update | xxh32Digest | htClear | htShift | htWarm | htSave | htLoad =>
    simp only [exec, execXxh32Oneshot, execXxh32Reset, execXxh32Update, execXxh32Digest, execHtClear, execHtShift,
      execHtWarm, execHtSave, execHtLoad] at h
    refine errorCompletion_of_checked h fun hb => ?_
    cases hb
    exact absurd rfl herr
  | compressBlock => exact errorCompletion_of_checked h (errorCompletion_of_finishCompress (.inl rfl) herr)
  | compressBlockExt => exact errorCompletion_of_checked h (errorCompletion_of_finishCompress (.inr rfl) herr)
  | decompressBlock =>
    rw [exec, execDecompressBlock] at h
    refine errorCompletion_of_checked h fun hb => ?_
    rcases decodeBlock_cases (srcBytes s) (historyBytes s) (dictBytes s) s.opr.dstCap.toNat with
      ⟨e, he, hd⟩ | ⟨out, -, hd⟩ <;> rw [hd] at hb <;> cases hb
    · exact .undecodable he
    · exact absurd rfl herr

/-- A scrambled write region in the coordinates of the operand registers; where `DST_OFF` passes `DST_CAP` it is empty in
both. -/
theorem read_scramble_dstSpan (m : Memory) (o : OperandRegs) (d a : Nat) :
    (m.scramble o.dstSpan d).read a =
      if dstStart o ≤ a ∧ a < o.dstAddr.toNat + o.dstCap.toNat then Config.freeByte d a else m.read a := by
  have hspan : o.dstSpan.contains a = true ↔ dstStart o ≤ a ∧ a < o.dstAddr.toNat + o.dstCap.toNat := by
    simp only [Config.Span.contains_iff, OperandRegs.dstSpan, dstStart]
    omega
  simp only [Memory.read_scramble, hspan]

theorem ErrorCompletion.xs_eq (h : ErrorCompletion s i t) : t.xs = s.xs := by
  cases h <;> rfl

/-- `INVALID_OPERAND` and `BUS_ERROR` are found at the start only, and so is every error of a snapshot command. -/
theorem ErrorCompletion.eq_raise (h : ErrorCompletion s i t)
    (hstart : t.errcode = .invalidOperand ∨ t.errcode = .busError ∨ i = .htSave ∨ i = .htLoad) :
    t = raise t.errcode s := by
  cases h with
  | refused _ => rfl
  | tooSmall hcompress => rcases hcompress with rfl | rfl <;> simp at hstart
  | undecodable he =>
    simp only [raise_errcode, reduceCtorEq, or_false] at hstart
    rcases hstart with rfl | rfl <;> simp [executionErrors] at he

/-- A compress command has no size check, so its `OUTPUT_BUFFER_TOO_SMALL` is the one that frees the table. The region was
freed by the draw before. -/
theorem ErrorCompletion.ht_of_compress (h : ErrorCompletion s i t) (hi : i = .compressBlock ∨ i = .compressBlockExt)
    (hcode : t.errcode = .outputBufferTooSmall) : t.ht = .unspecified (s.draws + 1) := by
  cases h with
  | refused hstart =>
    cases hcode
    rcases hi with rfl | rfl <;> simpa [sizeError] using startError_cases hstart
  | tooSmall _ => rfl
  | undecodable _ => simp at hi

theorem ErrorCompletion.ht_of_decompress (h : ErrorCompletion s .decompressBlock t) : t.ht = s.ht := by
  cases h with
  | refused _ | undecodable _ => rfl
  | tooSmall hcompress => simp at hcompress

/-- Past its start checks a block command that fails has freed its whole write region. -/
theorem ErrorCompletion.mem_of_block (h : ErrorCompletion s i t)
    (hi : i = .compressBlock ∨ i = .compressBlockExt ∨ i = .decompressBlock) (hoperand : t.errcode ≠ .invalidOperand)
    (hbus : t.errcode ≠ .busError) : t.mem = s.mem.scramble s.opr.dstSpan s.draws := by
  cases h with
  | refused hstart =>
    rcases startError_cases hstart with he | he | hsize
    · exact absurd he hoperand
    · exact absurd he hbus
    · rcases hi with rfl | rfl | rfl <;> cases hsize
  | tooSmall _ | undecodable _ => rfl

theorem ErrorCompletion.read_outside (h : ErrorCompletion s i t) {a : Nat}
    (ha : ¬(dstStart s.opr ≤ a ∧ a < s.opr.dstAddr.toNat + s.opr.dstCap.toNat)) : t.mem.read a = s.mem.read a := by
  have hscramble : (s.mem.scramble s.opr.dstSpan s.draws).read a = s.mem.read a := by
    rw [read_scramble_dstSpan, if_neg ha]
  cases h with
  | refused _ => rfl
  | tooSmall _ | undecodable _ => exact hscramble

end ErrorCompletion

/-- Settles O24: a `CMD` write keeps memory, table and context, and each row of R121 is read off the three ways a command
ends in an error. -/
theorem errorLeavesState : Obligations.ErrorLeavesState := by
  unfold Obligations.ErrorLeavesState
  refine ⟨fun s t w rest hagenda _ hstep => ?_, fun i s t hexec herr => ?_⟩
  · rw [eq_startCommand_of_step hagenda hstep, startCommand_mem, startCommand_ht, startCommand_xs]
    exact ⟨rfl, rfl, rfl⟩
  · have h := errorCompletion_of_exec hexec herr
    refine ⟨h.xs_eq, fun hstart => ?_, fun hi hcode k => ?_, fun hi => ?_, fun hi hoperand hbus a hlow hhigh => ?_,
      fun a => h.read_outside⟩
    · rw [h.eq_raise hstart]
      exact ⟨rfl, rfl⟩
    · rw [h.ht_of_compress hi hcode]
      rfl
    · subst hi
      exact h.ht_of_decompress
    · rw [h.mem_of_block hi hoperand hbus, read_scramble_dstSpan, if_pos ⟨hlow, hhigh⟩]

end Machine
end Sys2Proof

/-! ### The reset state: registers and xxHash32 context (70_reset_and_hazards.md R133, R135) -/

namespace Sys2Proof
namespace Machine

/-- What reset clears reads 0: `CMD`, `RESULT` and the operand registers hold 0, and a status, an error code and an enable
that are all clear read as 0. -/
theorem readReg_reset_of_ne_id {r : Reg} (hr : r ≠ .id) : readReg r State.reset = 0 := by
  cases r with
  | id => exact absurd rfl hr
  | status => exact (by decide : Status.word ⟨false, false, false⟩ = 0)
  | errcode => exact (by decide : ErrorCode.noError.code.setWidth 32 = (0 : Word))
  | irqEn => exact (by decide : (bit false).setWidth 32 = (0 : Word))
  | cmd | result | srcAddr | srcStart | srcLen | dstAddr | dstCap | dstOff | dictAddr | dictLen | param | reserved => rfl

/-- Settles O15: only `ID` is a constant other than 0, and `irq` is low because its enable is clear. -/
theorem resetRegisterValues : Obligations.ResetRegisterValues := by
  unfold Obligations.ResetRegisterValues
  refine ⟨fun r => ?_, rfl⟩
  split
  · next hid => rw [hid, readReg]
  · next hother => exact readReg_reset_of_ne_id hother

theorem XxhContext.digest_init_zero : (XxhContext.init 0).digest = 0x02CC5D05 := by decide

/-- Settles O16: the context after reset is the one `XXH32_RESET` makes from seed 0, whose digest is evaluated. -/
theorem resetContextIsSeedZero : Obligations.ResetContextIsSeedZero := by
  unfold Obligations.ResetContextIsSeedZero
  refine ⟨rfl, fun s t hparam hreset => ?_, fun s hxs => ?_⟩
  · rw [exec_xxh32Reset] at hreset
    cases hreset
    rw [complete_xs, hparam, XxhContext.reset_eq_init]
  · have hdigest : s.xs.digest = 0x02CC5D05 := by
      rw [hxs, XxhContext.reset_eq_init, XxhContext.digest_init_zero]
    rw [exec_xxh32Digest, hdigest, complete]

end Machine
end Sys2Proof

/-! ### What a command ends in, and what one step can do -/

namespace Sys2Proof
namespace Machine

/-- The end of a compress command as a state: a compress command whose start checks pass always answers. -/
def compressed (r : Block × HashTable) (s : State) : State :=
  if s.opr.dstSpan.len < r.1.bytes.length then
    raise .outputBufferTooSmall (scrambleTable (scrambleRegion s.opr.dstSpan s))
  else
    complete (BitVec.ofNat 32 r.1.bytes.length)
      { s with ht := r.2, mem := s.mem.writeBytes s.opr.dstSpan.base r.1.bytes }

/-- The end of `DECOMPRESS_BLOCK` as a state. -/
def decompressed (decoded : Except ErrorCode (List Byte)) (s : State) : State :=
  match decoded with
  | .error e => raise e (scrambleRegion s.opr.dstSpan s)
  | .ok out => complete (BitVec.ofNat 32 out.length) { s with mem := s.mem.writeBytes s.opr.dstSpan.base out }

/-- The state a command ends in when its start checks pass (10_state.md R17): a function, since no body stops. -/
def ran (i : Instr) (s : State) : State :=
  match i with
  | .xxh32Oneshot => complete (xxh32 (srcBytes s) s.opr.param) s
  | .xxh32Reset => complete 0 { s with xs := .init s.opr.param }
  | .xxh32Update => complete 0 { s with xs := s.xs.update (srcBytes s) }
  | .xxh32Digest => complete s.xs.digest s
  | .htClear => complete 0 { s with ht := .zero }
  | .htShift => complete 0 { s with ht := s.ht.map (shiftEntry s.opr.param) }
  | .htWarm => complete (BitVec.ofNat 32 (s.opr.dictWindowLen - 3)) { s with ht := s.ht.warm (dictWindowBytes s) 0 }
  | .htSave => complete 65536 { s with mem := s.mem.writeBytes s.opr.saveSpan.base s.ht.snapshot }
  | .htLoad => complete 65536 { s with ht := .load s.mem s.opr.loadSpan.base }
  | .compressBlock => compressed (compressCore s.plat.search (compressView s) s.opr.srcStart.toNat s.ht) s
  | .compressBlockExt => compressed (compressCore s.plat.search (compressExtView s) s.opr.dictWindowLen s.ht) s
  | .decompressBlock =>
    decompressed (decodeBlock (srcBytes s) (historyBytes s) (dictBytes s) s.opr.dstCap.toNat) s

section Exec
variable {i : Instr} {s t : State}

theorem finishCompress_eq (r : Block × HashTable) (s : State) : finishCompress r s = .next (compressed r s) := by
  unfold finishCompress compressed
  split <;> rfl

/-- Every command is its start checks, then a body that answers. -/
theorem exec_eq_checked (i : Instr) (s : State) : exec i s = checked i s fun s => .next (ran i s) := by
  cases i with
  | compressBlock | compressBlockExt =>
    simp only [exec, execCompressBlock, execCompressBlockExt, finishCompress_eq, ran]
  | decompressBlock =>
    rw [exec, execDecompressBlock]
    congr 1
    funext s
    simp only [ran, decompressed]
    cases decodeBlock (srcBytes s) (historyBytes s) (dictBytes s) s.opr.dstCap.toNat <;> rfl
  | _ => rfl

/-- A command faults, is refused at its start, or runs. -/
theorem exec_cases (i : Instr) (s : State) :
    (regionViolation i s = true ∧ exec i s = .fault .regionNotOrdinary) ∨
    (∃ e, regionViolation i s = false ∧ startError i s = some e ∧ exec i s = .next (raise e s)) ∨
    (regionViolation i s = false ∧ startError i s = none ∧ exec i s = .next (ran i s)) := by
  rw [exec_eq_checked]
  exact checked_cases i s _

theorem exec_of_passes (hviolation : regionViolation i s = false) (hstart : startError i s = none) :
    exec i s = .next (ran i s) := by
  rw [exec_eq_checked, checked_of_passes hviolation hstart]

theorem exec_of_startError {e : ErrorCode} (hviolation : regionViolation i s = false)
    (hstart : startError i s = some e) : exec i s = .next (raise e s) := by
  simp only [exec_eq_checked, checked, hviolation, hstart, Bool.false_eq_true, if_false]

theorem exec_of_startPasses (h : StartPasses i s) : exec i s = .next (ran i s) := by
  rw [exec_eq_checked, checked_of_startPasses h]

/-- A command that answers was refused at its start, or ran. -/
theorem refused_or_ran (h : exec i s = .next t) :
    (∃ e, startError i s = some e ∧ t = raise e s) ∨ (startError i s = none ∧ t = ran i s) := by
  rcases exec_cases i s with ⟨-, hc⟩ | ⟨e, -, he, hc⟩ | ⟨-, he, hc⟩ <;> rw [hc] at h <;> cases h
  · exact .inl ⟨e, he, rfl⟩
  · exact .inr ⟨he, rfl⟩

end Exec

/-! One step -/

/-- Everything a step that answers can have been: a turn of the engine, or one host action, on the state whose agenda
has lost that turn (10_state.md R15 to R23, 70_reset_and_hazards.md R132 to R147). -/
inductive Moves (s : State) : State → Prop
  | idles {rest : List Turn} (hnext : EngineNext s.agenda rest) (hidle : s.status.busy = false) :
      Moves s { s with agenda := rest }
  | runs {rest : List Turn} {i : Instr} {t : State} (hnext : EngineNext s.agenda rest) (hbusy : s.status.busy = true)
      (hdecode : decode s.cmd = .ok i) (hexec : exec i { s with agenda := rest } = .next t) : Moves s t
  | refuses {rest : List Turn} (hnext : EngineNext s.agenda rest) (hbusy : s.status.busy = true) :
      Moves s (raise .illegalCommand { s with agenda := rest })
  | readsReg {off : Nat} {v : Word} {rest : List Turn} (ha : s.agenda = .host (.regRead off 4) :: rest) :
      Moves s (observe (.reg off v) { s with agenda := rest })
  | ignoresWrite {off : Nat} {v : Word} {rest : List Turn} (ha : s.agenda = .host (.regWrite off 4 v) :: rest) :
      Moves s { s with agenda := rest }
  | starts {w : Word} {rest : List Turn} (ha : s.agenda = writesCmd w rest) (hidle : s.status.busy = false) :
      Moves s (startCommand w { s with agenda := rest })
  | acknowledges {v : Word} {rest : List Turn} (ha : s.agenda = .host (.regWrite 0x08 4 v) :: rest) :
      Moves s { s with agenda := rest, status := s.status.writeOneToClear v }
  | setsOperands {off : Nat} {v : Word} {rest : List Turn} {o : OperandRegs}
      (ha : s.agenda = .host (.regWrite off 4 v) :: rest) (hidle : s.status.busy = false) :
      Moves s { s with agenda := rest, opr := o }
  | enables {v : Word} {rest : List Turn} (ha : s.agenda = .host (.regWrite 0x38 4 v) :: rest) :
      Moves s { s with agenda := rest, irqEn := v.getLsbD 0 }
  | readsMemory {a n d : Nat} {bs : List Byte} {rest : List Turn} (ha : s.agenda = .host (.memRead a n) :: rest)
      (hd : s.draws ≤ d) : Moves s { observe (.bytes a bs) { s with agenda := rest } with draws := d }
  | writesMemory {a : Nat} {bs : List Byte} {rest : List Turn} (ha : s.agenda = .host (.memWrite a bs) :: rest)
      (hfits : a + bs.length ≤ Config.addrSpace) : Moves s { s with agenda := rest, mem := s.mem.writeBytes a bs }
  | looks {rest : List Turn} (ha : s.agenda = .host .sampleIrq :: rest) :
      Moves s (observe (.irq (irq s)) { s with agenda := rest })
  | resets {rest : List Turn} (ha : s.agenda = .host .assertReset :: rest) :
      Moves s (assertReset { s with agenda := rest })

section Step
variable {s t : State} {rest : List Turn}

theorem moves_of_engineTurn (hnext : EngineNext s.agenda rest) (h : engineTurn { s with agenda := rest } = .next t) :
    Moves s t := by
  unfold engineTurn at h
  split at h
  · next hbusy =>
    unfold runCommand at h
    split at h
    · next i hdecode => exact .runs hnext hbusy hdecode h
    · cases h
      exact .refuses hnext hbusy
  · next hidle =>
    cases h
    exact .idles hnext (Bool.not_eq_true _ ▸ hidle)

theorem moves_of_writeOperand {off : Nat} {v : Word} {o : OperandRegs}
    (ha : s.agenda = .host (.regWrite off 4 v) :: rest) (h : writeOperand o { s with agenda := rest } = .next t) :
    Moves s t := by
  unfold writeOperand at h
  split at h <;> cases h
  next hidle => exact .setsOperands ha (Bool.not_eq_true _ ▸ hidle)

theorem moves_of_writeReg {off : Nat} {r : Reg} {v : Word} (hr : (off, r) ∈ windowMap)
    (ha : s.agenda = .host (.regWrite off 4 v) :: rest) (h : writeReg r v { s with agenda := rest } = .next t) :
    Moves s t := by
  cases r with
  | id | errcode | result | reserved =>
    cases h
    exact .ignoresWrite ha
  | cmd =>
    obtain rfl : off = 0x04 := by simpa [windowMap] using hr
    rw [writeReg] at h
    split at h <;> cases h
    next hidle => exact .starts ha (Bool.not_eq_true _ ▸ hidle)
  | status =>
    obtain rfl : off = 0x08 := by simpa [windowMap] using hr
    cases h
    exact .acknowledges ha
  | irqEn =>
    obtain rfl : off = 0x38 := by simpa [windowMap] using hr
    cases h
    exact .enables ha
  | srcAddr | srcStart | srcLen | dstAddr | dstCap | dstOff | dictAddr | dictLen | param =>
    exact moves_of_writeOperand ha h

theorem moves_of_hostAction {a : HostAction} (ha : s.agenda = .host a :: rest)
    (h : hostAction a { s with agenda := rest } = .next t) : Moves s t := by
  cases a with
  | regRead off width =>
    rw [hostAction] at h
    rcases regAt_cases off width with ⟨r, -, rfl, hreg⟩ | ⟨-, hreg⟩ | ⟨-, hreg⟩ <;> rw [hreg] at h <;> cases h
    exact .readsReg ha
  | regWrite off width v =>
    rw [hostAction] at h
    rcases regAt_cases off width with ⟨r, hr, rfl, hreg⟩ | ⟨-, hreg⟩ | ⟨-, hreg⟩ <;> rw [hreg] at h
    · exact moves_of_writeReg hr ha h
    · cases h
    · cases h
  | memRead a n =>
    rw [hostAction] at h
    rcases hostRead_cases a n { s with agenda := rest } with hc | hc | ⟨bs, d, hc, hd⟩ <;> rw [hc] at h <;> cases h
    exact .readsMemory ha hd
  | memWrite a bs =>
    rw [hostAction] at h
    rcases hostWrite_cases a bs { s with agenda := rest } with hc | hc | hc | ⟨hfits, hc⟩ <;> rw [hc] at h <;> cases h
    exact .writesMemory ha hfits
  | sampleIrq =>
    cases h
    exact .looks ha
  | assertReset =>
    cases h
    exact .resets ha

/-- A step that answers is one of the moves. -/
theorem moves_of_step (h : step s = .next t) : Moves s t := by
  rcases step_cases s with ⟨rest, hnext, hs⟩ | ⟨a, rest, ha, hs⟩ <;> rw [hs] at h
  · exact moves_of_engineTurn hnext h
  · exact moves_of_hostAction ha h

end Step

/-! ### The invariant (10_state.md R24, R25, 20_memory.md R27) -/

section Invariant
variable {s t : State}

theorem State.Inv.with_ht (h : s.Inv) {ht : HashTable} (hwf : ht.wf = true)
    (hfill : ∀ d, ht.fill = some d → d < s.draws) : { s with ht := ht }.Inv := by
  obtain ⟨hmem, -, hxs, -, hfree, hsearch⟩ := h
  exact ⟨hmem, hwf, hxs, hfill, hfree, hsearch⟩

/-- A table with the fill of the old one has its draw in the past. -/
theorem State.Inv.with_ht_of_fill (h : s.Inv) {ht : HashTable} (hwf : ht.wf = true) (hfill : ht.fill = s.ht.fill) :
    { s with ht := ht }.Inv := by
  obtain ⟨-, -, -, hpast, -⟩ := id h
  exact h.with_ht hwf (hfill ▸ hpast)

theorem State.Inv.with_agenda (h : s.Inv) (rest : List Turn) : { s with agenda := rest }.Inv := h

theorem State.Inv.with_xs (h : s.Inv) {xs : XxhContext} (hwf : xs.wf = true) : { s with xs := xs }.Inv := by
  obtain ⟨hmem, hht, -, hfill, hfree, hsearch⟩ := h
  exact ⟨hmem, hht, hwf, hfill, hfree, hsearch⟩

/-- Stored bytes are listed in their place, and add no unspecified span. -/
theorem State.Inv.with_writeBytes (h : s.Inv) {a : Nat} {bs : List Byte} (hfits : a + bs.length ≤ Config.addrSpace) :
    { s with mem := s.mem.writeBytes a bs }.Inv := by
  obtain ⟨hmem, hht, hxs, hfill, hfree, hsearch⟩ := h
  exact ⟨Memory.writeBytes_wf hmem hfits, hht, hxs, hfill, hfree, hsearch⟩

/-- A new draw makes every earlier one older. -/
theorem State.Inv.with_draws (h : s.Inv) {d : Nat} (hd : s.draws ≤ d) : { s with draws := d }.Inv := by
  obtain ⟨hmem, hht, hxs, hfill, hfree, hsearch⟩ := h
  exact ⟨hmem, hht, hxs, fun e he => (hfill e he).trans_le hd, fun f hf => (hfree f hf).trans_le hd, hsearch⟩

theorem State.Inv.scrambleRegion (h : s.Inv) (sp : Config.Span) : (scrambleRegion sp s).Inv := by
  obtain ⟨hmem, hht, hxs, hfill, hfree, hsearch⟩ := h
  refine ⟨Memory.scramble_wf hmem _ _, hht, hxs, fun d hd => Nat.lt_succ_of_lt (hfill d hd), fun f hf => ?_, hsearch⟩
  rcases Memory.scramble_free_draw hf with rfl | hold
  · exact Nat.lt_succ_self s.draws
  · exact Nat.lt_succ_of_lt (hfree f hold)

theorem State.Inv.scrambleTable (h : s.Inv) : (scrambleTable s).Inv := by
  refine (h.with_draws (Nat.le_succ s.draws)).with_ht (HashTable.unspecified_wf s.draws) fun d hd => ?_
  cases hd
  exact Nat.lt_succ_self s.draws

theorem HashTable.map_fill (f : Word → Word) (t : HashTable) : (t.map f).fill = none := by
  unfold HashTable.map
  split <;> rfl

theorem scan_table_fill (p : Config.SearchParams) (view : List Byte) (fuel pos anchor counter : Nat) (t : HashTable) :
    (scan p view fuel pos anchor counter t).2.fill = t.fill := by
  induction fuel generalizing pos anchor counter t with
  | zero => rfl
  | succ fuel ih =>
    rw [scan]
    split
    · dsimp only
      split <;> exact (ih ..).trans (HashTable.insert_fill ..)
    · rfl

theorem scan_table_wf (p : Config.SearchParams) (view : List Byte) (fuel pos anchor counter : Nat) {t : HashTable}
    (h : t.wf = true) : (scan p view fuel pos anchor counter t).2.wf = true := by
  induction fuel generalizing pos anchor counter t with
  | zero => exact h
  | succ fuel ih =>
    rw [scan]
    split
    · dsimp only
      split <;> exact ih _ _ _ (HashTable.insert_wf h _ _)
    · exact h

/-- The bytes a command stores in a write region of `len` bytes are at 32-bit addresses. -/
theorem writeRegion_stop_le {i : Instr} {sp : Config.Span} (hstart : startError i s = none)
    (hsp : writeRegion i s.opr = some sp) : sp.base + sp.len ≤ Config.addrSpace := by
  obtain ⟨hopr, -, -⟩ := (startError_eq_none_iff i s).mp hstart
  exact region_stop_le hopr (by simp [regions, hsp])

theorem State.Inv.compressed (h : s.Inv) (hregion : s.opr.dstSpan.base + s.opr.dstSpan.len ≤ Config.addrSpace)
    (p : Config.SearchParams) (view : List Byte) (base : Nat) :
    (compressed (compressCore p view base s.ht) s).Inv := by
  obtain ⟨-, hht, -⟩ := id h
  unfold Machine.compressed
  split
  · exact (h.scrambleRegion s.opr.dstSpan).scrambleTable
  · exact (h.with_ht_of_fill (scan_table_wf _ _ _ _ _ _ hht) (scan_table_fill ..)).with_writeBytes (by omega)

theorem State.Inv.decompressed (h : s.Inv) (hregion : s.opr.dstSpan.base + s.opr.dstSpan.len ≤ Config.addrSpace)
    {decoded : Except ErrorCode (List Byte)} (hfits : ∀ out, decoded = .ok out → out.length ≤ s.opr.dstSpan.len) :
    (decompressed decoded s).Inv := by
  unfold Machine.decompressed
  split
  · exact h.scrambleRegion s.opr.dstSpan
  · next out =>
    have hlen := hfits out rfl
    exact h.with_writeBytes (by omega)

theorem State.Inv.ran {i : Instr} (h : s.Inv) (hstart : startError i s = none) : (ran i s).Inv := by
  obtain ⟨-, hht, hxs, -⟩ := id h
  cases i with
  | xxh32Oneshot | xxh32Digest => exact h
  | xxh32Reset => exact h.with_xs (XxhContext.init_wf _)
  | xxh32Update => exact h.with_xs (XxhContext.update_wf hxs _)
  | htClear => exact h.with_ht HashTable.zero_wf (fun _ hd => by cases hd)
  | htShift =>
    have hfill := HashTable.map_fill (shiftEntry s.opr.param) s.ht
    exact h.with_ht (HashTable.map_wf _ hht) (fun _ hd => by cases hfill.symm.trans hd)
  | htWarm => exact h.with_ht_of_fill (HashTable.warm_wf hht _ _) (HashTable.warm_fill ..)
  | htSave =>
    have hregion := writeRegion_stop_le hstart rfl
    exact h.with_writeBytes (by rwa [HashTable.snapshot_length])
  | htLoad => exact h.with_ht (HashTable.ofEntries_wf _) (fun _ hd => by cases hd)
  | compressBlock | compressBlockExt => exact h.compressed (writeRegion_stop_le hstart rfl) _ _ _
  | decompressBlock =>
    refine h.decompressed (writeRegion_stop_le hstart rfl) fun out hout => ?_
    have hlen := length_le_of_decodeBlock_ok hout
    rwa [historyBytes, Memory.readBytes_length] at hlen

theorem State.Inv.exec {i : Instr} (h : s.Inv) (hexec : exec i s = .next t) : t.Inv := by
  rcases refused_or_ran hexec with ⟨e, -, rfl⟩ | ⟨hstart, rfl⟩
  · exact h
  · exact h.ran hstart

theorem State.Inv.startCommand (h : s.Inv) (w : Word) : (startCommand w s).Inv := by
  unfold Machine.startCommand
  split <;> exact h

/-- Reset makes the table a new draw and frees at most one region, by that draw. -/
theorem State.Inv.assertReset (h : s.Inv) : (assertReset s).Inv := by
  have hctx : State.reset.xs.wf = true := by
    rw [XxhContext.reset_eq_init]
    exact XxhContext.init_wf 0
  have hkept : { s with mem := memoryAfterReset s, draws := s.draws + 1 }.Inv := by
    unfold memoryAfterReset
    split
    · next sp _ => exact h.scrambleRegion sp
    · exact h.with_draws (Nat.le_succ s.draws)
  refine (hkept.with_xs hctx).with_ht (HashTable.unspecified_wf s.draws) fun d hd => ?_
  cases hd
  exact Nat.lt_succ_self s.draws

theorem State.Inv.moves (h : s.Inv) (hmove : Moves s t) : t.Inv := by
  cases hmove with
  | idles | refuses | readsReg | ignoresWrite | acknowledges | setsOperands | enables | looks => exact h
  | runs _ _ _ hexec => exact (h.with_agenda _).exec hexec
  | starts => exact (h.with_agenda _).startCommand _
  | readsMemory _ hd => exact h.with_draws hd
  | writesMemory _ hfits => exact h.with_writeBytes hfits
  | resets => exact (h.with_agenda _).assertReset

end Invariant

/-- Settles O57: a step is one of the moves, and each of them keeps every part of the invariant. -/
theorem everyStepKeepsInvariant : Obligations.EveryStepKeepsInvariant := by
  unfold Obligations.EveryStepKeepsInvariant
  exact fun _ _ hinv hstep => hinv.moves (moves_of_step hstep)

/-- Settles O56: after reset nothing is listed, the table is the past draw 0, and the context is that of seed 0. -/
theorem resetMeetsInvariant : Obligations.ResetMeetsInvariant := by
  unfold Obligations.ResetMeetsInvariant
  refine ⟨Memory.reset_wf, HashTable.unspecified_wf 0, ?_, fun d hd => ?_,
    fun _ hf => (List.not_mem_nil hf).elim, by decide⟩
  · rw [XxhContext.reset_eq_init]
    exact XxhContext.init_wf 0
  · cases hd
    decide

end Machine
end Sys2Proof

/-! ### Completion and the errors of the start checks (60_exceptions.md R113 to R123) -/

namespace Sys2Proof
namespace Machine

section Completion
variable {i : Instr} {s t : State}

/-- `t` is `s` after a command that ran: its work, then `complete`, or an error only its execution can find
(42_block_compressor.md R88, 43_block_decompressor.md R109). -/
inductive RanTo (i : Instr) (s : State) : State → Prop
  | completed {u : State} {r : Word} (hw : WorkedOn s u) : RanTo i s (complete r u)
  | tooSmall {u : State} (hw : WorkedOn s u) (hi : i = .compressBlock ∨ i = .compressBlockExt) :
      RanTo i s (raise .outputBufferTooSmall u)
  | undecodable {u : State} {e : ErrorCode} (hw : WorkedOn s u) (hi : i = .decompressBlock) (he : e ∈ executionErrors) :
      RanTo i s (raise e u)

theorem ranTo_compressed (hi : i = .compressBlock ∨ i = .compressBlockExt) (r : Block × HashTable) (s : State) :
    RanTo i s (compressed r s) := by
  unfold compressed
  split
  · exact .tooSmall (workedOn_set ..) hi
  · exact .completed (workedOn_set ..)

theorem ranTo_ran (i : Instr) (s : State) : RanTo i s (ran i s) := by
  cases i with
  | xxh32Oneshot | xxh32Reset | xxh32Update | xxh32Digest | htClear | htShift | htWarm | htSave | htLoad =>
    exact .completed (workedOn_set ..)
  | compressBlock => exact ranTo_compressed (.inl rfl) _ s
  | compressBlockExt => exact ranTo_compressed (.inr rfl) _ s
  | decompressBlock =>
    rw [ran]
    rcases decodeBlock_cases (srcBytes s) (historyBytes s) (dictBytes s) s.opr.dstCap.toNat with
      ⟨e, he, hd⟩ | ⟨out, -, hd⟩ <;> rw [hd]
    · exact .undecodable (workedOn_set ..) rfl he
    · exact .completed (workedOn_set ..)

/-- A command ends in `complete`, or in `raise` with an error that is one. -/
theorem exec_ends (h : exec i s = .next t) :
    ∃ u, WorkedOn s u ∧ ((∃ r, t = complete r u) ∨ ∃ e, e ≠ .noError ∧ t = raise e u) := by
  rcases refused_or_ran h with ⟨e, he, rfl⟩ | ⟨-, ht⟩
  · exact ⟨s, workedOn_set .., .inr ⟨e, fun hno => startError_ne_noError i s (hno ▸ he), rfl⟩⟩
  · cases ht ▸ ranTo_ran i s with
    | completed hw => exact ⟨_, hw, .inl ⟨_, rfl⟩⟩
    | tooSmall hw => exact ⟨_, hw, .inr ⟨_, by simp, rfl⟩⟩
    | undecodable hw _ he => exact ⟨_, hw, .inr ⟨_, ne_noError_of_mem_executionErrors he, rfl⟩⟩

/-- Settles O18: each of the two completions sets `STATUS`, and the work before it touches nothing else. -/
theorem completionSetsStatus : Obligations.CompletionSetsStatus := by
  unfold Obligations.CompletionSetsStatus
  intro i s t h
  obtain ⟨u, hw, ⟨r, rfl⟩ | ⟨e, he, rfl⟩⟩ := exec_ends h
  · exact ⟨by simp, fun hne => absurd rfl hne, congrArg (complete r) hw⟩
  · exact ⟨by simp [he], fun _ => rfl, congrArg (raise e) hw⟩

theorem status_of_exec (h : exec i s = .next t) : t.status.busy = false ∧ t.status.done = true := by
  obtain ⟨hstatus, -⟩ := completionSetsStatus i s t h
  rw [hstatus]
  exact ⟨rfl, rfl⟩

theorem irqEn_of_exec (h : exec i s = .next t) : t.irqEn = s.irqEn := by
  obtain ⟨-, -, hframe⟩ := completionSetsStatus i s t h
  rw [hframe]

theorem agenda_of_exec (h : exec i s = .next t) : t.agenda = s.agenda := by
  obtain ⟨-, -, hframe⟩ := completionSetsStatus i s t h
  rw [hframe]

/-! Which codes -/

/-- The codes of the start checks are among those of the command; the four that check nothing have none. -/
theorem mem_reportable_of_startError {e : ErrorCode} (h : startError i s = some e) : e ∈ reportable i := by
  cases i with
  | htClear | htShift | xxh32Reset | xxh32Digest => cases h
  | xxh32Oneshot | xxh32Update | htWarm | compressBlock | compressBlockExt | decompressBlock =>
    rcases startError_cases h with rfl | rfl | hsize
    · simp [reportable]
    · simp [reportable]
    · cases hsize
  | htSave | htLoad =>
    rcases startError_cases h with rfl | rfl | hsize
    · simp [reportable]
    · simp [reportable]
    · rw [sizeError] at hsize
      split at hsize <;> cases hsize
      simp [reportable]

theorem RanTo.errcode_mem (h : RanTo i s t) : t.errcode ∈ .noError :: executionErrors := by
  cases h with
  | completed => exact List.mem_cons_self
  | tooSmall => simp [executionErrors]
  | undecodable _ _ he => exact List.mem_cons_of_mem _ he

theorem ran_errcode_ne {e : ErrorCode} (he : e ∉ .noError :: executionErrors) : (ran i s).errcode ≠ e :=
  fun h => he (h ▸ (ranTo_ran i s).errcode_mem)

theorem noError_mem_reportable (i : Instr) : .noError ∈ reportable i := by
  cases i <;> exact List.mem_cons_self

theorem RanTo.errcode_mem_reportable (h : RanTo i s t) : t.errcode ∈ reportable i := by
  cases h with
  | completed => exact noError_mem_reportable i
  | tooSmall _ hi => rcases hi with rfl | rfl <;> simp [reportable]
  | undecodable _ hi he =>
    have hsub : executionErrors ⊆ reportable .decompressBlock := by decide
    exact hi ▸ hsub he

theorem mem_reportable_of_exec (h : exec i s = .next t) : t.errcode ∈ reportable i := by
  rcases refused_or_ran h with ⟨e, he, rfl⟩ | ⟨-, rfl⟩
  · exact mem_reportable_of_startError he
  · exact (ranTo_ran i s).errcode_mem_reportable

/-- Settles O23: the codes are those of the start checks and of the two ways to fail past them; `ERRCODE` shows the
number of the code. -/
theorem reportedErrorCodes : Obligations.ReportedErrorCodes := by
  unfold Obligations.ReportedErrorCodes
  refine ⟨fun i s t h => mem_reportable_of_exec h, fun s => ?_⟩
  rw [readReg]
  cases s.errcode <;> rfl

end Completion

/-! The operand checks (R119, 20_memory.md R30) -/

section OperandChecks
variable {i : Instr} {s t : State}

theorem overlaps_iff_shareAddress (x y : Config.Span) :
    x.overlaps y = true ↔ ShareAddress x.base (x.base + x.len) y.base (y.base + y.len) := by
  simp only [Config.Span.overlaps_iff, Config.Span.contains_iff, ShareAddress]

/-- The write region reaches up to `DST_ADDR + DST_CAP`; where `DST_OFF` passes `DST_CAP` both sides are false. -/
theorem dstSpan_overlaps_iff (o : OperandRegs) (y : Config.Span) :
    o.dstSpan.overlaps y = true ↔
      ShareAddress (o.dstAddr.toNat + o.dstOff.toNat) (o.dstAddr.toNat + o.dstCap.toNat) y.base (y.base + y.len) := by
  rw [overlaps_iff_shareAddress]
  refine exists_congr fun a => ?_
  simp only [OperandRegs.dstSpan]
  omega

/-- The checks of the model are those of the table of R119, with R30's for the two snapshot regions. -/
theorem operandInvalid_iff (i : Instr) (o : OperandRegs) : operandInvalid i o = true ↔ RefusedOperands i o := by
  have hspace : Config.addrSpace = 2 ^ 32 := rfl
  have hpos : Config.posLimit = 2 ^ 31 - 1 := rfl
  have hwindow : o.dictWindowLen ≤ o.dictLen.toNat := Nat.min_le_left _ _
  have hwindowEnd : o.dictAddr.toNat + o.dictLen.toNat - o.dictWindowLen + o.dictWindowLen =
      o.dictAddr.toNat + o.dictLen.toNat := by omega
  have hwindowLen : min o.dictLen.toNat 65536 = o.dictWindowLen := rfl
  cases i with
  | htSave | htLoad =>
    simp [operandInvalid, tableCheckFails, regionTooFar, regions, readRegions, writeRegion, RefusedOperands,
      OperandRegs.dstInvalid, OperandRegs.srcTooFar, Config.Span.stop, OperandRegs.saveSpan, OperandRegs.loadSpan,
      Config.snapshotSize, hspace, or_assoc]
  | compressBlock | compressBlockExt | decompressBlock =>
    rw [operandInvalid_eq_tableCheckFails o (by simp) (by simp)]
    simp only [tableCheckFails, RefusedOperands, OperandRegs.dstInvalid, OperandRegs.srcTooFar, OperandRegs.dictTooFar,
      Bool.or_eq_true, decide_eq_true_eq, dstSpan_overlaps_iff, OperandRegs.srcHistorySpan, OperandRegs.srcSpan,
      OperandRegs.dictSpan, OperandRegs.dictWindowSpan, hwindowEnd, hwindowLen, hspace, hpos, ← Nat.add_assoc]
    tauto
  | xxh32Oneshot | xxh32Update | htWarm | htClear | htShift | xxh32Reset | xxh32Digest =>
    rw [operandInvalid_eq_tableCheckFails o (by simp) (by simp)]
    simp [tableCheckFails, RefusedOperands, OperandRegs.srcTooFar, OperandRegs.dictTooFar, hspace]

theorem exec_of_operandInvalid (h : operandInvalid i s.opr = true) : exec i s = .next (raise .invalidOperand s) :=
  exec_of_startError (by simp [regionViolation, h]) (by simp [startError, h])

theorem sizeError_ne {e : ErrorCode} (he : e ∉ executionErrors) (i : Instr) (o : OperandRegs) :
    sizeError i o ≠ some e := by
  rintro h
  cases i with
  | htSave | htLoad =>
    rw [sizeError] at h
    split at h <;> cases h
    exact he (by decide)
  | _ => cases h

/-- Settles O20: the operand checks come first, and nothing else reports their error. -/
theorem invalidOperandRule : Obligations.InvalidOperandRule := by
  unfold Obligations.InvalidOperandRule
  refine fun i s => ⟨fun h => exec_of_operandInvalid ((operandInvalid_iff i s.opr).mpr h), fun h t hexec hcode => ?_⟩
  rw [← operandInvalid_iff, Bool.not_eq_true] at h
  rcases refused_or_ran hexec with ⟨e, he, rfl⟩ | ⟨-, rfl⟩
  · obtain rfl : e = .invalidOperand := hcode
    have hsize := sizeError_ne (by decide : ErrorCode.invalidOperand ∉ executionErrors) i s.opr
    rw [startError, h, if_neg Bool.false_ne_true] at he
    split at he
    · next e hs => exact hsize (hs.trans he)
    · split at he <;> cases he
  · exact ran_errcode_ne (by decide) hcode

/-- Settles O22: a size error is found once the operand checks pass, whatever the region. -/
theorem snapshotSizeChecks : Obligations.SnapshotSizeChecks := by
  unfold Obligations.SnapshotSizeChecks
  refine fun s => ⟨fun hopr hroom => ?_, fun hopr hlen => ?_⟩
  · have hsize : sizeError .htSave s.opr = some .outputBufferTooSmall := if_pos hroom
    exact exec_of_startError (by simp [regionViolation, hsize]) (by simp [startError, hopr, hsize])
  · have hsize : sizeError .htLoad s.opr = some .malformedInput := if_pos hlen
    exact exec_of_startError (by simp [regionViolation, hsize]) (by simp [startError, hopr, hsize])

end OperandChecks

/-! The regions (R122, 20_memory.md R31) -/

section Regions
variable {i : Instr} {s : State}

theorem regionViolation_iff (i : Instr) (s : State) :
    regionViolation i s = true ↔ operandInvalid i s.opr = false ∧ sizeError i s.opr = none ∧
      ∃ sp ∈ regions i s.opr, ∃ a, sp.contains a = true ∧ s.plat.ordinary a = false := by
  simp only [regionViolation, Bool.and_eq_true, Bool.not_eq_true', Option.isNone_iff_eq_none, List.any_eq_true,
    Config.Platform.notOrdinary_iff, and_assoc]

/-- Settles O19: the region check is the only stop of a command. -/
theorem onlyNonOrdinaryRegionsStop : Obligations.OnlyNonOrdinaryRegionsStop := by
  unfold Obligations.OnlyNonOrdinaryRegionsStop
  intro i s
  rw [← regionViolation_iff, Bool.not_eq_true]
  rcases exec_cases i s with ⟨hviolation, hc⟩ | ⟨e, hviolation, -, hc⟩ | ⟨hviolation, -, hc⟩ <;>
    rw [hviolation, hc]
  · exact ⟨fun _ => rfl, fun h => by cases h⟩
  · exact ⟨fun h => (Bool.false_ne_true h).elim, fun _ => ⟨_, rfl⟩⟩
  · exact ⟨fun h => (Bool.false_ne_true h).elim, fun _ => ⟨_, rfl⟩⟩

/-- Settles O21: past the other checks an unbacked byte is the one start error, and no execution reports it. -/
theorem busErrorRule : Obligations.BusErrorRule := by
  unfold Obligations.BusErrorRule
  intro i s hopr hsize hordinary
  refine ⟨fun ⟨sp, hsp, a, ha, hbacked⟩ => ?_, fun hbacked t hexec hcode => ?_⟩
  · have hviolation : regionViolation i s = false := by
      rw [← Bool.not_eq_true, regionViolation_iff]
      rintro ⟨-, -, sp, hsp, a, ha, hdevice⟩
      rw [hordinary sp hsp a ha] at hdevice
      cases hdevice
    have hunbacked : (regions i s.opr).any s.plat.unbacked = true :=
      List.any_eq_true.mpr ⟨sp, hsp, (s.plat.unbacked_iff sp (region_stop_le hopr hsp)).mpr ⟨a, ha, hbacked⟩⟩
    exact exec_of_startError hviolation (by simp [startError, hopr, hsize, hunbacked])
  · rw [exec_of_startPasses ⟨hopr, hsize, fun sp hsp a ha => ⟨hbacked sp hsp a ha, hordinary sp hsp a ha⟩⟩] at hexec
    cases hexec
    exact ran_errcode_ne (by decide) hcode

end Regions

/-! ### Who changes the hash table and the context (10_state.md R24, R25) -/

section SharedState
variable {i : Instr} {s t : State}

/-- The commands that change the hash table. -/
def tableCommands : List Instr := [.htClear, .htShift, .htWarm, .htLoad, .compressBlock, .compressBlockExt]

@[simp] theorem compressed_xs (r : Block × HashTable) (s : State) : (compressed r s).xs = s.xs := by
  unfold compressed
  split <;> rfl

@[simp] theorem decompressed_xs (decoded : Except ErrorCode (List Byte)) (s : State) :
    (decompressed decoded s).xs = s.xs := by
  cases decoded <;> rfl

@[simp] theorem decompressed_ht (decoded : Except ErrorCode (List Byte)) (s : State) :
    (decompressed decoded s).ht = s.ht := by
  cases decoded <;> rfl

theorem ht_of_exec (h : exec i s = .next t) (hi : i ∉ tableCommands) : t.ht = s.ht := by
  rcases refused_or_ran h with ⟨e, -, rfl⟩ | ⟨-, rfl⟩
  · rfl
  · cases i with
    | htClear | htShift | htWarm | htLoad | compressBlock | compressBlockExt => exact absurd (by decide) hi
    | xxh32Oneshot | xxh32Reset | xxh32Update | xxh32Digest | htSave => rfl
    | decompressBlock => exact decompressed_ht ..

theorem xs_of_exec (h : exec i s = .next t) (hi : i ∉ [Instr.xxh32Reset, .xxh32Update]) : t.xs = s.xs := by
  rcases refused_or_ran h with ⟨e, -, rfl⟩ | ⟨-, rfl⟩
  · rfl
  · cases i with
    | xxh32Reset | xxh32Update => exact absurd (by decide) hi
    | xxh32Oneshot | xxh32Digest | htClear | htShift | htWarm | htSave | htLoad => rfl
    | compressBlock | compressBlockExt => exact compressed_xs ..
    | decompressBlock => exact decompressed_xs ..

/-- Settles O38: of the moves only the run of a command and a reset change table or context, and a command only if it is
one of its own. -/
theorem sharedStateChangedOnlyByItsCommands : Obligations.SharedStateChangedOnlyByItsCommands := by
  unfold Obligations.SharedStateChangedOnlyByItsCommands
  intro s t hstep
  cases moves_of_step hstep with
  | idles | refuses | readsReg | ignoresWrite | acknowledges | setsOperands | enables | readsMemory | writesMemory
  | looks => exact ⟨fun h => absurd rfl h, fun h => absurd rfl h⟩
  | starts => exact ⟨fun h => absurd (startCommand_ht ..) h, fun h => absurd (startCommand_xs ..) h⟩
  | resets ha => exact ⟨fun _ => .inl ⟨_, ha⟩, fun _ => .inl ⟨_, ha⟩⟩
  | runs hnext hbusy hdecode hexec =>
    have hht := fun hi => ht_of_exec hexec hi
    have hxs := fun hi => xs_of_exec hexec hi
    exact ⟨fun h => .inr ⟨hbusy, ⟨_, hnext⟩, _, hdecode, of_not_not fun hi => h (hht hi)⟩,
      fun h => .inr ⟨hbusy, ⟨_, hnext⟩, _, hdecode, of_not_not fun hi => h (hxs hi)⟩⟩

end SharedState

end Machine
end Sys2Proof

/-! ### Encoding and starting a command (30_encoding.md R37, R38, 10_state.md R17) -/

namespace Sys2Proof

/-- A word is its two fields. -/
theorem eq_of_fields_eq {w w' : Word} (hopcode : opcodeField w = opcodeField w') (hrsvd : rsvdField w = rsvdField w') :
    w = w' := by
  have hlow := congrArg BitVec.toNat hopcode
  have hhigh := congrArg BitVec.toNat hrsvd
  simp only [opcodeField, rsvdField, BitVec.extractLsb'_toNat, Nat.shiftRight_eq_div_pow] at hlow hhigh
  have := w.isLt
  have := w'.isLt
  apply BitVec.eq_of_toNat_eq
  omega

theorem rsvdField_encode (i : Instr) : rsvdField (encode i) = 0 := by cases i <;> decide

/-- Settles O2: a word that decodes has the two fields of its command's word, and the fields make the word. -/
theorem decodeInvertsEncode : Obligations.DecodeInvertsEncode := by
  unfold Obligations.DecodeInvertsEncode
  refine ⟨fun i => (decode_eq_ok_iff _ i).mpr ⟨rfl, rsvdField_encode i⟩, fun w i h => ?_⟩
  obtain ⟨hopcode, hrsvd⟩ := (decode_eq_ok_iff w i).mp h
  exact eq_of_fields_eq hopcode.symm ((rsvdField_encode i).trans hrsvd.symm)

namespace Machine

section Start
variable {s : State} {w : Word} {i : Instr} {rest : List Turn}

theorem decode_error_of_illFormed (h : wellFormedCommand w = false) : ∃ e, decode w = .error e := by
  cases hd : decode w with
  | error e => exact ⟨e, rfl⟩
  | ok i => simp [(decode_isOk_iff w).mp ⟨i, hd⟩] at h

theorem startCommand_of_ok (h : decode w = .ok i) : startCommand w s = latchCommand w s := by
  simp only [startCommand, h]

theorem startCommand_of_illFormed (h : wellFormedCommand w = false) :
    startCommand w s = raise .illegalCommand (latchCommand w s) := by
  obtain ⟨e, he⟩ := decode_error_of_illFormed h
  simp only [startCommand, he]

theorem step_writesCmd (ha : s.agenda = writesCmd w rest) : step s = writeReg .cmd w { s with agenda := rest } :=
  step_regWrite (by decide) ha

theorem step_writesCmd_of_idle (ha : s.agenda = writesCmd w rest) (hidle : s.status.busy = false) :
    step s = .next (startCommand w { s with agenda := rest }) := by
  rw [step_writesCmd ha, writeReg, if_neg (by simp [hidle])]

theorem step_writesCmd_of_busy (ha : s.agenda = writesCmd w rest) (hbusy : s.status.busy = true) :
    step s = .fault .cmdWriteWhileBusy := by
  rw [step_writesCmd ha, writeReg, if_pos hbusy]

/-- Settles O3: such a word does not decode, so its `CMD` write latches it and raises the error. -/
theorem illegalWordCompletesAtOnce : Obligations.IllegalWordCompletesAtOnce := by
  unfold Obligations.IllegalWordCompletesAtOnce
  intro s w rest ha hidle hillegal
  have hill : wellFormedCommand w = false := by
    rw [wellFormedCommand, Bool.and_eq_false_iff]
    rcases hillegal with hrsvd | hopcode
    · exact .inl (by simpa using hrsvd)
    · exact .inr (by simpa [definedOpcodes] using hopcode)
  rw [step_writesCmd_of_idle ha hidle, startCommand_of_illFormed hill]
  rfl

/-! The engine's turn -/

theorem step_of_engineNext (h : EngineNext s.agenda rest) : step s = engineTurn { s with agenda := rest } := by
  rcases h with ha | ⟨ha, rfl⟩
  · exact step_engine ha
  · rw [step_empty ha, ← ha]

theorem step_of_busy (h : EngineNext s.agenda rest) (hbusy : s.status.busy = true) (hdecode : decode s.cmd = .ok i) :
    step s = exec i { s with agenda := rest } := by
  simp only [step_of_engineNext h, engineTurn, hbusy, if_true, runCommand, hdecode]

theorem step_of_busy_error {e : DecodeError} (h : EngineNext s.agenda rest) (hbusy : s.status.busy = true)
    (hdecode : decode s.cmd = .error e) : step s = .next (raise .illegalCommand { s with agenda := rest }) := by
  simp only [step_of_engineNext h, engineTurn, hbusy, if_true, runCommand, hdecode]

theorem step_of_idle (h : EngineNext s.agenda rest) (hidle : s.status.busy = false) :
    step s = .next { s with agenda := rest } := by
  simp only [step_of_engineNext h, engineTurn, hidle, Bool.false_eq_true, if_false]

/-- Settles O5: the engine's turn, in its two cases. -/
theorem stepRunsDecodedCommand : Obligations.StepRunsDecodedCommand := by
  unfold Obligations.StepRunsDecodedCommand
  exact fun _ _ hnext => ⟨fun _ hbusy hdecode => step_of_busy hnext hbusy hdecode, step_of_idle hnext⟩

/-- Settles O4: while idle the write latches the word and the next engine's turn runs it; while BUSY it faults. -/
theorem cmdWriteStartsCommand : Obligations.CmdWriteStartsCommand := by
  unfold Obligations.CmdWriteStartsCommand
  refine fun s w i rest ha hdecode => ⟨fun hidle => ?_, step_writesCmd_of_busy ha⟩
  rw [step_writesCmd_of_idle ha hidle, startCommand_of_ok hdecode]
  exact ⟨_, rfl, rfl, rfl, fun _ hnext => step_of_busy hnext rfl hdecode⟩

end Start

/-! ### Registers (10_state.md R15 to R23) -/

section Registers
variable {s t : State} {off : Nat} {r : Reg} {v : Word} {rest : List Turn}

theorem status_word_eq (st : Status) :
    st.word = BitVec.ofNat 32 (st.busy.toNat + 2 * st.done.toNat + 4 * st.error.toNat) := by
  obtain ⟨busy, done, error⟩ := st
  cases busy <;> cases done <;> cases error <;> decide

theorem getLsbD_status_word (st : Status) (k : Nat) : st.word.getLsbD k =
    if k = 0 then st.busy else if k = 1 then st.done else if k = 2 then st.error else false := by
  match k with
  | 0 | 1 | 2 =>
    obtain ⟨busy, done, error⟩ := st
    cases busy <;> cases done <;> cases error <;> rfl
  | k + 3 =>
    have hlt : st.word.toNat < 2 ^ (k + 3) := by
      have := Bool.toNat_lt st.busy
      have := Bool.toNat_lt st.done
      have := Bool.toNat_lt st.error
      have : 2 ^ 3 ≤ 2 ^ (k + 3) := Nat.pow_le_pow_right (by omega) (by omega)
      rw [status_word_eq, BitVec.toNat_ofNat]
      omega
    simpa [BitVec.getLsbD] using Nat.testBit_lt_two_pow hlt

theorem codeNumber_eq (e : ErrorCode) : e.code.setWidth 32 = codeNumber e := by cases e <;> rfl

theorem setWidth_bit (b : Bool) : (bit b).setWidth 32 = BitVec.ofNat 32 b.toNat := by cases b <;> rfl

/-- The window shows what each of its registers reads: three fields by their bits, every other register as it is
held. -/
theorem windowShows_eq (s : State) : windowShows s = windowMap.map fun e => (e.1, e.2, readReg e.2 s) := by
  simp only [windowShows, windowMap, List.map_cons, List.map_nil, readReg, status_word_eq, codeNumber_eq, setWidth_bit]

theorem mem_windowShows_iff : (off, r, v) ∈ windowShows s ↔ (off, r) ∈ windowMap ∧ readReg r s = v := by
  simp [windowShows_eq]

theorem step_regRead (hr : (off, r) ∈ windowMap) (ha : s.agenda = .host (.regRead off 4) :: rest) :
    step s = .next (observe (.reg off (readReg r s)) { s with agenda := rest }) := by
  rw [step_host ha]
  simp only [hostAction, regAt_of_mem hr, readReg_agenda]

/-- Settles O6: the window row by row, and a read only observes. -/
theorem registerReadHasNoSideEffect : Obligations.RegisterReadHasNoSideEffect := by
  unfold Obligations.RegisterReadHasNoSideEffect
  refine fun s => ⟨rfl, fun off r v h => ?_⟩
  obtain ⟨hr, hread⟩ := mem_windowShows_iff.mp h
  refine ⟨hread, fun rest ha => ?_⟩
  rw [step_regRead hr ha, hread]
  rfl

/-- Settles O7: a write of a read-only register is the register's own arm, which keeps the state. -/
theorem readOnlyRegistersIgnoreWrites : Obligations.ReadOnlyRegistersIgnoreWrites := by
  unfold Obligations.ReadOnlyRegistersIgnoreWrites
  refine fun s => ⟨rfl, rfl, fun off v rest hoff ha => ?_⟩
  fin_cases hoff
  · exact step_regWrite (r := .id) (by decide) ha
  · exact step_regWrite (r := .errcode) (by decide) ha
  · exact step_regWrite (r := .result) (by decide) ha
  · exact step_regWrite (r := .reserved) (by decide) ha

theorem step_statusWrite (ha : s.agenda = .host (.regWrite 0x08 4 v) :: rest) :
    step s = .next { s with agenda := rest, status := s.status.writeOneToClear v } :=
  step_regWrite (r := .status) (by decide) ha

theorem step_irqEnWrite (ha : s.agenda = .host (.regWrite 0x38 4 v) :: rest) :
    step s = .next { s with agenda := rest, irqEn := v.getLsbD 0 } :=
  step_regWrite (r := .irqEn) (by decide) ha

/-- Settles O9: the write is the W1C operation on the three fields. -/
theorem statusWriteClearsOnlyOnes : Obligations.StatusWriteClearsOnlyOnes := by
  unfold Obligations.StatusWriteClearsOnlyOnes
  intro s v rest ha
  refine ⟨_, step_statusWrite ha, rfl, ?_, ?_, ?_, fun k hk => ?_⟩ <;>
    simp only [readReg, getLsbD_status_word]
  · rfl
  · rfl
  · rfl
  · rw [if_neg (by omega), if_neg (by omega), if_neg (by omega)]

/-- `IRQ_EN` reads back as bit 0 of what was written. -/
theorem setWidth_bit_getLsbD (v : Word) : (bit (v.getLsbD 0)).setWidth 32 = v &&& 1 := by
  have hmod : (v &&& 1).toNat = v.toNat % 2 := by
    rw [BitVec.toNat_and]
    exact Nat.and_one_is_mod _
  apply BitVec.eq_of_toNat_eq
  rw [hmod, setWidth_bit, BitVec.toNat_ofNat, BitVec.getLsbD, Nat.testBit_zero]
  rcases Nat.mod_two_eq_zero_or_one v.toNat with h | h <;> simp [h]

theorem irq_eq (s : State) : irq s = ((readReg .irqEn s).getLsbD 0 && (readReg .status s).getLsbD 1) := by
  have hbit : ((bit s.irqEn).setWidth 32).getLsbD 0 = s.irqEn := by cases s.irqEn <;> rfl
  simp only [irq, readReg, getLsbD_status_word, hbit]
  rfl

/-- Settles O12: the two bits read as the two fields; `IRQ_EN` stores one bit; a look only observes. -/
theorem irqIsEnableAndDone : Obligations.IrqIsEnableAndDone := by
  unfold Obligations.IrqIsEnableAndDone
  refine ⟨irq_eq, fun s v rest ha => ⟨_, step_irqEnWrite ha, setWidth_bit_getLsbD v, rfl⟩, fun s rest ha => ?_⟩
  rw [step_host ha]
  rfl

theorem irq_startCommand (w : Word) (s : State) : irq (startCommand w s) = (s.irqEn && !wellFormedCommand w) := by
  cases hw : wellFormedCommand w with
  | true =>
    obtain ⟨i, hi⟩ := (decode_isOk_iff w).mpr hw
    rw [startCommand_of_ok hi]
    rfl
  | false =>
    rw [startCommand_of_illFormed hw]
    rfl

/-- Settles O13: completion sets DONE and keeps the enable; each acknowledgement clears one of the two bits. -/
theorem irqFollowsCompletion : Obligations.IrqFollowsCompletion := by
  unfold Obligations.IrqFollowsCompletion
  refine ⟨irq_eq, fun i s t hexec => ?_, fun s t w rest ha hstep => ?_, fun s t v rest ha hv hstep => ?_,
    fun s t v rest ha hv hstep => ?_⟩
  · rw [irq, (status_of_exec hexec).2, irqEn_of_exec hexec, Bool.and_true]
  · rw [eq_startCommand_of_step ha hstep, irq_startCommand]
  · rw [step_statusWrite ha] at hstep
    cases hstep
    simp [irq, Status.writeOneToClear, hv]
  · rw [step_irqEnWrite ha] at hstep
    cases hstep
    exact (congrArg (· && s.status.done) hv :)

end Registers

/-! ### `STATUS` along a step (10_state.md R18) -/

section StatusAlongStep
variable {s t : State}

theorem decode_of_startCommand_busy {w : Word} (h : (startCommand w s).status.busy = true) : ∃ i, decode w = .ok i := by
  rw [decode_isOk_iff]
  cases hw : wellFormedCommand w with
  | true => rfl
  | false =>
    rw [startCommand_of_illFormed hw] at h
    cases h

theorem startCommand_cmd (w : Word) (s : State) : (startCommand w s).cmd = w := by
  unfold startCommand
  split <;> rfl

/-- Settles O10: of the moves only a start sets BUSY, and only a completion or a reset clears it. -/
theorem busyChangesOnlyAtStartCompletionReset : Obligations.BusyChangesOnlyAtStartCompletionReset := by
  unfold Obligations.BusyChangesOnlyAtStartCompletionReset
  intro s t hstep
  cases moves_of_step hstep with
  | idles | readsReg | ignoresWrite | acknowledges | setsOperands | enables | readsMemory | writesMemory | looks =>
    exact ⟨fun hs ht => absurd (hs.symm.trans ht) Bool.false_ne_true,
      fun hs ht => absurd (ht.symm.trans hs) Bool.false_ne_true⟩
  | runs hnext hbusy _ hexec =>
    exact ⟨fun hs _ => absurd (hs.symm.trans hbusy) Bool.false_ne_true,
      fun _ _ => .inl ⟨⟨_, hnext⟩, (status_of_exec hexec).2⟩⟩
  | refuses hnext hbusy =>
    exact ⟨fun hs _ => absurd (hs.symm.trans hbusy) Bool.false_ne_true, fun _ _ => .inl ⟨⟨_, hnext⟩, rfl⟩⟩
  | starts ha hidle =>
    refine ⟨fun _ ht => ?_, fun hs => absurd (hidle.symm.trans hs) Bool.false_ne_true⟩
    obtain ⟨i, hi⟩ := decode_of_startCommand_busy ht
    exact ⟨_, _, i, ha, hi, startCommand_cmd ..⟩
  | resets ha => exact ⟨fun _ ht => absurd ht Bool.false_ne_true, fun _ _ => .inr ⟨_, ha⟩⟩

theorem done_of_startCommand_error {w : Word} (h : (startCommand w s).status.error = true) :
    (startCommand w s).status.done = true := by
  unfold startCommand at h ⊢
  split at h <;> trivial

/-- Settles O11: a move keeps both bits, clears ERROR, or sets DONE; only the write of `STATUS` can clear DONE alone. -/
theorem errorImpliesDone : Obligations.ErrorImpliesDone := by
  unfold Obligations.ErrorImpliesDone
  intro s t hs hstep hwrite herr
  cases moves_of_step hstep with
  | idles | readsReg | ignoresWrite | setsOperands | enables | readsMemory | writesMemory | looks => exact hs herr
  | acknowledges ha => exact absurd ha (hwrite _ _)
  | runs _ _ _ hexec => exact (status_of_exec hexec).2
  | refuses => rfl
  | starts => exact done_of_startCommand_error herr
  | resets => cases herr

end StatusAlongStep

end Machine
end Sys2Proof

/-! ### Host memory accesses and reset (70_reset_and_hazards.md R136, R139, R141) -/

namespace Sys2Proof
namespace Machine

section HostMemory
variable {s t : State} {a n b : Nat} {rest : List Turn}

theorem runningCommand_eq_some_iff {i : Instr} :
    runningCommand s = some i ↔ s.status.busy = true ∧ decode s.cmd = .ok i := by
  unfold runningCommand
  split
  · next hbusy => cases hd : decode s.cmd <;> simp [Except.toOption, hbusy]
  · next hidle => simp [hidle]

theorem runningWriteRegion_eq_some_iff {sp : Config.Span} : runningWriteRegion s = some sp ↔
    ∃ i, s.status.busy = true ∧ decode s.cmd = .ok i ∧ writeRegion i s.opr = some sp := by
  have hcommand : runningWriteRegion s = some sp ↔ ∃ i, runningCommand s = some i ∧ writeRegion i s.opr = some sp := by
    unfold runningWriteRegion
    cases runningCommand s <;> simp
  simp only [hcommand, runningCommand_eq_some_iff, and_assoc]

theorem mem_runningRegions_iff {sp : Config.Span} : sp ∈ runningRegions s ↔
    ∃ i, s.status.busy = true ∧ decode s.cmd = .ok i ∧ sp ∈ regions i s.opr := by
  have hcommand : sp ∈ runningRegions s ↔ ∃ i, runningCommand s = some i ∧ sp ∈ regions i s.opr := by
    unfold runningRegions
    cases runningCommand s <;> simp
  simp only [hcommand, runningCommand_eq_some_iff, and_assoc]

theorem inRunningWriteRegion_iff :
    (runningWriteRegion s).any (·.contains b) = true ↔ InRunningWriteRegion s b := by
  rw [Option.any_eq_true]
  simp only [runningWriteRegion_eq_some_iff, InRunningWriteRegion]
  constructor
  · rintro ⟨sp, ⟨i, hbusy, hdecode, hsp⟩, hb⟩
    exact ⟨hbusy, i, sp, hdecode, hsp, hb⟩
  · rintro ⟨hbusy, i, sp, hdecode, hsp, hb⟩
    exact ⟨sp, ⟨i, hbusy, hdecode, hsp⟩, hb⟩

/-- Ordinary backed bytes are neither the window's nor the platform's. -/
theorem OrdinaryBytes.access (h : OrdinaryBytes s a n) :
    s.plat.window.overlaps ⟨a, n⟩ = false ∧ platformAccess s.plat ⟨a, n⟩ = false := by
  obtain ⟨hspace, hbytes⟩ := h
  have hstop : Config.Span.stop ⟨a, n⟩ ≤ Config.addrSpace := hspace
  have hin {b : Nat} (hb : Config.Span.contains ⟨a, n⟩ b = true) :
      s.plat.memOk b = true ∧ s.plat.ordinary b = true := by
    obtain ⟨hlow, hhigh⟩ := (Config.Span.contains_iff _ b).mp hb
    exact hbytes b hlow hhigh
  have hordinary : s.plat.notOrdinary ⟨a, n⟩ = false := by
    rw [← Bool.not_eq_true, Config.Platform.notOrdinary_iff]
    rintro ⟨b, hb, hdevice⟩
    rw [(hin hb).2] at hdevice
    cases hdevice
  have hbacked : s.plat.unbacked ⟨a, n⟩ = false := by
    rw [← Bool.not_eq_true, Config.Platform.unbacked_iff _ _ hstop]
    rintro ⟨b, hb, hhole⟩
    rw [(hin hb).1] at hhole
    cases hhole
  obtain ⟨hwindow, hdevices⟩ := Bool.or_eq_false_iff.mp hordinary
  refine ⟨hwindow, ?_⟩
  simp only [platformAccess, hbacked, hdevices, Nat.not_lt.mpr hstop, decide_false, Bool.or_false]

/-- A read of ordinary backed bytes is answered byte by byte. -/
theorem hostRead_of_ordinary (h : OrdinaryBytes s a n) : ∃ d, hostRead a n s =
    .next { observe (.bytes a ((List.range n).map fun k => hostReadByte s (a + k))) s with draws := d } := by
  obtain ⟨hwindow, hplatform⟩ := h.access
  simp only [hostRead, hwindow, hplatform, Bool.false_eq_true, if_false]
  split <;> exact ⟨_, rfl⟩

theorem viewAt_map_range (f : Nat → Byte) {k : Nat} (hk : k < n) : viewAt ((List.range n).map f) k = f k := by
  simp [viewAt, hk]

/-- A write of ordinary backed bytes outside the running command's regions stores them. -/
theorem hostWrite_of_ordinary {bs : List Byte} (h : OrdinaryBytes s a bs.length)
    (houtside : ∀ sp ∈ runningRegions s, sp.overlaps ⟨a, bs.length⟩ = false) :
    hostWrite a bs s = .next { s with mem := s.mem.writeBytes a bs } := by
  obtain ⟨hwindow, hplatform⟩ := h.access
  have hregions : (runningRegions s).any (·.overlaps ⟨a, bs.length⟩) = false := by simpa using houtside
  simp only [hostWrite, hwindow, hregions, hplatform, Bool.false_eq_true, if_false]

/-- A write to a byte of the running command's regions faults, if not as a register access. -/
theorem hostWrite_in_region {bs : List Byte} {sp : Config.Span} (hsp : sp ∈ runningRegions s)
    (hb : sp.contains b = true) (hlow : a ≤ b) (hhigh : b < a + bs.length) : ∃ f, hostWrite a bs s = .fault f := by
  have hregions : (runningRegions s).any (·.overlaps ⟨a, bs.length⟩) = true :=
    List.any_eq_true.mpr ⟨sp, hsp, (sp.overlaps_iff _).mpr ⟨b, hb, (Config.Span.contains_iff _ b).mpr ⟨hlow, hhigh⟩⟩⟩
  simp only [hostWrite, hregions, if_true]
  split <;> exact ⟨_, rfl⟩

/-- Settles O60: such a write is answered by the store of a run of bytes. -/
theorem hostWriteStoresBytes : Obligations.HostWriteStoresBytes := by
  unfold Obligations.HostWriteStoresBytes
  intro s a bytes rest ha hordinary houtside
  have hregions : ∀ sp ∈ runningRegions s, sp.overlaps ⟨a, bytes.length⟩ = false := by
    intro sp hsp
    obtain ⟨i, hbusy, hdecode, hmem⟩ := mem_runningRegions_iff.mp hsp
    rw [← Bool.not_eq_true, sp.overlaps_iff]
    rintro ⟨b, hb, hwritten⟩
    exact houtside i sp b hbusy hdecode hmem hb ((Config.Span.contains_iff _ b).mp hwritten)
  have hwrite := hostWrite_of_ordinary (s := { s with agenda := rest }) hordinary hregions
  refine ⟨_, (step_host ha).trans hwrite, rfl, fun k hk => ?_, fun b hb => Memory.read_writeBytes_outside hb⟩
  rw [Memory.read_writeBytes, if_pos (by omega), Nat.add_sub_cancel_left]

/-! Protocol violations (R141) -/

theorem step_operandWrite_of_busy {off : Nat} {r : Reg} {v : Word} (hr : (off, r) ∈ operandMap)
    (hbusy : s.status.busy = true) (ha : s.agenda = .host (.regWrite off 4 v) :: rest) :
    step s = .fault .operandWriteWhileBusy := by
  rw [step_regWrite (windowMap_of_operandMap hr) ha, writeReg_operand hr, writeOperand, if_pos hbusy]

theorem regAt_of_badAccess {off width : Nat} (hoff : off < 0x40) (hbad : width ≠ 4 ∨ off % 4 ≠ 0) :
    regAt off width = .fault .badRegisterAccess := by
  have hill : wellFormedAccess off width = false := by
    rcases hbad with h | h <;> simp [wellFormedAccess, h]
  have hin : ¬Config.windowSize ≤ off := Nat.not_le.mpr hoff
  rw [regAt, if_neg hin, hill, if_neg Bool.false_ne_true]

theorem step_badAccess {off width : Nat} {v : Word} (hoff : off < 0x40) (hbad : width ≠ 4 ∨ off % 4 ≠ 0)
    (ha : s.agenda = .host (.regRead off width) :: rest ∨ s.agenda = .host (.regWrite off width v) :: rest) :
    step s = .fault .badRegisterAccess := by
  rcases ha with ha | ha <;> rw [step_host ha, hostAction, regAt_of_badAccess hoff hbad]

/-- A memory read that is answered is an observation and at most one draw. -/
theorem eq_of_step_memRead (ha : s.agenda = .host (.memRead a n) :: rest) (h : step s = .next t) :
    t = { s with agenda := rest, seen := t.seen, draws := t.draws } := by
  rw [step_host ha, hostAction] at h
  rcases hostRead_cases a n { s with agenda := rest } with hc | hc | ⟨bs, d, hc, -⟩ <;> rw [hc] at h <;> cases h
  rfl

theorem hostReadByte_of_free (h : InRunningWriteRegion s b) : hostReadByte s b = Config.freeByte s.draws b := by
  rw [hostReadByte, if_pos (inRunningWriteRegion_iff.mpr h)]

theorem hostReadByte_of_kept (h : ¬InRunningWriteRegion s b) : hostReadByte s b = s.mem.read b := by
  rw [hostReadByte, if_neg (mt inRunningWriteRegion_iff.mp h)]

/-- Settles O14: the three violations fault; a memory read is an observation, of free values in the running write
region. -/
theorem protocolViolationsFault : Obligations.ProtocolViolationsFault := by
  unfold Obligations.ProtocolViolationsFault
  refine ⟨fun s off v rest hbusy ha => ⟨fun hoff => ?_, fun r hr => step_operandWrite_of_busy hr hbusy ha⟩,
    fun s off width v rest hoff hbad ha => step_badAccess hoff hbad ha,
    fun s i a b bytes rest sp hbusy hdecode hsp hb hlow hhigh ha => ?_,
    fun s t a n rest ha hstep => eq_of_step_memRead ha hstep, fun s a n rest ha hordinary => ?_⟩
  · subst hoff
    exact step_writesCmd_of_busy ha hbusy
  · rw [step_host ha]
    exact hostWrite_in_region (s := { s with agenda := rest }) (mem_runningRegions_iff.mpr ⟨i, hbusy, hdecode, hsp⟩) hb
      hlow hhigh
  · obtain ⟨d, hread⟩ := hostRead_of_ordinary (s := { s with agenda := rest }) hordinary
    refine ⟨_, _, (step_host ha).trans hread, rfl, by simp, fun k hk => ?_⟩
    rw [viewAt_map_range _ hk]
    exact ⟨hostReadByte_of_free (s := { s with agenda := rest }), hostReadByte_of_kept (s := { s with agenda := rest })⟩

/-! Reset -/

theorem memoryAfterReset_of_region {sp : Config.Span} (h : runningWriteRegion s = some sp) :
    memoryAfterReset s = s.mem.scramble sp s.draws := by
  simp only [memoryAfterReset, h]

theorem memoryAfterReset_of_none (h : runningWriteRegion s = none) : memoryAfterReset s = s.mem := by
  simp only [memoryAfterReset, h]

theorem readReg_assertReset (r : Reg) (s : State) : readReg r (assertReset s) = readReg r State.reset := by
  cases r <;> rfl

/-- Settles O17: the reset state field by field, and memory by whether a command with a write region runs. -/
theorem assertedResetGivesResetState : Obligations.AssertedResetGivesResetState := by
  unfold Obligations.AssertedResetGivesResetState
  intro s rest ha
  refine ⟨_, step_host ha, fun r => readReg_assertReset r _, rfl, rfl, fun k => rfl, rfl, rfl, rfl,
    fun i sp a hbusy hdecode hsp => ?_, fun hnone => ?_⟩
  · have hregion : runningWriteRegion { s with agenda := rest } = some sp :=
      runningWriteRegion_eq_some_iff.mpr ⟨i, hbusy, hdecode, hsp⟩
    rw [assertReset_mem, memoryAfterReset_of_region hregion, Memory.read_scramble]
  · have hregion : runningWriteRegion { s with agenda := rest } = none := by
      rw [Option.eq_none_iff_forall_ne_some]
      intro sp hsp
      obtain ⟨i, hbusy, hdecode, hsome⟩ := runningWriteRegion_eq_some_iff.mp hsp
      rcases hnone with hidle | hnone
      · exact absurd (hidle.symm.trans hbusy) Bool.false_ne_true
      · exact absurd ((hnone i hdecode).symm.trans hsome) (by simp)
    rw [assertReset_mem, memoryAfterReset_of_none hregion]

end HostMemory

/-! ### A host that only reads (70_reset_and_hazards.md R139, R145) -/

section OnlyReads
variable {s : State}

/-- The premises of the statement: only engine turns and register reads are pending, and the running command's regions
are ordinary memory. -/
def OnlyReadsPending (s : State) : Prop :=
  (∀ turn ∈ s.agenda, OnlyReads turn) ∧ ∀ i, s.status.busy = true → decode s.cmd = .ok i →
    ∀ sp ∈ regions i s.opr, ∀ a, sp.contains a = true → s.plat.ordinary a = true

theorem OnlyReadsPending.of_idle {t : State} (hidle : t.status.busy = false)
    (hagenda : ∀ turn ∈ t.agenda, OnlyReads turn) : OnlyReadsPending t :=
  ⟨hagenda, fun _ hbusy => absurd (hidle.symm.trans hbusy) Bool.false_ne_true⟩

/-- An engine's turn answers, and leaves the engine idle. -/
theorem OnlyReadsPending.engine {rest : List Turn} (h : OnlyReadsPending s) (hnext : EngineNext s.agenda rest)
    (hrest : ∀ turn ∈ rest, OnlyReads turn) : ∃ t, step s = .next t ∧ OnlyReadsPending t := by
  obtain ⟨-, hordinary⟩ := h
  cases hbusy : s.status.busy with
  | false => exact ⟨_, step_of_idle hnext hbusy, .of_idle hbusy hrest⟩
  | true =>
    cases hdecode : decode s.cmd with
    | error e => exact ⟨_, step_of_busy_error hnext hbusy hdecode, .of_idle rfl hrest⟩
    | ok i =>
      obtain ⟨t, ht⟩ : Answers (exec i { s with agenda := rest }) := by
        refine (onlyNonOrdinaryRegionsStop i _).2 ?_
        rintro ⟨-, -, sp, hsp, a, ha, hdevice⟩
        exact absurd ((hordinary i hbusy hdecode sp hsp a ha).symm.trans hdevice) (by simp)
      have hagenda : t.agenda = rest := agenda_of_exec ht
      exact ⟨t, (step_of_busy hnext hbusy hdecode).trans ht, .of_idle (status_of_exec ht).1 (hagenda ▸ hrest)⟩

theorem OnlyReadsPending.step (h : OnlyReadsPending s) : ∃ t, step s = .next t ∧ OnlyReadsPending t := by
  obtain ⟨hagenda, hordinary⟩ := id h
  cases ha : s.agenda with
  | nil => exact h.engine (.inr ⟨ha, rfl⟩) (by simp)
  | cons turn rest =>
    rw [ha, List.forall_mem_cons] at hagenda
    obtain ⟨hturn, hrest⟩ := hagenda
    rcases hturn with rfl | ⟨off, r, rfl, hr⟩
    · exact h.engine (.inl ha) hrest
    · exact ⟨_, step_regRead hr ha, hrest, hordinary⟩

/-- Settles O59: such a state steps to another, by induction on the number of steps. -/
theorem readingHostNeverStops : Obligations.ReadingHostNeverStops := by
  unfold Obligations.ReadingHostNeverStops
  intro n s hagenda hordinary
  have hsafe (n : Nat) : ∀ s, OnlyReadsPending s → SafeFor n s := by
    induction n with
    | zero => exact fun _ _ => trivial
    | succ n ih =>
      intro s hs
      obtain ⟨t, hstep, ht⟩ := hs.step
      exact ⟨t, hstep, ih t ht⟩
  exact hsafe n s ⟨hagenda, hordinary⟩

end OnlyReads

end Machine
end Sys2Proof

/-! ### xxHash32 written out: one-shot and update (40_xxhash32.md R52, R58, R59, R61) -/

namespace Sys2Proof
namespace Machine

section Stripes
variable (d : List Byte) (j : Nat)

theorem xxhRound_eq_stripeRound (acc lane : Word) : xxhRound acc lane = stripeRound acc lane := by
  rw [xxhRound, rotl32_eq_rotateLeft _ (by decide : 13 < 32), prime1, prime2, stripeRound]

/-- `accumulate` over the first `n` stripes. -/
def accumulateFirst (n : Nat) (v : Word) : Word :=
  (List.range n).foldl (fun acc k => stripeRound acc (laneAt d (16 * k + j))) v

theorem accumulateFirst_zero (v : Word) : accumulateFirst d j 0 v = v := rfl

theorem accumulateFirst_succ (n : Nat) (v : Word) :
    accumulateFirst d j (n + 1) v = stripeRound (accumulateFirst d j n v) (laneAt d (16 * n + j)) := by
  rw [accumulateFirst, List.range_succ, List.foldl_append]
  rfl

theorem accumulate_eq_first (v : Word) : accumulate d j v = accumulateFirst d j (d.length / 16) v := rfl

theorem laneAt_drop (n : Nat) : laneAt (d.drop n) j = laneAt d (n + j) := by
  simp only [laneAt, viewAt_drop, Nat.add_assoc]

/-- The stripe engine takes each accumulator through its own lane of every stripe. -/
theorem xxhStripes_eq_accumulateFirst (n : Nat) (a : Accumulators) : xxhStripes n a d =
    ⟨accumulateFirst d 0 n a.v1, accumulateFirst d 4 n a.v2, accumulateFirst d 8 n a.v3,
      accumulateFirst d 12 n a.v4⟩ := by
  induction n with
  | zero => rfl
  | succ n ih =>
    rw [xxhStripes_add, ih]
    simp only [xxhStripes, xxhStripe, xxhRound_eq_stripeRound, ← laneAt_eq_rd32LE, laneAt_drop, accumulateFirst_succ]

theorem xxhStripes_eq_accumulate (a : Accumulators) : xxhStripes (d.length / 16) a d =
    ⟨accumulate d 0 a.v1, accumulate d 4 a.v2, accumulate d 8 a.v3, accumulate d 12 a.v4⟩ := by
  simp only [xxhStripes_eq_accumulateFirst, accumulate_eq_first]

end Stripes

theorem xxh32_eq_hashOf (d : List Byte) (seed : Word) : xxh32 d seed = hashOf d seed := by
  simp only [xxh32, hashOf, xxhStripes_eq_accumulate, xxhMerge_eq_mergeOf, xxhTail_eq_tailOf,
    xxhAvalanche_eq_avalancheOf, xxhInit, prime1, prime2, prime5]

theorem hashOf_test_vector : hashOf [0x74, 0x65, 0x73, 0x74] 0 = 1042293711 := by decide

/-- Settles O26: past its start checks the command completes with the function, which is the one written out. -/
theorem oneshotHashesSource : Obligations.OneshotHashesSource := by
  unfold Obligations.OneshotHashesSource
  refine ⟨fun s hstart => ?_, hashOf_test_vector⟩
  rw [exec_of_startPasses hstart, ran, srcBytes_eq_sourceOf, xxh32_eq_hashOf, complete]

/-- The context after an update, field by field. -/
theorem XxhContext.update_eq (x : XxhContext) (d : List Byte) : x.update d =
    { seed := x.seed, v1 := accumulate (x.mem ++ d) 0 x.v1, v2 := accumulate (x.mem ++ d) 4 x.v2
      v3 := accumulate (x.mem ++ d) 8 x.v3, v4 := accumulate (x.mem ++ d) 12 x.v4
      total := x.total + BitVec.ofNat 32 d.length
      large := x.large || decide (16 ≤ d.length) || decide (16 ≤ (x.total + BitVec.ofNat 32 d.length).toNat)
      mem := (x.mem ++ d).drop (16 * ((x.mem ++ d).length / 16)) } := by
  simp only [update, xxhStripes_eq_accumulate, accumulators]

theorem length_sourceOf (s : State) : (sourceOf s).length = s.opr.srcLen.toNat := length_bytesAt ..

/-- Settles O28: past its start checks the command absorbs the source, whose length is the register `SRC_LEN`. -/
theorem updateAbsorbsSource : Obligations.UpdateAbsorbsSource := by
  unfold Obligations.UpdateAbsorbsSource
  refine fun s hstart => ⟨_, exec_of_startPasses hstart, rfl, ?_⟩
  rw [ran, complete_xs, srcBytes_eq_sourceOf, XxhContext.update_eq, length_sourceOf, BitVec.ofNat_toNat,
    BitVec.setWidth_eq]

end Machine
end Sys2Proof

/-! ### The match finder: warm, save and load (41_match_finder.md R72 to R74) -/

namespace Sys2Proof
namespace Machine

section Warm
variable {t : HashTable} {w : List Byte} {p : Nat}

theorem rd32LE_cons_succ (b : Byte) (l : List Byte) (i : Nat) : rd32LE (b :: l) (i + 1) = rd32LE l i := rfl

/-- An entry that is no position's hash is kept. -/
theorem HashTable.read_warm_of_absent {k : Nat} (h : ∀ i, i + 4 ≤ w.length → hashU32 (rd32LE w i) ≠ k) :
    (t.warm w p).read k = t.read k := by
  induction t, w, p using HashTable.warm.induct with
  | case1 t b0 b1 b2 b3 rest p ih =>
    have hfirst : hashU32 (le32 b0 b1 b2 b3) ≠ k := h 0 (by simp)
    rw [HashTable.warm, ih (fun i hi => h (i + 1) (Nat.succ_le_succ hi)), read_insert, if_neg hfirst.symm]
  | case2 t w p hshort => rw [HashTable.warm]; exact hshort

theorem length_lt_four_of_ne_cons (h : ∀ b0 b1 b2 b3 rest, w = b0 :: b1 :: b2 :: b3 :: rest → False) :
    w.length < 4 := by
  match w with
  | [] | [_] | [_, _] | [_, _, _] => simp
  | b0 :: b1 :: b2 :: b3 :: rest => exact (h b0 b1 b2 b3 rest rfl).elim

/-- The last position of a hash is the one its entry holds: nothing after it has that hash. -/
theorem HashTable.read_warm_of_last {i : Nat} (hi : i + 4 ≤ w.length)
    (hlast : ∀ j, i < j → j + 4 ≤ w.length → hashU32 (rd32LE w j) ≠ hashU32 (rd32LE w i)) :
    (t.warm w p).read (hashU32 (rd32LE w i)) = entryOf (p + i) := by
  induction t, w, p using HashTable.warm.induct generalizing i with
  | case1 t b0 b1 b2 b3 rest p ih =>
    rw [HashTable.warm]
    cases i with
    | zero =>
      rw [read_warm_of_absent fun j hj => hlast (j + 1) (Nat.succ_pos j) (Nat.succ_le_succ hj), read_insert]
      exact if_pos rfl
    | succ i =>
      have hnext := ih (i := i) (Nat.le_of_succ_le_succ hi) fun j hij hj =>
        hlast (j + 1) (by omega) (Nat.succ_le_succ hj)
      rw [rd32LE_cons_succ, hnext, Nat.add_assoc, Nat.add_comm 1 i]
  | case2 t w p hshort =>
    have hlen := length_lt_four_of_ne_cons hshort
    omega

end Warm

theorem dictWindowBytes_eq_windowOf (s : State) : dictWindowBytes s = windowOf s := readBytes_eq_bytesAt ..

/-- Settles O34: past its start checks the command warms the table with the window; the count fits `RESULT`. -/
theorem warmInsertsEveryPosition : Obligations.WarmInsertsEveryPosition := by
  unfold Obligations.WarmInsertsEveryPosition
  intro s hstart
  have hlen : (windowOf s).length = windowLen s.opr := length_windowOf s
  rw [← hlen]
  refine ⟨_, exec_of_startPasses hstart, rfl, ?_, fun p hp hlast => ?_, fun k habsent => ?_⟩
  · have hle : (windowOf s).length ≤ 65536 := hlen.trans_le (Nat.min_le_right ..)
    have hwindow : s.opr.dictWindowLen = (windowOf s).length := hlen.symm
    rw [ran, complete_result, hwindow, BitVec.toNat_ofNat]
    omega
  · rw [ran, complete_ht, dictWindowBytes_eq_windowOf, HashTable.read_warm_of_last hp hlast, Nat.zero_add, entryOf]
  · rw [ran, complete_ht, dictWindowBytes_eq_windowOf, HashTable.read_warm_of_absent habsent]

/-! Snapshots -/

section Snapshot

/-- A word is the little-endian word of its four bytes. -/
theorem rd32LE_le32Bytes_append (w : Word) (rest : List Byte) : rd32LE (le32Bytes w ++ rest) 0 = w := by
  have hbytes : rd32LE (le32Bytes w ++ rest) 0 =
      le32 (w.extractLsb' 0 8) (w.extractLsb' 8 8) (w.extractLsb' 16 8) (w.extractLsb' 24 8) := rfl
  have hlt := w.isLt
  apply BitVec.eq_of_toNat_eq
  rw [hbytes, le32_toNat]
  simp only [BitVec.extractLsb'_toNat, Nat.shiftRight_eq_div_pow]
  omega

theorem drop_flatMap_le32Bytes (f : Nat → Word) (ks : List Nat) (n : Nat) :
    (ks.flatMap fun i => le32Bytes (f i)).drop (4 * n) = (ks.drop n).flatMap fun i => le32Bytes (f i) := by
  induction n generalizing ks with
  | zero => rfl
  | succ n ih =>
    cases ks with
    | nil => simp
    | cons k ks =>
      rw [Nat.mul_succ, Nat.add_comm, ← List.drop_drop, List.drop_succ_cons, ← ih]
      rfl

/-- Entry `k` stands at byte `4 k` of a snapshot. -/
theorem HashTable.rd32LE_snapshot (t : HashTable) {k : Nat} (hk : k < Config.htSize) :
    rd32LE t.snapshot (4 * k) = t.read k := by
  have hfirst : (List.range Config.htSize).drop k = k :: (List.range Config.htSize).drop (k + 1) := by
    rw [List.drop_eq_getElem_cons (by simpa using hk), List.getElem_range]
  have hdrop : rd32LE t.snapshot (4 * k) = rd32LE (t.snapshot.drop (4 * k)) 0 := by
    simp only [rd32LE, viewAt_drop, Nat.add_zero, Nat.zero_add]
  rw [hdrop, snapshot, drop_flatMap_le32Bytes, hfirst, List.flatMap_cons, rd32LE_le32Bytes_append]

theorem Memory.readWord_writeBytes (m : Memory) (a : Nat) {bs : List Byte} {i : Nat} (hi : i + 4 ≤ bs.length) :
    (m.writeBytes a bs).readWord (a + i) = rd32LE bs i := by
  have hbyte {j : Nat} (hj : j < bs.length) : (m.writeBytes a bs).read (a + j) = viewAt bs j := by
    rw [read_writeBytes, if_pos (by omega), Nat.add_sub_cancel_left]
  simp only [readWord, rd32LE, Nat.add_assoc]
  rw [hbyte (by omega), hbyte (by omega), hbyte (by omega), hbyte (by omega)]

theorem Memory.readWord_congr {m m' : Memory} {a : Nat} (h : ∀ j, j < 4 → m.read (a + j) = m'.read (a + j)) :
    m.readWord a = m'.readWord a := by
  simp only [readWord]
  rw [h 1 (by omega), h 2 (by omega), h 3 (by omega), show m.read a = m'.read a from h 0 (by omega)]

/-- After `HT_SAVE` the word of entry `k` stands in its place. -/
theorem readWord_htSave (s : State) {k : Nat} (hk : k < 16384) :
    (ran .htSave s).mem.readWord (dstStart s.opr + 4 * k) = s.ht.read k := by
  have hlen : s.ht.snapshot.length = 65536 := s.ht.snapshot_length
  rw [← s.ht.rd32LE_snapshot hk]
  exact Memory.readWord_writeBytes s.mem (dstStart s.opr) (by omega)

theorem read_htLoad (s : State) {k : Nat} (hk : k < 16384) :
    (ran .htLoad s).ht.read k = s.mem.readWord (s.opr.srcAddr.toNat + s.opr.srcStart.toNat + 4 * k) :=
  HashTable.read_load s.mem _ hk

/-- Settles O35: the command stores the snapshot, which holds the word of entry `k` at `4 k`. -/
theorem saveStoresTable : Obligations.SaveStoresTable := by
  unfold Obligations.SaveStoresTable
  refine fun s hstart => ⟨_, exec_of_startPasses hstart, rfl, fun k hk => readWord_htSave s hk, fun a ha => ?_⟩
  have hlen : s.ht.snapshot.length = 65536 := s.ht.snapshot_length
  exact Memory.read_writeBytes_outside (a := dstStart s.opr) (by rwa [hlen])

/-- Settles O36: the loaded table is made of the words in memory. -/
theorem loadReadsTable : Obligations.LoadReadsTable := by
  unfold Obligations.LoadReadsTable
  exact fun s hstart => ⟨_, exec_of_startPasses hstart, rfl, fun k hk => read_htLoad s hk⟩

theorem eq_ran_of_noError {i : Instr} {s t : State} (h : exec i s = .next t) (hok : t.errcode = .noError) :
    t = ran i s := by
  rcases refused_or_ran h with ⟨e, he, rfl⟩ | ⟨-, rfl⟩
  · exact absurd (hok ▸ he) (startError_ne_noError i s)
  · rfl

/-- Settles O37: the load reads the words the save left. -/
theorem saveThenLoadRestoresTable : Obligations.SaveThenLoadRestoresTable := by
  unfold Obligations.SaveThenLoadRestoresTable
  intro s t u v hsave hsaved hsrc hkept hload hloaded k hk
  obtain rfl := eq_ran_of_noError hsave hsaved
  obtain rfl := eq_ran_of_noError hload hloaded
  rw [read_htLoad u hk, hsrc, ← readWord_htSave s hk]
  exact Memory.readWord_congr fun j hj => hkept _ (by omega) (by omega)

end Snapshot

end Machine
end Sys2Proof

/-! ### The block format: encoding (30_encoding.md R40 to R45) -/

namespace Sys2Proof
namespace Machine

theorem lengthExt_of_short {n : Nat} (hn : 15 ≤ n) (hshort : n - 15 < 255) :
    lengthExt n = [BitVec.ofNat 8 (n - 15)] := by
  rw [lengthExt_of_le hn, Nat.div_eq_of_lt hshort, Nat.mod_eq_of_lt hshort]
  rfl

theorem lengthExt_of_long {n : Nat} (hlong : 255 ≤ n - 15) : lengthExt n = 0xFF :: lengthExt (n - 255) := by
  have hdiv : (n - 15) / 255 = (n - 255 - 15) / 255 + 1 := by omega
  have hmod : (n - 15) % 255 = (n - 255 - 15) % 255 := by omega
  rw [lengthExt_of_le (by omega), lengthExt_of_le (by omega), hdiv, hmod, List.replicate_succ]
  rfl

/-- Settles O39: the two cases of the pseudocode's loop, its count, and the four examples evaluated. -/
theorem lengthExtensionEncoding : Obligations.LengthExtensionEncoding := by
  unfold Obligations.LengthExtensionEncoding
  refine ⟨fun n => lengthExt_of_lt, fun n => lengthExt_of_short, fun n => lengthExt_of_long, fun n hn => ?_, by decide,
    by decide, by decide, by decide⟩
  rw [length_lengthExt, if_neg (Nat.not_lt.mpr hn)]

theorem token_toNat (ll ml : BitVec 4) : (token ll ml).toNat = 16 * ll.toNat + ml.toNat := by
  have hml := ml.isLt
  rw [token, BitVec.toNat_append, ← Nat.shiftLeft_add_eq_or_of_lt hml, Nat.shiftLeft_eq]
  omega

/-- The token of two lengths is the number of its capped fields. -/
theorem token_lengthNibble (n m : Nat) :
    token (lengthNibble n) (lengthNibble m) = BitVec.ofNat 8 (16 * min n 15 + min m 15) := by
  apply BitVec.eq_of_toNat_eq
  rw [token_toNat, lengthNibble_toNat, lengthNibble_toNat, BitVec.toNat_ofNat]
  omega

theorem offsetBytes_eq_mod (d : Nat) : offsetBytes d = [BitVec.ofNat 8 (d % 256), BitVec.ofNat 8 (d / 256)] := by
  have hlow : BitVec.ofNat 8 d = BitVec.ofNat 8 (d % 256) := by
    apply BitVec.eq_of_toNat_eq
    simp
  rw [offsetBytes, hlow]

/-- Settles O41: the token and the offset as numbers, and the bytes of sequence and block with them. -/
theorem tokenAndOffsetReadBack : Obligations.TokenAndOffsetReadBack := by
  unfold Obligations.TokenAndOffsetReadBack
  refine ⟨fun ll ml => ⟨tokenLiteral_token ll ml, tokenMatch_token ll ml, token_toNat ll ml⟩, fun d hd => ?_,
    fun q => ?_, fun b => ?_⟩
  · refine ⟨_, _, rfl, BitVec.toNat_ofNat .., ?_, offsetOf_ofNat hd⟩
    rw [BitVec.toNat_ofNat]
    omega
  · rw [Sequence.bytes, token_lengthNibble, offsetBytes_eq_mod]
  · have hfield : lengthNibble 0 = 0 := rfl
    have htoken := token_lengthNibble b.final.length 0
    rw [hfield] at htoken
    rw [Block.bytes, finalBytes, htoken]
    rfl

end Machine
end Sys2Proof

/-! ### What the compress commands store (42_block_compressor.md R86 to R88) -/

namespace Sys2Proof
namespace Machine

section Compress
variable {s : State}

/-- The block and table the model computes are those the statements name. -/
theorem ran_compressBlock (s : State) : ran .compressBlock s = compressed (blockOf s) s := by
  rw [ran, blockOf, historyAndSourceOf, ← readBytes_eq_bytesAt]
  rfl

theorem ran_compressBlockExt (s : State) : ran .compressBlockExt s = compressed (extBlockOf s) s := by
  rw [ran, extBlockOf, compressExtView_eq_append]
  rfl

/-- A block that fits is stored, and its length fits `RESULT`. -/
theorem stored_compressed {r : Block × HashTable} (hfits : r.1.bytes.length ≤ dstRoom s.opr) :
    (compressed r s).result.toNat = r.1.bytes.length ∧
      Stored s (compressed r s) (compressed r s).result (dstStart s.opr) r.1.bytes r.2 := by
  have hlt : r.1.bytes.length < 2 ^ 32 := hfits.trans_lt (writeRegion_len_lt (i := .compressBlock) rfl)
  have heq : compressed r s = complete (BitVec.ofNat 32 r.1.bytes.length)
      { s with ht := r.2, mem := s.mem.writeBytes (dstStart s.opr) r.1.bytes } := if_neg (Nat.not_lt.mpr hfits)
  rw [heq]
  exact ⟨Nat.mod_eq_of_lt hlt, stored_complete ..⟩

theorem errcode_compressed (r : Block × HashTable) (s : State) : (compressed r s).errcode =
    if dstRoom s.opr < r.1.bytes.length then .outputBufferTooSmall else .noError := by
  unfold compressed
  split
  · next hlong => exact (if_pos hlong).symm
  · next hfits => exact (if_neg hfits).symm

/-- Both ways to fit bound the block's length: the second by the worst case of R91. -/
theorem length_le_of_fits {view : List Byte} {base : Nat} {table : HashTable}
    (h : Fits s (compressCore s.plat.search view base table).1) (hview : view.length = base + s.opr.srcLen.toNat) :
    (compressCore s.plat.search view base table).1.bytes.length ≤ dstRoom s.opr := by
  rcases h with hroom | ⟨hlegal, hroom⟩
  · exact hroom
  · have hbound := (encodes_compressCore hlegal table (by omega : base ≤ view.length)).length_bytes_le hlegal
    rw [hview, Nat.add_sub_cancel_left] at hbound
    exact hbound.trans hroom

/-- Settles O42: past its start checks the command ends in `compressed`, which stores a block that fits. -/
theorem compressStoresBlock : Obligations.CompressStoresBlock := by
  unfold Obligations.CompressStoresBlock
  intro s hstart hfits
  have hlen := length_le_of_fits hfits (length_bytesAt ..)
  exact ⟨_, (exec_of_startPasses hstart).trans (congrArg _ (ran_compressBlock s)), stored_compressed hlen⟩

/-- Settles O43: the same over dictionary window and source. -/
theorem compressExtStoresBlock : Obligations.CompressExtStoresBlock := by
  unfold Obligations.CompressExtStoresBlock
  intro s hstart hfits
  have hview : (windowOf s ++ sourceOf s).length = windowLen s.opr + s.opr.srcLen.toNat := by
    rw [List.length_append, length_sourceOf, windowOf, length_bytesAt]
  have hlen := length_le_of_fits hfits hview
  exact ⟨_, (exec_of_startPasses hstart).trans (congrArg _ (ran_compressBlockExt s)), stored_compressed hlen⟩

/-- Settles O44: the error code of `compressed` is the test of the block's length. -/
theorem compressTooSmallExactly : Obligations.CompressTooSmallExactly := by
  unfold Obligations.CompressTooSmallExactly
  refine fun s => ⟨fun hstart => ⟨_, exec_of_startPasses hstart, ?_⟩, fun hstart => ⟨_, exec_of_startPasses hstart, ?_⟩⟩
  · rw [ran_compressBlock, errcode_compressed]
  · rw [ran_compressBlockExt, errcode_compressed]

end Compress

/-! ### The scan as a derivation of the rules (42_block_compressor.md R79 to R85, R94, R95) -/

section Scan
variable {p : Config.SearchParams} {view : List Byte} {s anchor counter fuel : Nat} {t : HashTable}

theorem hashAt_eq (view : List Byte) (s : Nat) : hashAt view s = hashU32 (rd32LE view s) := by
  rw [hashAt, laneAt_eq_rd32LE]

theorem insertsAt_insert (view : List Byte) (s : Nat) (t : HashTable) :
    InsertsAt view s t (t.insert (rd32LE view s) s) := fun k => by
  rw [HashTable.read_insert, hashAt_eq, entryOf]

theorem acceptedAt_of_accepts {old : Word} (h : accepts view s (rd32LE view s) old = true) :
    AcceptedAt view s old (candidateOf old) := (accepts_iff view s old).mp h

/-- The entry names one candidate only, so one that is accepted is the one the scan tests. -/
theorem accepts_of_acceptedAt {old : Word} {cand : Nat} (h : AcceptedAt view s old cand) :
    accepts view s (rd32LE view s) old = true := by
  obtain ⟨hentry, -⟩ := id h
  have hcand : candidateOf old = cand := by rw [candidateOf, hentry]; omega
  rw [accepts_iff, hcand]
  exact h

theorem longestMatch_matchLength {cand : Nat} (hcand : cand < s) (hstart : s + 4 ≤ view.length)
    (hfour : ∀ j, j < 4 → viewAt view (cand + j) = viewAt view (s + j)) :
    LongestMatch view s cand (matchLength view s cand) := by
  obtain ⟨hmin, hstop⟩ := matchLength_bounds view s cand
  refine ⟨hmin, fun j hj => matchLength_agrees hfour hj, hstop, fun hmore => ?_⟩
  have hlimit : Config.lastLiterals = 5 := rfl
  rw [matchLength] at hmore ⊢
  have hdiffers := agreeing_maximal (l := view.length - Config.lastLiterals - (s + 4)) (xs := view.drop (s + 4))
    (ys := view.drop (cand + 4)) (by omega) (by rw [List.length_drop]; omega) (by rw [List.length_drop]; omega)
  rw [viewAt_drop, viewAt_drop, Nat.add_assoc, Nat.add_assoc] at hdiffers
  exact hdiffers.symm

/-- With enough fuel the scan is a derivation of the rules: each of its iterations is a miss or a hit, and it ends at
`end - MFLIMIT`. -/
theorem scanned_scan (hp : p.Legal) (hcounter : 64 ≤ counter) (hfuel : view.length - s ≤ fuel) :
    ∃ ps a, Scanned p view s anchor counter t ps (scan p view fuel s anchor counter t).1.sequences a
        (scan p view fuel s anchor counter t).2 ∧
      (scan p view fuel s anchor counter t).1.final = view.drop a := by
  obtain ⟨hmflimit, hinit⟩ := hp
  induction fuel generalizing s anchor counter t with
  | zero => exact ⟨[], anchor, .ends (by omega), rfl⟩
  | succ fuel ih =>
    rw [scan]
    split
    next hlimit =>
      dsimp only
      rw [← hashAt_eq]
      split
      next haccepts =>
        have haccepted := acceptedAt_of_accepts haccepts
        obtain ⟨-, hbefore, -, hfour⟩ := id haccepted
        have hlongest := longestMatch_matchLength hbefore (by omega) hfour
        have hless : view.length - (s + matchLength view s (candidateOf (t.read (hashAt view s)))) ≤ fuel := by
          have := hlongest.1
          omega
        obtain ⟨ps, a, hrest, hfinal⟩ := ih hinit hless
        exact ⟨s :: ps, a, .hits hlimit (insertsAt_insert view s t) haccepted hlongest hrest, hfinal⟩
      next hrejects =>
        have hskip : counter / 2 ^ Config.skipTrigger = counter / 64 := rfl
        obtain ⟨ps, a, hrest, hfinal⟩ := ih (s := s + counter / 64) (counter := counter + 1) (by omega) (by omega)
        rw [hskip]
        exact ⟨s :: ps, a, .misses hlimit (insertsAt_insert view s t) (fun _ h => hrejects (accepts_of_acceptedAt h))
          hrest, hfinal⟩
    next hend => exact ⟨[], anchor, .ends (Nat.le_of_not_lt hend), rfl⟩

/-- More fuel than bytes left changes nothing (R94). -/
theorem scan_add_fuel (hp : p.Legal) (hcounter : 64 ≤ counter) (hfuel : view.length - s ≤ fuel) (extra : Nat) :
    scan p view (fuel + extra) s anchor counter t = scan p view fuel s anchor counter t := by
  obtain ⟨-, hinit⟩ := hp
  induction fuel generalizing s anchor counter t with
  | zero =>
    cases extra with
    | zero => rfl
    | succ extra => exact if_neg (by omega)
  | succ fuel ih =>
    have hskip : counter / 2 ^ Config.skipTrigger = counter / 64 := rfl
    rw [Nat.succ_add, scan, scan, hskip]
    split
    next hlimit =>
      dsimp only
      have hmin := (matchLength_bounds view s (candidateOf (t.read (hashU32 (rd32LE view s))))).1
      rw [ih hinit (by omega), ih (s := s + counter / 64) (by omega) (by omega)]
    next => rfl

end Scan

section Scanned
variable {p : Config.SearchParams} {view : List Byte} {s anchor counter a k : Nat} {t t' u : HashTable} {ps : List Nat}
  {qs : List Sequence}

/-- A scan looks up positions from its start on, before `end - MFLIMIT`. -/
theorem Scanned.bounds (h : Scanned p view s anchor counter t ps qs a u) {q : Nat} (hq : q ∈ ps) :
    s ≤ q ∧ q + p.mflimit < view.length := by
  induction h with
  | ends => cases hq
  | misses hlimit _ _ _ ih | hits hlimit _ _ _ _ ih =>
    rcases List.mem_cons.mp hq with rfl | hq
    · exact ⟨le_rfl, hlimit⟩
    · obtain ⟨hlow, hhigh⟩ := ih hq
      exact ⟨by omega, hhigh⟩

/-- The positions rise: a skip is at least 1, and so is a match. -/
theorem Scanned.rising (h : Scanned p view s anchor counter t ps qs a u) (hinit : 64 ≤ p.searchInit)
    (hcounter : 64 ≤ counter) : ps.Pairwise (· < ·) := by
  induction h with
  | ends => exact .nil
  | misses _ _ _ rest ih =>
    refine .cons (fun q hq => ?_) (ih (by omega))
    have := (rest.bounds hq).1
    omega
  | hits _ _ _ longest rest ih =>
    refine .cons (fun q hq => ?_) (ih hinit)
    have := (rest.bounds hq).1
    have := longest.1
    omega

/-- An entry that is no scanned position's is the one found. -/
theorem Scanned.read_of_absent (h : Scanned p view s anchor counter t ps qs a u)
    (habsent : ∀ q ∈ ps, hashAt view q ≠ k) : u.read k = t.read k := by
  induction h with
  | ends => rfl
  | misses _ insertion _ _ ih | hits _ insertion _ _ _ ih =>
    rw [List.forall_mem_cons] at habsent
    obtain ⟨hfirst, hrest⟩ := habsent
    rw [ih hrest, insertion, if_neg hfirst.symm]

/-- The last position of a hash is inserted, and nothing after it has that hash. -/
theorem read_of_insertsAt {q : Nat} (insertion : InsertsAt view s t t')
    (rest : ∀ q ∈ ps, (∀ r ∈ ps, q < r → hashAt view r ≠ hashAt view q) →
      u.read (hashAt view q) = BitVec.ofNat 32 (q + 1))
    (kept : (∀ r ∈ ps, hashAt view r ≠ hashAt view s) → u.read (hashAt view s) = t'.read (hashAt view s))
    (hlater : ∀ r ∈ ps, s < r) (hq : q ∈ s :: ps) (hlast : ∀ r ∈ s :: ps, q < r → hashAt view r ≠ hashAt view q) :
    u.read (hashAt view q) = BitVec.ofNat 32 (q + 1) := by
  rcases List.mem_cons.mp hq with rfl | hq
  · rw [kept fun r hr => hlast r (List.mem_cons_of_mem _ hr) (hlater r hr), insertion, if_pos rfl]
  · exact rest q hq fun r hr => hlast r (List.mem_cons_of_mem _ hr)

/-- After a scan the entry of each scanned position's hash holds the last scanned position of that hash. -/
theorem Scanned.read_of_last (h : Scanned p view s anchor counter t ps qs a u) (hrising : ps.Pairwise (· < ·)) {q : Nat}
    (hq : q ∈ ps) (hlast : ∀ r ∈ ps, q < r → hashAt view r ≠ hashAt view q) :
    u.read (hashAt view q) = BitVec.ofNat 32 (q + 1) := by
  induction h generalizing q with
  | ends => cases hq
  | misses _ insertion _ rest ih | hits _ insertion _ _ rest ih =>
    rw [List.pairwise_cons] at hrising
    obtain ⟨hlater, htail⟩ := hrising
    exact read_of_insertsAt insertion (fun q hq hl => ih htail hq hl) rest.read_of_absent hlater hq hlast

end Scanned

/-- Settles O48: the core's fuel is enough for the scan to be a derivation of the rules, and more is not used. -/
theorem scanFollowsItsRules : Obligations.ScanFollowsItsRules := by
  unfold Obligations.ScanFollowsItsRules
  exact fun p view base table hp =>
    ⟨scanned_scan hp hp.2 le_rfl, fun extra => scan_add_fuel hp hp.2 le_rfl extra⟩

/-- Settles O47: the core's scan is such a derivation, and the table after any of them is the one described. -/
theorem tableAfterCompression : Obligations.TableAfterCompression := by
  unfold Obligations.TableAfterCompression
  intro p view base table hp
  obtain ⟨ps, a, hscan, -⟩ := scanned_scan (anchor := base) (t := table) hp hp.2 (le_refl (view.length - base))
  have hrising := hscan.rising hp.2 hp.2
  exact ⟨ps, a, hscan, hrising, fun q hq => hscan.bounds hq, fun q hq hlast => hscan.read_of_last hrising hq hlast,
    fun k habsent => hscan.read_of_absent habsent⟩

end Machine
end Sys2Proof

/-! ### The parse in the rules' indices (43_block_decompressor.md R98 to R111) -/

namespace Sys2Proof
namespace Machine

/-! One turn of the parse, by what its two halves give -/

section ParseTurn
variable {oend fuel : Nat} {c c1 c2 : Cursor} {t : Byte} {input : List Byte} {e : ErrorCode}

theorem parse_of_nil (h : c.input = []) : parse oend fuel c = .ok c := by
  cases fuel with
  | zero => rfl
  | succ fuel => simp only [parse, h]

theorem parse_of_literals_error (h : c.input = t :: input) (hlits : readLiterals oend c t input = .error e) :
    parse oend (fuel + 1) c = .error e := by
  simp only [parse, h, hlits]

theorem parse_of_last (h : c.input = t :: input) (hlits : readLiterals oend c t input = .ok c1)
    (hlast : c1.input = []) : parse oend (fuel + 1) c = .ok c1 := by
  simp only [parse, h, hlits, hlast, if_true]

theorem parse_of_match_error (h : c.input = t :: input) (hlits : readLiterals oend c t input = .ok c1)
    (hmore : c1.input ≠ []) (hmatch : readMatch oend c1 t = .error e) : parse oend (fuel + 1) c = .error e := by
  simp only [parse, h, hlits, hmore, if_false, hmatch]

theorem parse_of_match (h : c.input = t :: input) (hlits : readLiterals oend c t input = .ok c1)
    (hmore : c1.input ≠ []) (hmatch : readMatch oend c1 t = .ok c2) : parse oend (fuel + 1) c = parse oend fuel c2 := by
  simp only [parse, h, hlits, hmore, if_false, hmatch]

end ParseTurn

section Indices
variable {I : List Byte} {ip : Nat}

theorem drop_eq_viewAt_cons (h : ip < I.length) : I.drop ip = viewAt I ip :: I.drop (ip + 1) := by
  rw [List.drop_eq_getElem_cons h, viewAt, List.getD_eq_getElem _ _ h]

theorem tokenLiteral_toNat (t : Byte) : (tokenLiteral t).toNat = t.toNat / 16 := by
  have := t.isLt
  rw [tokenLiteral, BitVec.extractLsb'_toNat, Nat.shiftRight_eq_div_pow]
  omega

theorem tokenMatch_toNat (t : Byte) : (tokenMatch t).toNat = t.toNat % 16 := by
  rw [tokenMatch, BitVec.extractLsb'_toNat, Nat.shiftRight_zero]

/-- A chain of bytes 255 at index `ip`, by indices. -/
theorem lengthReads_of_chain {k : Nat} {b : Byte} {rest : List Byte}
    (hinput : I.drop ip = List.replicate k 255 ++ b :: rest) (hb : b ≠ 255) : LengthReads I 15 ip (some (15 + 255 * k + b.toNat, ip + k + 1)) ∧ rest = I.drop (ip + k + 1) ∧
      ip + k + 1 ≤ I.length := by
  have hlen : I.length - ip = k + (rest.length + 1) := by
    rw [← List.length_drop, hinput, List.length_append, List.length_replicate, List.length_cons]
  have hchain (j : Nat) (hj : j < k) : viewAt I (ip + j) = 255 := by
    rw [← viewAt_drop, hinput, viewAt_append _ (by rwa [List.length_replicate])]
    simp [viewAt, hj]
  have hlast : viewAt I (ip + k) = b := by
    rw [← viewAt_drop, hinput, viewAt_append_right _ (by rw [List.length_replicate]), List.length_replicate,
      Nat.sub_self]
    rfl
  have hrest : rest = I.drop (ip + k + 1) := by
    rw [Nat.add_assoc, ← List.drop_drop, hinput, ← List.drop_drop, List.drop_left' (List.length_replicate ..),
      List.drop_one, List.tail_cons]
  refine ⟨?_, hrest, by omega⟩
  rw [← hlast]
  exact .extended hchain (by omega) (hlast ▸ hb)

/-- Reading a length from index `ip` on: it runs off the input, or it is read up to an index of the input. -/
theorem readLength_drop_cases (f : BitVec 4) (hip : ip ≤ I.length) :
    (readLength f (I.drop ip) = none ∧ LengthReads I f.toNat ip none) ∨
    ∃ n q, readLength f (I.drop ip) = some (n, I.drop q) ∧ LengthReads I f.toNat ip (some (n, q)) ∧ ip ≤ q ∧
      q ≤ I.length := by
  by_cases hf : f = 15
  · subst hf
    rw [readLength_fifteen]
    rcases readExt_cases (I.drop ip) 15 with ⟨hnone, hall⟩ | ⟨k, b, rest, hinput, hb, hsome⟩
    · refine .inl ⟨hnone, .runsOff fun j hlow hj => hall _ ?_⟩
      rw [viewAt, List.getD_eq_getElem _ _ hj, List.mem_drop_iff_getElem]
      exact ⟨j - ip, by omega, by congr 1; omega⟩
    · obtain ⟨hreads, rfl, hle⟩ := lengthReads_of_chain hinput hb
      exact .inr ⟨_, _, hsome, hreads, by omega, hle⟩
  · have hlt : f.toNat < 15 := by
      have := f.isLt
      have : f.toNat ≠ 15 := fun h => hf (BitVec.eq_of_toNat_eq h)
      omega
    exact .inr ⟨_, ip, readLength_of_ne_fifteen hf _, .field hlt, le_rfl, hip⟩

/-- The forward copy appends bytes each of which is the one `d` back in output or dictionary (R98, R106). -/
theorem copyMatch_append {D O : List Byte} {d : Nat} (m : Nat) (hpos : 1 ≤ d) (hback : d ≤ D.length + O.length) :
    ∃ M, copyMatch d m (D ++ O).reverse = (D ++ (O ++ M)).reverse ∧ M.length = m ∧
      ∀ k, k < m → viewAt M k = backByte D (O ++ M) (O.length + k) d := by
  have hlen : (D ++ O).reverse.length = D.length + O.length := by rw [List.length_reverse, List.length_append]
  obtain ⟨M, hM⟩ : ∃ M, D ++ O ++ M = (copyMatch d m (D ++ O).reverse).reverse := by
    have hsplit := List.take_append_drop (D ++ O).reverse.length (copyMatch d m (D ++ O).reverse).reverse
    rw [take_reverse_copyMatch, List.reverse_reverse] at hsplit
    exact ⟨_, hsplit⟩
  have hMlen : M.length = m := by
    have := congrArg List.length hM
    rw [List.length_reverse, length_copyMatch, hlen, List.length_append, List.length_append] at this
    omega
  refine ⟨M, by rw [← List.append_assoc, hM, List.reverse_reverse], hMlen, fun k hk => ?_⟩
  have hcopy := viewAt_reverse_copyMatch (D ++ O).reverse hpos (by rwa [hlen]) hk
  rw [← hM, hlen, viewAt_append_right _ (by rw [List.length_append]; omega), List.length_append,
    Nat.add_sub_cancel_left, List.append_assoc] at hcopy
  rw [hcopy, backByte]
  split
  · next hout =>
    rw [viewAt_append_right _ (by omega)]
    congr 1
    omega
  · next hdict =>
    rw [viewAt_append _ (by omega)]
    congr 1
    omega

end Indices

/-- The cursor of the parse at input index `ip` with the output buffer filled by `O`. -/
def cursorAt (I D : List Byte) (ip : Nat) (O : List Byte) : Cursor := ⟨I.drop ip, (D ++ O).reverse, O.length⟩

/-- What is appended to the output stands first in the cursor's past. -/
theorem reverse_past_append (D O N : List Byte) : (D ++ (O ++ N)).reverse = N.reverse ++ (D ++ O).reverse := by
  rw [← List.append_assoc, List.reverse_append]

section Turn
variable {I D O : List Byte} {oend ip n q : Nat}

/-- The literals of the sequence at `ip`: the first check that fails, or the literals appended. -/
theorem readLiterals_cases (h : ip < I.length) :
    (∃ e, readLiterals oend (cursorAt I D ip O) (viewAt I ip) (I.drop (ip + 1)) = .error e ∧
      ParsesTo I D oend ip O (.error e)) ∨
    ∃ n q, readLiterals oend (cursorAt I D ip O) (viewAt I ip) (I.drop (ip + 1)) =
        .ok (cursorAt I D (q + n) (O ++ (I.drop q).take n)) ∧
      LiteralsFrom I ip n q ∧ O.length + n ≤ oend ∧ ip < q ∧ q + n ≤ I.length := by
  have hfield := tokenLiteral_toNat (viewAt I ip)
  rcases readLength_drop_cases (tokenLiteral (viewAt I ip)) (Nat.succ_le_of_lt h) with
    ⟨hread, hlen⟩ | ⟨n, q, hread, hlen, hlow, hq⟩ <;> rw [hfield] at hlen
  · exact .inl ⟨_, by simp only [readLiterals, hread], .literalLengthRunsOff h hlen⟩
  · have hlits : LiteralsFrom I ip n q := ⟨h, hlen⟩
    simp only [readLiterals, hread, cursorAt, List.length_drop]
    by_cases hroom : oend < O.length + n
    · exact .inl ⟨_, if_pos hroom, .literalsTooLong hlits hroom⟩
    · rw [if_neg hroom]
      by_cases hinput : I.length - q < n
      · exact .inl ⟨_, if_pos hinput, .literalsRunOff hlits (by omega) (by omega)⟩
      · rw [if_neg hinput]
        refine .inr ⟨n, q, ?_, hlits, by omega, by omega, by omega⟩
        rw [List.drop_drop, reverse_past_append, List.length_append, List.length_take, List.length_drop,
          min_eq_left (Nat.le_of_not_lt hinput)]

/-- The match of the sequence at `ip`, after its literals: the first check that fails, or the match appended, from where
the parse of the rules goes on. -/
theorem readMatch_cases {O1 : List Byte} (hO1 : O1 = O ++ (I.drop q).take n) (hlits : LiteralsFrom I ip n q)
    (hroom : O.length + n ≤ oend) (hmore : q + n < I.length) :
    (∃ e, readMatch oend (cursorAt I D (q + n) O1) (viewAt I ip) = .error e ∧ ParsesTo I D oend ip O (.error e)) ∨
    ∃ r M, readMatch oend (cursorAt I D (q + n) O1) (viewAt I ip) = .ok (cursorAt I D r (O1 ++ M)) ∧
      q + n < r ∧ r ≤ I.length ∧ ∀ res, ParsesTo I D oend r (O1 ++ M) res → ParsesTo I D oend ip O res := by
  have hlen1 : O1.length = O.length + n := by
    rw [hO1, List.length_append, List.length_take, List.length_drop, min_eq_left (by omega)]
  by_cases hone : q + n + 1 = I.length
  · refine .inl ⟨.malformedInput, ?_, .offsetRunsOff hlits hroom hone⟩
    simp only [readMatch, cursorAt, drop_eq_viewAt_cons hmore, hone, List.drop_length]
  have hoffset : offsetOf (viewAt I (q + n)) (viewAt I (q + n + 1)) = offsetAt I (q + n) := rfl
  have hinput : I.drop (q + n) = viewAt I (q + n) :: viewAt I (q + n + 1) :: I.drop (q + n + 2) := by
    rw [drop_eq_viewAt_cons hmore, drop_eq_viewAt_cons (by omega : q + n + 1 < I.length)]
  simp only [readMatch, cursorAt, hinput, hoffset]
  by_cases hzero : offsetAt I (q + n) = 0
  · exact .inl ⟨_, if_pos hzero, .zeroOffset hlits hroom (by omega) hzero⟩
  rw [if_neg hzero]
  have hoff : OffsetFrom I oend ip O.length n q := ⟨hlits, hroom, by omega, hzero⟩
  have hfield := tokenMatch_toNat (viewAt I ip)
  rcases readLength_drop_cases (tokenMatch (viewAt I ip)) (by omega : q + n + 2 ≤ I.length) with
    ⟨hread, hlen⟩ | ⟨m, r, hread, hlen, hlow, hr⟩ <;> rw [hfield] at hlen <;> simp only [hread]
  · exact .inl ⟨_, rfl, .matchLengthRunsOff hoff hlen⟩
  have hmat : MatchFrom I oend ip O.length n q m r := ⟨hoff, hlen⟩
  rw [List.length_reverse, List.length_append, hlen1]
  by_cases hlong : oend < O.length + n + (m + 4)
  · exact .inl ⟨_, if_pos hlong, .matchTooLong hmat hlong⟩
  rw [if_neg hlong]
  by_cases hback : D.length + (O.length + n) < offsetAt I (q + n)
  · exact .inl ⟨_, if_pos hback, .outOfBounds hmat (by omega) hback⟩
  rw [if_neg hback]
  obtain ⟨M, hcopy, hM, hbytes⟩ := copyMatch_append (D := D) (O := O1) (m + 4) (by omega : 1 ≤ offsetAt I (q + n))
    (by omega)
  refine .inr ⟨r, M, ?_, by omega, hr, fun res hrest => ?_⟩
  · rw [hcopy, List.length_append, hM, hlen1]
  · rw [hlen1] at hbytes
    subst hO1
    exact .sequence hmat (by omega) (by omega) hM hbytes hrest

end Turn

/-! The whole parse -/

section Parse
variable {I D : List Byte} {oend : Nat}

/-- With any fuel that covers the input left, the parse from `ip` ends in `r`. -/
def ParseEnds (I D : List Byte) (oend ip : Nat) (O : List Byte) (r : Except ErrorCode Cursor) : Prop :=
  ∀ fuel, I.length - ip ≤ fuel → parse oend fuel (cursorAt I D ip O) = r

/-- A parse that has input left ends as every turn with one unit of fuel more does. -/
theorem parseEnds_of_succ {ip : Nat} {O : List Byte} {r : Except ErrorCode Cursor} (hip : ip < I.length)
    (h : ∀ fuel, I.length - (ip + 1) ≤ fuel → parse oend (fuel + 1) (cursorAt I D ip O) = r) :
    ParseEnds I D oend ip O r := by
  intro fuel hfuel
  obtain ⟨fuel, rfl⟩ : ∃ m, fuel = m + 1 := Nat.exists_eq_add_one.mpr (by omega)
  exact h fuel (by omega)

/-- The parse ends in the outcome the rules give. -/
theorem parse_follows_rules {ip : Nat} (O : List Byte) (hip : ip ≤ I.length) :
    (∃ e, ParseEnds I D oend ip O (.error e) ∧ ParsesTo I D oend ip O (.error e)) ∨
    ∃ ip' N, ParseEnds I D oend ip O (.ok (cursorAt I D ip' (O ++ N))) ∧ ParsesTo I D oend ip O (.ok (O ++ N)) := by
  induction hleft : I.length - ip using Nat.strong_induction_on generalizing ip O with
  | _ left ih =>
    rcases hip.eq_or_lt with hend | hlt
    · refine .inr ⟨ip, [], fun fuel _ => ?_, ?_⟩ <;> rw [List.append_nil]
      · exact parse_of_nil (by rw [cursorAt, hend, List.drop_length])
      · exact .ends hend
    have hinput : (cursorAt I D ip O).input = viewAt I ip :: I.drop (ip + 1) := drop_eq_viewAt_cons hlt
    rcases readLiterals_cases (O := O) (D := D) (oend := oend) hlt with
      ⟨e, herr, hrule⟩ | ⟨n, q, hok, hlits, hroom, hq, hqn⟩
    · exact .inl ⟨e, parseEnds_of_succ hlt fun _ _ => parse_of_literals_error hinput herr, hrule⟩
    rcases hqn.eq_or_lt with hlast | hmore
    · refine .inr ⟨q + n, (I.drop q).take n, parseEnds_of_succ hlt fun _ _ => ?_, ?_⟩
      · exact parse_of_last hinput hok (by rw [cursorAt, hlast, List.drop_length])
      · rw [List.take_of_length_le (by rw [List.length_drop]; omega)]
        exact .lastLiterals hlits hroom hlast
    have hne : (cursorAt I D (q + n) (O ++ (I.drop q).take n)).input ≠ [] := by
      rw [cursorAt, Ne, List.drop_eq_nil_iff]
      omega
    rcases readMatch_cases (D := D) (oend := oend) rfl hlits hroom hmore with
      ⟨e, herr, hrule⟩ | ⟨r, M, hmatch, hr, hrlen, hrule⟩
    · exact .inl ⟨e, parseEnds_of_succ hlt fun _ _ => parse_of_match_error hinput hok hne herr, hrule⟩
    have hturn {res : Except ErrorCode Cursor} (hrest : ParseEnds I D oend r (O ++ (I.drop q).take n ++ M) res) :
        ParseEnds I D oend ip O res :=
      parseEnds_of_succ hlt fun fuel hfuel => (parse_of_match hinput hok hne hmatch).trans (hrest fuel (by omega))
    rcases ih (I.length - r) (by omega) (O ++ (I.drop q).take n ++ M) hrlen rfl with
      ⟨e, hends, hrest⟩ | ⟨ip', N, hends, hrest⟩
    · exact .inl ⟨e, hturn hends, hrule _ hrest⟩
    · refine .inr ⟨ip', (I.drop q).take n ++ M ++ N, ?_, ?_⟩
      · simpa only [List.append_assoc] using hturn hends
      · simpa only [List.append_assoc] using hrule _ hrest

variable {block history dict : List Byte}

/-- The bytes of a cursor behind the history are those the decoder gives. -/
theorem decoded_cursorAt (block dict history N : List Byte) (ip : Nat) :
    ((cursorAt block dict ip (history ++ N)).past.take
      ((cursorAt block dict ip (history ++ N)).op - history.length)).reverse = N := by
  rw [cursorAt]
  dsimp only
  rw [reverse_past_append, List.length_append, Nat.add_sub_cancel_left, List.take_left' List.length_reverse,
    List.reverse_reverse]

/-- Decoding by the rules: an error of theirs, or output after the history, whatever the fuel. -/
theorem decodeBlock_follows_rules (block history dict : List Byte) (oend : Nat) :
    (∃ e, ParseEnds block dict oend 0 history (.error e) ∧ decodeBlock block history dict oend = .error e ∧
      ParsesTo block dict oend 0 history (.error e)) ∨
    ∃ ip N, ParseEnds block dict oend 0 history (.ok (cursorAt block dict ip (history ++ N))) ∧
      decodeBlock block history dict oend = .ok N ∧ ParsesTo block dict oend 0 history (.ok (history ++ N)) := by
  rcases parse_follows_rules (D := dict) (oend := oend) history (Nat.zero_le block.length) with
    ⟨e, hends, hrule⟩ | ⟨ip, N, hends, hrule⟩
  · have hparse : parse oend block.length ⟨block, (dict ++ history).reverse, history.length⟩ = .error e :=
      hends block.length (Nat.sub_le ..)
    exact .inl ⟨e, hends, by simp only [decodeBlock, hparse], hrule⟩
  · have hparse : parse oend block.length ⟨block, (dict ++ history).reverse, history.length⟩ = .ok _ :=
      hends block.length (Nat.sub_le ..)
    exact .inr ⟨ip, N, hends, by simp only [decodeBlock, hparse, decoded_cursorAt], hrule⟩

/-- Settles O54: the parse follows the rules turn by turn, and its outcome depends on no fuel beyond the input's
length. -/
theorem decoderFollowsParseRules : Obligations.DecoderFollowsParseRules := by
  unfold Obligations.DecoderFollowsParseRules
  refine ⟨fun block history dict oend => ?_, fun block history dict oend extra hroom => ⟨?_, ?_⟩⟩
  · rcases decodeBlock_follows_rules block history dict oend with
      ⟨e, -, hdecode, hrule⟩ | ⟨ip, N, -, hdecode, hrule⟩ <;>
      simpa only [hdecode] using hrule
  · rcases decodeBlock_cases block history dict oend with ⟨e, he, hdecode⟩ | ⟨out, hlen, hdecode⟩
    · have hsub : executionErrors ⊆
          [.malformedInput, .outputBufferTooSmall, .invalidOffset, .dictionaryOutOfBounds] := by decide
      exact .inr ⟨e, hsub he, hdecode⟩
    · exact .inl ⟨out, hdecode, by omega⟩
  · have hsame {r : Except ErrorCode Cursor} (hends : ParseEnds block dict oend 0 history r) :
        parse oend (block.length + extra) (cursorAt block dict 0 history) =
          parse oend block.length (cursorAt block dict 0 history) :=
      (hends _ (by omega)).trans (hends _ (by omega)).symm
    rcases decodeBlock_follows_rules block history dict oend with ⟨e, hends, -⟩ | ⟨ip, N, hends, -⟩ <;>
      exact hsame hends

end Parse

end Machine
end Sys2Proof

/-! ### A smaller output buffer (43_block_decompressor.md R105) -/

namespace Sys2Proof
namespace Machine

section Capacity
variable {oend fuel : Nat} {c c' c1 c2 : Cursor} {t : Byte} {input : List Byte}

/-- Literals that are read with one capacity are read with any that has room for them, and with no other. -/
theorem readLiterals_at_capacity (h : readLiterals oend c t input = .ok c1) (oend' : Nat) : c.op ≤ c1.op ∧
    readLiterals oend' c t input = if oend' < c1.op then .error .outputBufferTooSmall else .ok c1 := by
  unfold readLiterals at h ⊢
  split at h
  · cases h
  · split at h
    · cases h
    · split at h
      · cases h
      · next hinput =>
        cases h
        exact ⟨Nat.le_add_right .., by simp only [if_neg hinput]⟩

/-- The same for a match: its room is checked before the dictionary. -/
theorem readMatch_at_capacity (h : readMatch oend c t = .ok c1) (oend' : Nat) : c.op ≤ c1.op ∧
    readMatch oend' c t = if oend' < c1.op then .error .outputBufferTooSmall else .ok c1 := by
  unfold readMatch at h ⊢
  split at h
  · dsimp only at h ⊢
    split at h
    · cases h
    · next hoffset =>
      rw [if_neg hoffset]
      split at h
      · cases h
      · split at h
        · cases h
        · split at h
          · cases h
          · next hback =>
            cases h
            exact ⟨Nat.le_add_right .., by simp only [if_neg hback]⟩
  · cases h

/-- A turn of a parse that succeeds: there is no input, or literals that end it, or literals, a match and the rest. -/
theorem parse_ok_cases (h : parse oend (fuel + 1) c = .ok c') : (c.input = [] ∧ c = c') ∨
    ∃ t input c1, c.input = t :: input ∧ readLiterals oend c t input = .ok c1 ∧
      ((c1.input = [] ∧ c1 = c') ∨
        ∃ c2, c1.input ≠ [] ∧ readMatch oend c1 t = .ok c2 ∧ parse oend fuel c2 = .ok c') := by
  cases hinput : c.input with
  | nil =>
    rw [parse_of_nil hinput] at h
    cases h
    exact .inl ⟨rfl, rfl⟩
  | cons t input =>
    refine .inr ⟨t, input, ?_⟩
    cases hlits : readLiterals oend c t input with
    | error e =>
      rw [parse_of_literals_error hinput hlits] at h
      cases h
    | ok c1 =>
      refine ⟨c1, rfl, rfl, ?_⟩
      by_cases hlast : c1.input = []
      · rw [parse_of_last hinput hlits hlast] at h
        cases h
        exact .inl ⟨hlast, rfl⟩
      · cases hmatch : readMatch oend c1 t with
        | error e =>
          rw [parse_of_match_error hinput hlits hlast hmatch] at h
          cases h
        | ok c2 => exact .inr ⟨c2, hlast, rfl, (parse_of_match hinput hlits hlast hmatch).symm.trans h⟩

/-- A parse that succeeds with one capacity succeeds with any that has room for its output, and with no other: the first
turn whose output does not fit reports it. -/
theorem parse_at_capacity (h : parse oend fuel c = .ok c') (oend' : Nat) : c.op ≤ c'.op ∧ (c.op ≤ oend' →
    parse oend' fuel c = if oend' < c'.op then .error .outputBufferTooSmall else .ok c') := by
  induction fuel generalizing c with
  | zero =>
    cases h
    exact ⟨le_rfl, fun hroom => (if_neg (Nat.not_lt.mpr hroom)).symm⟩
  | succ fuel ih =>
    rcases parse_ok_cases h with ⟨hnil, rfl⟩ | ⟨t, input, c1, hinput, hlits, hrest⟩
    · exact ⟨le_rfl, fun hroom => (parse_of_nil hnil).trans (if_neg (Nat.not_lt.mpr hroom)).symm⟩
    obtain ⟨hgrow1, hlits'⟩ := readLiterals_at_capacity hlits oend'
    rcases hrest with ⟨hlast, rfl⟩ | ⟨c2, hmore, hmatch, htail⟩
    · refine ⟨hgrow1, fun _ => ?_⟩
      by_cases hlong : oend' < c1.op
      · rw [if_pos hlong] at hlits' ⊢
        exact parse_of_literals_error hinput hlits'
      · rw [if_neg hlong] at hlits' ⊢
        exact parse_of_last hinput hlits' hlast
    obtain ⟨hgrow2, hmatch'⟩ := readMatch_at_capacity hmatch oend'
    obtain ⟨hgrow3, htail'⟩ := ih htail
    refine ⟨by omega, fun _ => ?_⟩
    by_cases hlong1 : oend' < c1.op
    · rw [if_pos hlong1] at hlits'
      rw [if_pos (by omega), parse_of_literals_error hinput hlits']
    rw [if_neg hlong1] at hlits'
    by_cases hlong2 : oend' < c2.op
    · rw [if_pos hlong2] at hmatch'
      rw [if_pos (by omega), parse_of_match_error hinput hlits' hmore hmatch']
    rw [if_neg hlong2] at hmatch'
    rw [parse_of_match hinput hlits' hmore hmatch', htail' (by omega)]

/-- Decoding with another capacity that holds the history: the same bytes where they fit, else the one error. -/
theorem decodeBlock_at_capacity {block history dict out : List Byte} {oend : Nat}
    (h : decodeBlock block history dict oend = .ok out) {oend' : Nat} (hroom : history.length ≤ oend') :
    decodeBlock block history dict oend' =
      if oend' < history.length + out.length then .error .outputBufferTooSmall else .ok out := by
  rcases decodeBlock_follows_rules block history dict oend with ⟨e, -, hdecode, -⟩ | ⟨ip, N, hends, hdecode, -⟩ <;>
    rw [hdecode] at h <;> cases h
  obtain ⟨-, hparse⟩ := parse_at_capacity (hends block.length (Nat.sub_le ..)) oend'
  have hop : (cursorAt block dict ip (history ++ out)).op = history.length + out.length := List.length_append
  have hstart : parse oend' block.length ⟨block, (dict ++ history).reverse, history.length⟩ = _ := hparse hroom
  rw [decodeBlock, hstart, hop]
  by_cases hlong : oend' < history.length + out.length
  · simp only [if_pos hlong]
  · simp only [if_neg hlong, decoded_cursorAt]

/-- Settles O55: both clauses are decoding with the other capacity. -/
theorem smallerOutputIsTooSmall : Obligations.SmallerOutputIsTooSmall := by
  unfold Obligations.SmallerOutputIsTooSmall
  refine fun block history dict out oend oend' h => ⟨fun hroom => ?_, fun hroom hlong => ?_⟩
  · rw [decodeBlock_at_capacity h (by omega), if_neg (by omega)]
  · rw [decodeBlock_at_capacity h hroom, if_pos hlong]

end Capacity

end Machine
end Sys2Proof

/-! ### The engine reads only its read regions (20_memory.md R30) -/

namespace Sys2Proof
namespace Machine

section ReadRegions
variable {i : Instr} {s : State} {m : Memory}

/-- `t'` ended with another memory as `t` did: they differ in memory only, and there only where the memories they
started with, `m` and `m0`, differed. -/
def EndsAlike (m m0 : Memory) (t t' : State) : Prop :=
  t = { t' with mem := t.mem } ∧ ∀ a, m.read a = m0.read a → t'.mem.read a = t.mem.read a

theorem read_writeBytes_alike {m0 : Memory} {a : Nat} (base : Nat) (out : List Byte) (h : m.read a = m0.read a) :
    (m.writeBytes base out).read a = (m0.writeBytes base out).read a := by
  rw [Memory.read_writeBytes, Memory.read_writeBytes, h]

theorem read_scramble_alike {m0 : Memory} {a : Nat} (sp : Config.Span) (d : Nat) (h : m.read a = m0.read a) :
    (m.scramble sp d).read a = (m0.scramble sp d).read a := by
  rw [Memory.read_scramble, Memory.read_scramble, h]

theorem compressed_endsAlike (r : Block × HashTable) (s : State) (m : Memory) :
    EndsAlike m s.mem (compressed r s) (compressed r { s with mem := m }) := by
  unfold compressed
  split
  · exact ⟨rfl, fun a h => read_scramble_alike s.opr.dstSpan s.draws h⟩
  · exact ⟨rfl, fun a h => read_writeBytes_alike s.opr.dstSpan.base r.1.bytes h⟩

theorem decompressed_endsAlike (decoded : Except ErrorCode (List Byte)) (s : State) (m : Memory) :
    EndsAlike m s.mem (decompressed decoded s) (decompressed decoded { s with mem := m }) := by
  cases decoded with
  | error e => exact ⟨rfl, fun a h => read_scramble_alike s.opr.dstSpan s.draws h⟩
  | ok out => exact ⟨rfl, fun a h => read_writeBytes_alike s.opr.dstSpan.base out h⟩

theorem HashTable.ofEntries_congr {f g : Nat → Word} (h : ∀ i, i < Config.htSize → f i = g i) :
    HashTable.ofEntries f = HashTable.ofEntries g := by
  rw [ofEntries, List.filterMap_congr fun i hi => by rw [h i (List.mem_range.mp hi)], ← ofEntries]

/-- A loaded table is a function of the 65536 bytes of its snapshot. -/
theorem HashTable.load_congr {m m' : Memory} {a : Nat}
    (h : ∀ b, a ≤ b → b < a + Config.snapshotSize → m.read b = m'.read b) : HashTable.load m a = .load m' a := by
  have hsize : Config.snapshotSize = 4 * Config.htSize := rfl
  exact ofEntries_congr fun i hi => Memory.readWord_congr fun j hj => h _ (by omega) (by omega)

/-- A command is a function of the bytes of its read regions. -/
theorem ran_endsAlike (hregions : ∀ sp ∈ readRegions i s.opr, ∀ a, sp.contains a = true → m.read a = s.mem.read a) :
    EndsAlike m s.mem (ran i s) (ran i { s with mem := m }) := by
  have hin (sp : Config.Span) (hsp : sp ∈ readRegions i s.opr) (b : Nat) (hlow : sp.base ≤ b)
      (hhigh : b < sp.base + sp.len) : m.read b = s.mem.read b :=
    hregions sp hsp b ((sp.contains_iff b).mpr ⟨hlow, hhigh⟩)
  have hagree (sp : Config.Span) (hsp : sp ∈ readRegions i s.opr) :
      m.readBytes sp.base sp.len = s.mem.readBytes sp.base sp.len := Memory.readBytes_congr (hin sp hsp)
  cases i with
  | xxh32Reset | xxh32Digest | htClear | htShift => exact ⟨rfl, fun _ h => h⟩
  | xxh32Oneshot | xxh32Update =>
    have hsrc : srcBytes { s with mem := m } = srcBytes s := hagree _ List.mem_cons_self
    rw [ran, ran, hsrc]
    exact ⟨rfl, fun _ h => h⟩
  | htWarm =>
    have hwindow : dictWindowBytes { s with mem := m } = dictWindowBytes s := hagree _ List.mem_cons_self
    rw [ran, ran, hwindow]
    exact ⟨rfl, fun _ h => h⟩
  | htSave => exact ⟨rfl, fun a h => read_writeBytes_alike s.opr.saveSpan.base s.ht.snapshot h⟩
  | htLoad =>
    have hload : HashTable.load m s.opr.loadSpan.base = .load s.mem s.opr.loadSpan.base :=
      HashTable.load_congr (hin _ List.mem_cons_self)
    rw [ran, ran, hload]
    exact ⟨rfl, fun _ h => h⟩
  | compressBlock =>
    have hview : compressView { s with mem := m } = compressView s := hagree _ List.mem_cons_self
    rw [ran, ran, hview]
    exact compressed_endsAlike ..
  | compressBlockExt =>
    have hsrc : srcBytes { s with mem := m } = srcBytes s := hagree _ List.mem_cons_self
    have hwindow : dictWindowBytes { s with mem := m } = dictWindowBytes s := hagree _ (by simp [readRegions])
    rw [ran, ran, compressExtView, compressExtView, hsrc, hwindow]
    exact compressed_endsAlike ..
  | decompressBlock =>
    have hsrc : srcBytes { s with mem := m } = srcBytes s := hagree _ List.mem_cons_self
    have hdict : dictBytes { s with mem := m } = dictBytes s := hagree _ (by simp [readRegions])
    have hhistory : historyBytes { s with mem := m } = historyBytes s := hagree _ (by simp [readRegions])
    rw [ran, ran, hsrc, hdict, hhistory]
    exact decompressed_endsAlike ..

/-- Settles O58: the start checks look at no memory, and past them a command depends on its read regions alone. -/
theorem engineReadsOnlyItsRegions : Obligations.EngineReadsOnlyItsRegions := by
  unfold Obligations.EngineReadsOnlyItsRegions
  intro i s t m hagree hexec
  rcases exec_cases i s with ⟨-, hc⟩ | ⟨e, hviolation, hstart, hc⟩ | ⟨hviolation, hstart, hc⟩ <;> rw [hc] at hexec <;>
    cases hexec
  · exact ⟨_, exec_of_startError (s := { s with mem := m }) hviolation hstart, rfl, fun _ h => h⟩
  · exact ⟨_, exec_of_passes (s := { s with mem := m }) hviolation hstart, ran_endsAlike hagree⟩

end ReadRegions

end Machine
end Sys2Proof
